-- ==== Sys2Proof/Word.lean ====
section
/-! DEFINITION. The word types of huffman_core (spec 00_scope.md R6, R9): every quantity is unsigned. -/

namespace Sys2Proof

/-- A host register, a command word, a frequency (REG_BITS = FREQ_BITS = 32). -/
abbrev Word := BitVec 32

/-- One byte of codebook text. -/
abbrev Byte := BitVec 8

/-- A symbol, SYM_BITS = 8 bits (R6). -/
abbrev Sym := BitVec 8

/-- One bit of a code or of the bit stream: `false` is 0, the left child, and `true` is 1, the right child (R12). -/
abbrev Bit := Bool

end Sys2Proof
end

