-- ==== Sys2Proof/Syntax.lean ====
section
/-! DEFINITION. The commands of huffman_core: one constructor per row of spec/opcode_table.json (spec 30_encoding.md R91).
A command word has no operand field (R90). A word that matches no row is no command of this type: it runs as ILLEGAL (R92). -/

namespace Sys2Proof

/-- The eight legal commands (R91). -/
inductive Instr where
  | nop
  | build
  | save
  | load
  | decode
  | clearTree
  | clearFreq
  | flush
  deriving DecidableEq, Repr

end Sys2Proof
end

