-- ==== Sys2Proof/Decode.lean ====
section
/-! DEFINITION. From a command word to a command and back (spec 30_encoding.md R90-R94). The decoder is total on the 2^32
words and rejects by name; a rejected word is the spec's ILLEGAL (R92). The stream transfer words (R95-R98) are read and
written by `Machine/Operands.lean`, where their types stand. -/

namespace Sys2Proof

/-- Why a command word is illegal (R92): both run as ILLEGAL (40_host_access.md R130). -/
inductive DecodeError where
  /-- A nonzero bit in RSVD, [31:4]. -/
  | rsvdNonzero
  /-- OPCODE 0x8 to 0xF. -/
  | reservedOpcode
  deriving DecidableEq, Repr

/-- The OPCODE column of the opcode map (R91). -/
def decodeOpcode (op : BitVec 4) : Option Instr :=
  match op.toNat with
  | 0x0 => some .nop
  | 0x1 => some .build
  | 0x2 => some .save
  | 0x3 => some .load
  | 0x4 => some .decode
  | 0x5 => some .clearTree
  | 0x6 => some .clearFreq
  | 0x7 => some .flush
  | _   => none

/-- The command a word stands for (R91, R92). -/
def decode (w : Word) : Except DecodeError Instr :=
  if w.extractLsb 31 4 = 0#28 then
    match decodeOpcode (w.extractLsb 3 0) with
    | some i => .ok i
    | none   => .error .reservedOpcode
  else .error .rsvdNonzero

/-- The OPCODE of a command (R91). -/
def opcode : Instr → BitVec 4
  | .nop       => 0x0#4
  | .build     => 0x1#4
  | .save      => 0x2#4
  | .load      => 0x3#4
  | .decode    => 0x4#4
  | .clearTree => 0x5#4
  | .clearFreq => 0x6#4
  | .flush     => 0x7#4

/-- The word of a command: RSVD = 0 above its OPCODE (R90). -/
def encode (i : Instr) : Word := 0#28 ++ opcode i

/-- The command read from a table word: bit 0 of `w` is bit 0 of the command word (R9, R90). A command is one 32-bit word
(R94): a number with a bit above bit 31 is no command. -/
def decodeTableWord (nbits w : Nat) : Option Instr :=
  let v := w % 2 ^ nbits
  if v < 2 ^ 32 then (decode (BitVec.ofNat 32 v)).toOption else none

end Sys2Proof
end

