-- ==== Sys2Proof/Machine/Types.lean ====
section
/-! DEFINITION. The kinds of data the machine's state is made of: trees, stream transfers, error codes, the Core's
operation, the LOAD parser's state, host operations and the agents. -/

namespace Sys2Proof.Machine

/-- A child slot of a node, or the tree store itself: `Option Tree` of spec 00_scope.md R11 as one type. `absent` is the
spec's `none`, `leaf s` is `some (Leaf s)` and `node l r` is `some (Node l r)`. -/
inductive TreeSlot where
  | absent
  | leaf (sym : Sym)
  | node (left right : TreeSlot)
  deriving DecidableEq, Repr

/-- An entry of bit_in (10_state.md R43). -/
inductive BitXfer where
  | bit (b : Bit)
  | endOfStream
  deriving DecidableEq, Repr

/-- An entry of cb_in or cb_out (10_state.md R43). -/
inductive CbXfer where
  | byte (c : Byte)
  | endOfStream
  deriving DecidableEq, Repr

/-- The frequency table (10_state.md R37), the one addressable memory of the block: (symbol, count) cells. Its canonical
form is `Memory.wf`; a symbol with no cell has the count 0. -/
abbrev Memory := List (Nat × Word)

/-- The values STATUS.ERR takes (60_exceptions.md R240). The values 7-15 are never produced and have no constructor. -/
inductive ErrCode where
  | none
  | noSymbols
  | malformedCodebook
  | corruptTree
  | capacity
  | noTree
  | illegalCommand
  deriving DecidableEq, Repr

/-- The values STATUS.ERR_DETAIL takes (60_exceptions.md R241): `none` is 0, the others are 1-9. -/
inductive ErrDetail where
  | none
  | badSymbolChar
  | emptySymbol
  | symbolRange
  | badCodeChar
  | emptyCode
  | codeTooLong
  | prefixConflict
  | incompletePair
  | emptyCodebook
  deriving DecidableEq, Repr

/-- The Core's `op` (10_state.md R42): IDLE, one of the eight commands, or ILLEGAL. -/
inductive Op where
  | idle
  | run (i : Instr)
  | illegal
  deriving DecidableEq, Repr

/-- Which line of a pair LOAD is reading (10_state.md R42). -/
inductive LoadPhase where
  | sym
  | code
  deriving DecidableEq, Repr

/-- The LOAD parser state `ld` (10_state.md R42). `code` is first character first; `seen` is a set, held with no repeats. -/
structure LoadState where
  phase    : LoadPhase
  acc      : Sym
  hasDigit : Bool
  code     : List Bit
  line     : Word
  pairs    : Nat
  T        : TreeSlot
  nodes    : Nat
  seen     : List Sym
  deriving DecidableEq, Repr

/-- What LOAD's start step puts into `ld` (42_decoder.md R190). -/
def LoadState.init : LoadState :=
  { phase := .sym, acc := 0#8, hasDigit := false, code := [], line := 1#32, pairs := 0, T := .absent, nodes := 0,
    seen := [] }

/-- The size of a host access. The block supports whole words only (20_memory.md R62). -/
inductive AccessSize where
  | byte
  | halfword
  | word
  | partialEnables
  deriving DecidableEq, Repr

/-- One operation of a host program (30_encoding.md R104, R105). Addresses are the host's own: HUFF_BASE plus an offset. -/
inductive HostOp where
  /-- `rd`: a bus read. -/
  | read (size : AccessSize) (addr : Nat)
  /-- `wr`: a bus write. -/
  | write (size : AccessSize) (addr : Nat) (v : Word)
  /-- `wait`: repeat `rd STATUS` until BUSY = 0 (R105). -/
  | wait
  /-- Wait for `irq` (20_memory.md R78). -/
  | waitIrq
  deriving DecidableEq, Repr

/-- The six agents (00_scope.md R8). -/
inductive Agent where
  | host
  | core
  | bitSource
  | cbSource
  | symSink
  | cbSink
  deriving DecidableEq, Repr

/-- One slot of the schedule: an agent's turn, or the platform asserting hardware reset (70_reset_and_hazards.md R270). -/
inductive Slot where
  | agent (a : Agent)
  | hardReset
  deriving DecidableEq, Repr

/-- The host registers below the FREQ table (10_state.md R21). -/
inductive RegName where
  | PARAMS | CTRL | CMD | STATUS
  | LEAVES | NODES | WEIGHT_LO | WEIGHT_HI
  | DEC_BITS | DEC_SYMS | DEC_DEPTH
  | CB_PAIRS | CB_LINE
  deriving DecidableEq, Repr

/-- What an offset of WINDOW selects (20_memory.md R61). -/
inductive Target where
  | reg (r : RegName)
  | reserved
  | freq (s : Nat)
  deriving DecidableEq, Repr

end Sys2Proof.Machine
end

