-- ==== Sys2Proof/Machine/State.lean ====
section
/-! DEFINITION. The whole state of huffman_core (spec 10_state.md R20), the agents' scripts around it, the reasons a step
can stop, and the state after reset (70_reset_and_hazards.md R270). -/

namespace Sys2Proof.Machine

/-- Why the machine stops. The spec's own errors are no faults of the model: they end a command with STATUS.ERR set
(60_exceptions.md R243), which is a next state. -/
inductive Fault where
  /-- Raised by SAVE running past its start step with `out` empty: the spec's "first of Core.out" (41_tree_builder.md R160)
  does not exist, and no rule says what happens. No reachable state is one (SAVE ends when it pushes END). Safe. -/
  | saveOutEmpty
  deriving DecidableEq, Repr

/-- Why the model gives a step no meaning. -/
inductive Refusal where
  /-- Raised by an arm of `exec` whose command has no meaning yet; no arm does so now. Safe. -/
  | notModelled (mnemonic : String)
  /-- Raised by a host access with `addr[1:0] ≠ 0` (20_memory.md R63: "a model refuses it"). Safe. -/
  | misaligned
  /-- Raised by a host access that is not a whole word (20_memory.md R62: "A model refuses such an access"). Safe. -/
  | notWholeWord
  /-- Raised by a host access outside WINDOW (20_memory.md R61: "the model refuses the access"). Safe. -/
  | outsideWindow
  deriving DecidableEq, Repr

/-- The state. The first four groups are the block's own (R20 (a)-(e)); the last group is the model's: the agents' scripts,
what they have received, the schedule and the counter of free draws. -/
structure State where
  -- Host registers (R21-R35). BUSY and TREE_VALID follow `op` and `tree`; PARAMS is a constant.
  irqEn     : Bool
  cmdLast   : Word
  done      : Bool
  wTrail    : Bool
  wDupsym   : Bool
  ovr       : Bool
  err       : ErrCode
  errDetail : ErrDetail
  lastOp    : BitVec 4
  leaves    : BitVec 10
  nodes     : BitVec 10
  weight    : BitVec 40
  decBits   : Word
  decSyms   : Word
  decDepth  : BitVec 8
  cbPairs   : BitVec 16
  cbLine    : Word
  -- The frequency table (R37) and the tree store (R38).
  freq      : Memory
  tree      : TreeSlot
  -- The Core's internal state (R42); `started` says that the running command's start step has been taken.
  op        : Op
  started   : Bool
  out       : List CbXfer
  ld        : LoadState
  cur       : List Bit
  -- The stream FIFOs (R43), head first.
  bitIn     : List BitXfer
  cbIn      : List CbXfer
  symOut    : List Sym
  cbOut     : List CbXfer
  -- The model's own: the schedule, the agents' scripts, what the host and the sinks have received, the draws taken.
  sched     : List Slot
  hostProg  : List HostOp
  hostReads : List Word
  bitSrc    : List (BitVec 2)
  cbSrc     : List (BitVec 9)
  symGot    : List (BitVec 8)
  cbGot     : List (BitVec 9)
  draws     : Nat
  deriving DecidableEq, Repr

/-- The three outcomes of a step of this machine. -/
abbrev Result := Host.Outcome State Fault Refusal

/-- The state after reset (R270). `started`, `out`, `ld` and `cur` are meaningless while the Core is idle: DESIGN CHOICE
(log entry 8). The model's own fields are empty: DESIGN CHOICE (log entries 3, 4, 6). -/
def State.reset : State :=
  { irqEn := false, cmdLast := 0#32, done := false, wTrail := false, wDupsym := false, ovr := false,
    err := .none, errDetail := .none, lastOp := 0#4,
    leaves := 0#10, nodes := 0#10, weight := 0#40, decBits := 0#32, decSyms := 0#32, decDepth := 0#8,
    cbPairs := 0#16, cbLine := 0#32,
    freq := [], tree := .absent,
    op := .idle, started := false, out := [], ld := LoadState.init, cur := [],
    bitIn := [], cbIn := [], symOut := [], cbOut := [],
    sched := [], hostProg := [], hostReads := [], bitSrc := [], cbSrc := [], symGot := [], cbGot := [], draws := 0 }

end Sys2Proof.Machine
end

