-- ==== Sys2Proof/Machine/Flags.lean ====
section
/-! DEFINITION. The flags of STATUS (spec 10_state.md R25, R41), the word STATUS reads as (40_host_access.md R120), and
the interrupt output (10_state.md R44). -/

namespace Sys2Proof.Machine

/-- The code of an error in STATUS.ERR (60_exceptions.md R240). -/
def errCode : ErrCode → BitVec 4
  | .none => 0#4
  | .noSymbols => 1#4
  | .malformedCodebook => 2#4
  | .corruptTree => 3#4
  | .capacity => 4#4
  | .noTree => 5#4
  | .illegalCommand => 6#4

/-- The code of a detail in STATUS.ERR_DETAIL (60_exceptions.md R241). -/
def errDetailCode : ErrDetail → BitVec 4
  | .none => 0#4
  | .badSymbolChar => 1#4
  | .emptySymbol => 2#4
  | .symbolRange => 3#4
  | .badCodeChar => 4#4
  | .emptyCode => 5#4
  | .codeTooLong => 6#4
  | .prefixConflict => 7#4
  | .incompletePair => 8#4
  | .emptyCodebook => 9#4

/-- STATUS.BUSY reads 1 iff `op ≠ IDLE` (10_state.md R42). -/
def State.busy (s : State) : Bool := s.op != .idle

/-- STATUS.TREE_VALID reads 1 iff TREE ≠ none (10_state.md R25). -/
def State.treeValid (s : State) : Bool := s.tree != .absent

/-- The word STATUS reads as (40_host_access.md R120). -/
def State.statusWord (s : State) : Word :=
  0#12 ++ s.lastOp ++ errDetailCode s.errDetail ++ errCode s.err ++ 0#2
    ++ BitVec.ofBool s.ovr ++ BitVec.ofBool s.wDupsym ++ BitVec.ofBool s.wTrail
    ++ BitVec.ofBool s.treeValid ++ BitVec.ofBool s.done ++ BitVec.ofBool s.busy

/-- The word CTRL reads as: IRQ_EN in bit 1, SRST reads 0 (40_host_access.md R120). -/
def State.ctrlWord (s : State) : Word :=
  0#30 ++ BitVec.ofBool s.irqEn ++ 0#1

/-- The interrupt output: DONE and IRQ_EN (10_state.md R44, 60_exceptions.md R250). -/
def State.irq (s : State) : Bool := s.done && s.irqEn

/-- The flags an accepted command clears: DONE, the two warnings, ERR and ERR_DETAIL; OVR is kept
(40_host_access.md R123, 10_state.md R41). -/
def clearFlags (s : State) : State :=
  { s with done := false, wTrail := false, wDupsym := false, err := .none, errDetail := .none }

/-- STATUS.OVR ← 1: a CMD or FREQ write was discarded (40_host_access.md R124, R125). -/
def setOvr (s : State) : State := { s with ovr := true }

/-- The W1C write of STATUS: bit 1 clears DONE, bit 5 clears OVR, every other bit is ignored (40_host_access.md R126). -/
def statusWrite (v : Word) (s : State) : State :=
  { s with done := s.done && !v.getLsbD 1, ovr := s.ovr && !v.getLsbD 5 }

end Sys2Proof.Machine
end

