-- ==== Sys2Proof/Config.lean ====
section
/-! DEFINITION. The parameters of the block (spec 00_scope.md R6). The fixed ones are numbers; the OPEN ones and the free
values are opaque constants, so that a theorem about them holds for every instance. -/

namespace Sys2Proof.Config

/-- NSYM = 2 ^ SYM_BITS, the size of the alphabet (R6). -/
def nsym : Nat := 256

/-- NODE_CAP = 2 · NSYM − 1, the most nodes the tree store holds (R6). -/
def nodeCap : Nat := 511

/-- MAX_CODE_LEN = NSYM − 1, the longest code-string (R6). -/
def maxCodeLen : Nat := 255

/-- WINDOW is the byte offsets below this one (R6, R21). -/
def windowSize : Nat := 0x800

/-- PARAMS reads as this constant (10_state.md R22). -/
def params : Word := 0x81FFFF08#32

/-- IN_DEPTH less one: OPEN in the spec, at least 1 (R6). -/
opaque inDepthLessOne : Nat

/-- OUT_DEPTH less one: OPEN in the spec, at least 1 (R6). -/
opaque outDepthLessOne : Nat

/-- IN_DEPTH, the depth of bit_in and of cb_in (R6, R43). -/
def inDepth : Nat := inDepthLessOne + 1

/-- OUT_DEPTH, the depth of sym_out and of cb_out (R6, R43). -/
def outDepth : Nat := outDepthLessOne + 1

/-- HUFF_BASE, the host address of offset 0x000 of WINDOW: OPEN in the spec (R6, 20_memory.md R68). -/
opaque huffBase : Nat

/-- FREE VALUE: what the n-th read of a result register while BUSY = 1 returns (40_host_access.md R120: "any 32-bit value";
93_implementation_defined.md H1). -/
opaque freeRead : Nat → Word

end Sys2Proof.Config
end

