-- ==== Sys2Proof/Machine/Operands.lean ====
section
/-! DEFINITION. The operands of the commands. A command word has no operand field (spec 30_encoding.md R90): every operand
is state. Here are the operations that read one: FREQ cells, paths and sizes of trees (00_scope.md R12), the text of a
tree (41_tree_builder.md R161), and the wire words of the four streams (30_encoding.md R95-R98). -/

namespace Sys2Proof.Machine

/-! ### The frequency table -/

/-- `FREQ[s]`: the count of symbol `s`; a symbol with no cell has count 0 (10_state.md R37). -/
def Memory.read : Memory → Nat → Word
  | [], _ => 0#32
  | (a, v) :: rest, s => if a = s then v else Memory.read rest s

/-- `FREQ[s] <- v`. The cells stay in rising order, and writing 0 leaves no cell. -/
def Memory.write : Memory → Nat → Word → Memory
  | [], s, v => if v = 0#32 then [] else [(s, v)]
  | (a, w) :: rest, s, v =>
    if a < s then (a, w) :: Memory.write rest s v
    else if a = s then (if v = 0#32 then rest else (s, v) :: rest)
    else (if v = 0#32 then (a, w) :: rest else (s, v) :: (a, w) :: rest)

/-- The canonical form: symbols strictly rising, each below NSYM, no cell with the count 0. -/
abbrev Memory.wf (m : Memory) : Prop :=
  (m.map Prod.fst).Pairwise (· < ·) ∧ ∀ c ∈ m, c.1 < Config.nsym ∧ c.2 ≠ 0#32

/-- The list S of 41_tree_builder.md R150: the symbols with a positive count, ascending. -/
def Memory.present (m : Memory) : List Nat :=
  (List.range Config.nsym).filter (fun s => Memory.read m s != 0#32)

/-! ### Trees -/

/-- `at(t, p)`: the subtree of `t` reached by path `p`; `absent` stands for "undefined" (00_scope.md R12). -/
def TreeSlot.subtree : TreeSlot → List Bit → TreeSlot
  | t, [] => t
  | .absent, _ :: _ => .absent
  | .leaf _, _ :: _ => .absent
  | .node l _, false :: p => l.subtree p
  | .node _ r, true :: p => r.subtree p

/-- `size(t)`: the number of leaves and internal nodes (00_scope.md R12); 0 for `none`, as NODES reads (10_state.md R29). -/
def TreeSlot.size : TreeSlot → Nat
  | .absent => 0
  | .leaf _ => 1
  | .node l r => 1 + l.size + r.size

/-- `leaves(t)`: the number of leaves (00_scope.md R12); 0 for `none`, as LEAVES reads (10_state.md R28). -/
def TreeSlot.leafCount : TreeSlot → Nat
  | .absent => 0
  | .leaf _ => 1
  | .node l r => l.leafCount + r.leafCount

/-! ### Codebook text (30_encoding.md R100, 41_tree_builder.md R161) -/

/-- The byte LF (00_scope.md R13). -/
def byteLF : Byte := 0x0A#8

/-- The byte of the digit `d` (00_scope.md R13: '0' is 0x30). -/
def digitByte (d : Nat) : Byte := BitVec.ofNat 8 (0x30 + d)

/-- `dec(s)`: the decimal text of a symbol, most significant digit first, no leading zeros (00_scope.md R13). A symbol is
below 256, so three digits are enough. -/
def decText (s : Sym) : List Byte :=
  let n := s.toNat
  if n < 10 then [digitByte n]
  else if n < 100 then [digitByte (n / 10), digitByte (n % 10)]
  else [digitByte (n / 100), digitByte (n / 10 % 10), digitByte (n % 10)]

/-- The character of one bit of a code: '0' (0x30) or '1' (0x31) (00_scope.md R13). -/
def bitChar (b : Bit) : Byte := if b then 0x31#8 else 0x30#8

/-- `pairs(t, p)`: the two text lines of every leaf of `t`, left before right, `p` being the path to `t` (R161). An absent
child emits nothing (R164). -/
def TreeSlot.pairsText : TreeSlot → List Bit → List Byte
  | .absent, _ => []
  | .leaf s, p => decText s ++ [byteLF] ++ p.map bitChar ++ [byteLF]
  | .node l r, p => l.pairsText (p ++ [false]) ++ r.pairsText (p ++ [true])

/-- `saveBytes(t)`: the text of the whole tree, then one END (R161). -/
def saveBytes (t : TreeSlot) : List CbXfer :=
  (t.pairsText []).map CbXfer.byte ++ [CbXfer.endOfStream]

/-! ### Stream transfer words (30_encoding.md R95-R98) -/

/-- What a 2-bit bit_in word means: bit [1] is END, and then BITVAL is ignored (R95). -/
def decodeBitXfer (w : BitVec 2) : BitXfer :=
  if w.getLsbD 1 then .endOfStream else .bit (w.getLsbD 0)

/-- The bit_in word of a transfer; END is sent as 0b10 (R95, R104). -/
def encodeBitXfer : BitXfer → BitVec 2
  | .bit b => 0#1 ++ BitVec.ofBool b
  | .endOfStream => 0b10#2

/-- What a 9-bit cb_in or cb_out word means: bit [8] is END, and then BYTE is ignored (R96, R98). -/
def decodeCbXfer (w : BitVec 9) : CbXfer :=
  if w.getLsbD 8 then .endOfStream else .byte (w.extractLsb' 0 8)

/-- The cb_in or cb_out word of a transfer; END is sent as 0x100 (R96, R98, R104). -/
def encodeCbXfer : CbXfer → BitVec 9
  | .byte c => 0#1 ++ c
  | .endOfStream => 0x100#9

/-- The sym_out word of a symbol: bits [7:0] are the symbol, and there is no END (R97). -/
def encodeSym (s : Sym) : BitVec 8 := s

end Sys2Proof.Machine
end

