-- ==== Sys2Proof/Machine/Ops.lean ====
section
/-! DEFINITION. The shared operations: how a command ends (spec 60_exceptions.md R243, R244), how one is accepted
(40_host_access.md R123), how the tree results are written, and reset (70_reset_and_hazards.md R270, R271). -/

namespace Sys2Proof.Machine

/-- `finish()`: the running command ends without error (60_exceptions.md R244). -/
def finish (s : State) : State :=
  { s with op := .idle, started := false, done := true }

/-- `raise Err(code, detail)`: the running command ends with an error. This is the block's whole exception entry: no
handler runs, no vector is taken, nothing but these flags changes (60_exceptions.md R243). There is no return from it
(R248): accepting the next command clears it (`acceptCommand`). -/
def raiseErr (e : ErrCode) (d : ErrDetail) (s : State) : State :=
  { s with err := e, errDetail := d, op := .idle, started := false, done := true }

/-- TREE <- none; LEAVES, NODES, WEIGHT <- 0: what CLEAR_TREE and every failed BUILD or LOAD writes (42_decoder.md R220,
R199; 41_tree_builder.md R153). -/
def dropTree (s : State) : State :=
  { s with tree := .absent, leaves := 0#10, nodes := 0#10, weight := 0#40 }

/-- A new tree and its result registers (41_tree_builder.md R155, 42_decoder.md R198). -/
def installTree (t : TreeSlot) (leaves nodes weight : Nat) (s : State) : State :=
  { s with tree := t, leaves := BitVec.ofNat 10 leaves, nodes := BitVec.ofNat 10 nodes,
           weight := BitVec.ofNat 40 weight }

/-- `push(cb_out, x)` (00_scope.md R10). -/
def pushCb (x : CbXfer) (s : State) : State := { s with cbOut := s.cbOut ++ [x] }

/-- `push(sym_out, SYM(v))` (00_scope.md R10). -/
def pushSym (v : Sym) (s : State) : State := { s with symOut := s.symOut ++ [v] }

/-- The `op` an accepted word gives the Core: its command, or ILLEGAL (40_host_access.md R123, 30_encoding.md R92). -/
def opOfWord (w : Word) : Op :=
  match decode w with
  | .ok i => .run i
  | .error _ => .illegal

/-- Acceptance of the command word `w` (40_host_access.md R123). The command does nothing yet: its first step is the
Core's next one (R128). -/
def acceptCommand (w : Word) (s : State) : State :=
  { clearFlags s with cmdLast := w, lastOp := w.extractLsb 3 0, op := opOfWord w, started := false }

/-- Reset of the block, hardware reset and soft reset alike (70_reset_and_hazards.md R270, R271): every piece of the
block's state takes its reset value. The agents around the block keep their scripts and what they have received, and the
counter of draws keeps its value. -/
def resetBlock (s : State) : State :=
  { State.reset with
    sched := s.sched, hostProg := s.hostProg, hostReads := s.hostReads, bitSrc := s.bitSrc, cbSrc := s.cbSrc,
    symGot := s.symGot, cbGot := s.cbGot, draws := s.draws }

end Sys2Proof.Machine
end

