-- ==== Sys2Proof/Machine/Control.lean ====
section
/-! DEFINITION. The commands that belong to no unit: NOP and ILLEGAL (spec 40_host_access.md R129, R130). -/

namespace Sys2Proof.Machine

/-- NOP (R129): one Core step, `finish()`. -/
def execNop (s : State) : Result := .next (finish s)

/-- ILLEGAL (R130): one Core step, `raise Err(ILLEGAL_COMMAND, 0)`. It has no row in the opcode table and so no arm in
`exec`; the Core runs it when `op` is ILLEGAL (R128). -/
def execIllegal (s : State) : Result := .next (raiseErr .illegalCommand .none s)

end Sys2Proof.Machine
end

