-- ==== Sys2Proof/Machine/Decoder.lean ====
section
/-! DEFINITION. huffman_decoder: LOAD, DECODE, CLEAR_TREE and FLUSH (spec 42_decoder.md). -/

namespace Sys2Proof.Machine

/-! ### LOAD -/

/-- LOAD's start step (R190): the old tree is discarded at once, and the parser starts on line 1. LEAVES, NODES and WEIGHT
keep their values until LOAD ends. -/
def loadStart (s : State) : State :=
  { s with tree := .absent, ld := LoadState.init, started := true }

/-- `load_fail(); raise Err(code, detail)` (R199). -/
def loadFail (e : ErrCode) (d : ErrDetail) (s : State) : State :=
  raiseErr e d { dropTree s with cbPairs := BitVec.ofNat 16 s.ld.pairs, cbLine := s.ld.line }

/-- `fail(d)` (R191): MALFORMED_CODEBOOK with the detail `d`. -/
def loadMalformed (d : ErrDetail) (s : State) : State := loadFail .malformedCodebook d s

/-- `succeed()` (R198). -/
def loadSucceed (s : State) : State :=
  finish { installTree s.ld.T s.ld.pairs s.ld.nodes 0 s with
           cbPairs := BitVec.ofNat 16 s.ld.pairs, cbLine := 0#32 }

/-- `sym_step(x)`: LOAD's step on a symbol line (R191). -/
def symStep (x : CbXfer) (s : State) : State :=
  match x with
  | .endOfStream =>
    if s.ld.hasDigit then loadMalformed .incompletePair s
    else if s.ld.pairs = 0 then loadMalformed .emptyCodebook s
    else loadSucceed s
  | .byte c =>
    if 0x30#8 ≤ c ∧ c ≤ 0x39#8 then
      let v := s.ld.acc.toNat * 10 + (c.toNat - 0x30)
      if v < Config.nsym then { s with ld := { s.ld with acc := BitVec.ofNat 8 v, hasDigit := true } }
      else loadMalformed .symbolRange s
    else if c = byteLF then
      if s.ld.hasDigit then { s with ld := { s.ld with phase := .code, code := [], line := s.ld.line + 1#32 } }
      else loadMalformed .emptySymbol s
    else loadMalformed .badSymbolChar s

/-- Why an insertion fails (R194). -/
inductive InsertError where
  | prefixConflict
  | capacity
  deriving DecidableEq, Repr

/-- `alloc()`: one more node, or CAPACITY (R194, R196). -/
def alloc (nodes : Nat) : Except InsertError Nat :=
  if nodes + 1 > Config.nodeCap then .error .capacity else .ok (nodes + 1)

/-- `insert(s, code)` (R194), walking down from a slot with the bits still to follow: the slot gets a placeholder when it
is absent and the walk goes on below it, and the leaf when it is absent and the bits are used up. A leaf met on the way,
or anything in the last slot, is a prefix conflict (R195). At one position the conflict comes before the capacity check
(60_exceptions.md R246). The answer is the slot after the insertion and the number of nodes. -/
def insertCode (sym : Sym) : List Bit → TreeSlot → Nat → Except InsertError (TreeSlot × Nat)
  | [], .absent, n =>
    match alloc n with
    | .ok n' => .ok (.leaf sym, n')
    | .error e => .error e
  | [], .leaf _, _ => .error .prefixConflict
  | [], .node _ _, _ => .error .prefixConflict
  | _ :: _, .leaf _, _ => .error .prefixConflict
  | b :: bs, .absent, n =>
    match alloc n with
    | .error e => .error e
    | .ok n' =>
      match insertCode sym bs .absent n' with
      | .error e => .error e
      | .ok (u, n'') => .ok (if b then .node .absent u else .node u .absent, n'')
  | false :: bs, .node l r, n =>
    match insertCode sym bs l n with
    | .error e => .error e
    | .ok (u, n') => .ok (.node u r, n')
  | true :: bs, .node l r, n =>
    match insertCode sym bs r n with
    | .error e => .error e
    | .ok (u, n') => .ok (.node l u, n')

/-- The LF that ends a nonempty code line (R192): insert the pair, warn about a symbol seen before (R197), go on with the
next symbol line. -/
def loadPair (s : State) : State :=
  match insertCode s.ld.acc s.ld.code s.ld.T s.ld.nodes with
  | .error .prefixConflict => loadMalformed .prefixConflict s
  | .error .capacity => loadFail .capacity .none s
  | .ok (t, n) =>
    { s with
      wDupsym := s.wDupsym || s.ld.seen.contains s.ld.acc
      ld := { s.ld with
        T := t, nodes := n
        seen := if s.ld.seen.contains s.ld.acc then s.ld.seen else s.ld.acc :: s.ld.seen
        pairs := s.ld.pairs + 1, line := s.ld.line + 1#32
        phase := .sym, acc := 0#8, hasDigit := false } }

/-- `code_step(x)`: LOAD's step on a code line (R192). -/
def codeStep (x : CbXfer) (s : State) : State :=
  match x with
  | .endOfStream => loadMalformed .incompletePair s
  | .byte c =>
    if c = 0x30#8 ∨ c = 0x31#8 then
      if s.ld.code.length = Config.maxCodeLen then loadMalformed .codeTooLong s
      else { s with ld := { s.ld with code := s.ld.code ++ [c == 0x31#8] } }
    else if c = byteLF then
      if s.ld.code = [] then loadMalformed .emptyCode s else loadPair s
    else loadMalformed .badCodeChar s

/-- LOAD's step on the popped transfer `x` (R190). -/
def loadTransfer (x : CbXfer) (s : State) : State :=
  match s.ld.phase with
  | .sym => symStep x s
  | .code => codeStep x s

/-- LOAD (R190): a start step, then one transfer a step; an empty cb_in holds the Core. -/
def execLoad (s : State) : Result :=
  if s.started then
    match s.cbIn with
    | [] => .next s
    | x :: rest => .next (loadTransfer x { s with cbIn := rest })
  else .next (loadStart s)

/-! ### DECODE -/

/-- DECODE's start step (R211). -/
def decodeStart (s : State) : State :=
  let s := { s with decBits := 0#32, decSyms := 0#32, decDepth := 0#8 }
  if s.tree = .absent then raiseErr .noTree .none s
  else { s with cur := [], started := true }

/-- `emit(v)` (R213). -/
def emitSym (v : Sym) (s : State) : State :=
  { pushSym v s with decSyms := s.decSyms + 1#32, cur := [] }

/-- `decode_end()` (R214). -/
def decodeEnd (s : State) : State :=
  finish { s with decDepth := BitVec.ofNat 8 s.cur.length, wTrail := s.wTrail || s.cur != [] }

/-- DECODE's step on the popped bit `b` (R212, R215). -/
def decodeBit (b : Bit) (s : State) : State :=
  let s := { s with decBits := s.decBits + 1#32 }
  match s.tree.subtree (s.cur ++ [b]) with
  | .absent => raiseErr .corruptTree .none { s with decDepth := BitVec.ofNat 8 s.cur.length }
  | .leaf v => emitSym v s
  | .node _ _ => { s with cur := s.cur ++ [b] }

/-- DECODE's step on the popped transfer `x` (R212). -/
def decodeTransfer (x : BitXfer) (s : State) : State :=
  match x with
  | .endOfStream => decodeEnd s
  | .bit b => decodeBit b s

/-- DECODE (R210): a start step, then one transfer a step; an empty bit_in or a full sym_out holds the Core (R212). -/
def execDecode (s : State) : Result :=
  if s.started then
    match s.bitIn with
    | [] => .next s
    | x :: rest =>
      if s.symOut.length < Config.outDepth then .next (decodeTransfer x { s with bitIn := rest }) else .next s
  else .next (decodeStart s)

/-! ### CLEAR_TREE and FLUSH -/

/-- CLEAR_TREE (R220), one Core step. -/
def execClearTree (s : State) : Result := .next (finish (dropTree s))

/-- FLUSH (R221), one Core step: the entries now in the two input FIFOs are removed. -/
def execFlush (s : State) : Result := .next (finish { s with bitIn := [], cbIn := [] })

end Sys2Proof.Machine
end

