-- ==== Sys2Proof/Machine/TreeBuilder.lean ====
section
/-! DEFINITION. huffman_tree_builder: BUILD, SAVE and CLEAR_FREQ (spec 41_tree_builder.md). -/

namespace Sys2Proof.Machine

/-! ### BUILD -/

/-- An entry of BUILD's queue (41_tree_builder.md R150). The weight is exact, so it is a Nat here; it never reaches 2^40
(00_scope.md R7, R15). -/
structure QEntry where
  w   : Nat
  seq : Nat
  t   : TreeSlot
  deriving DecidableEq, Repr

/-- The min-priority order: lexicographic on (w, seq) (R151). -/
def QEntry.before (x y : QEntry) : Bool := x.w < y.w || (x.w == y.w && x.seq < y.seq)

/-- The minimum of the queue `q :: qs` under the order of R151, and the queue without it. -/
def extractMin : QEntry → List QEntry → QEntry × List QEntry
  | q, [] => (q, [])
  | q, r :: rs =>
    let (m, rest) := extractMin r rs
    if q.before m then (q, r :: rs) else (m, q :: rest)

/-- One merge: the first-removed entry becomes the left child, the second-removed the right one (R150, R152). A queue of
fewer than two entries stays. -/
def mergeOnce (next : Nat) : List QEntry → List QEntry
  | q :: r :: rs =>
    let (a, rest) := extractMin q (r :: rs)
    match rest with
    | [] => [a]
    | c :: cs =>
      let (b, rest') := extractMin c cs
      rest' ++ [{ w := a.w + b.w, seq := next, t := .node a.t b.t }]
  | qs => qs

/-- The merge loop (R150): each round takes two entries and adds one, so as many rounds as there are entries are enough. -/
def mergeLoop : Nat → Nat → List QEntry → List QEntry
  | 0, _, qs => qs
  | k + 1, next, qs => if 2 ≤ qs.length then mergeLoop k (next + 1) (mergeOnce next qs) else qs

/-- The leaves of the queue: seq = k for the k-th present symbol, ascending (R150, R151). -/
def leafQueue (m : Memory) : List QEntry :=
  m.present.zipIdx.map (fun (s, k) =>
    { w := (Memory.read m s).toNat, seq := k, t := .leaf (BitVec.ofNat 8 s) })

/-- The last entry of the merge loop: the root and its weight, or `none` when no symbol is present (R150, R153). -/
def buildRoot (m : Memory) : Option QEntry :=
  let q := leafQueue m
  (mergeLoop q.length q.length q).head?

/-- BUILD (R150), one Core step: a function of FREQ alone (R158). -/
def execBuild (s : State) : Result :=
  match buildRoot s.freq with
  | none => .next (raiseErr .noSymbols .none (dropTree s))
  | some r =>
    let n := s.freq.present.length
    .next (finish (installTree r.t n (2 * n - 1) r.w s))

/-! ### SAVE -/

/-- SAVE's start step (R160): NO_TREE, or the text to push. -/
def saveStart (s : State) : State :=
  if s.tree = .absent then raiseErr .noTree .none s
  else { s with out := saveBytes s.tree, started := true }

/-- SAVE's step that pushes `x`, with `rest` still to push (R160): the push of END ends the command. -/
def saveTransfer (x : CbXfer) (rest : List CbXfer) (s : State) : State :=
  let s := pushCb x { s with out := rest }
  if x = .endOfStream then finish { s with cbPairs := BitVec.ofNat 16 s.tree.leafCount } else s

/-- SAVE (R160): a start step, then one transfer a step while cb_out has room; a full cb_out holds the Core (R162). -/
def execSave (s : State) : Result :=
  if s.started then
    if s.cbOut.length < Config.outDepth then
      match s.out with
      | [] => .fault .saveOutEmpty
      | x :: rest => .next (saveTransfer x rest s)
    else .next s
  else .next (saveStart s)

/-! ### CLEAR_FREQ -/

/-- CLEAR_FREQ (R170), one Core step: every count becomes 0, so no cell is left. -/
def execClearFreq (s : State) : Result := .next (finish { s with freq := [] })

end Sys2Proof.Machine
end

