-- ==== Sys2Proof/Machine/Dispatch.lean ====
section
/-! DEFINITION. One arm per command: one Core step of the running command (spec 40_host_access.md R128). -/

namespace Sys2Proof.Machine

def exec (i : Instr) (s : State) : Host.Outcome State Fault Refusal :=
  match i with
  | .nop => Sys2Proof.Machine.execNop s
  | .build => Sys2Proof.Machine.execBuild s
  | .save => Sys2Proof.Machine.execSave s
  | .load => Sys2Proof.Machine.execLoad s
  | .decode => Sys2Proof.Machine.execDecode s
  | .clearTree => Sys2Proof.Machine.execClearTree s
  | .clearFreq => Sys2Proof.Machine.execClearFreq s
  | .flush => Sys2Proof.Machine.execFlush s

end Sys2Proof.Machine
end

