-- ==== Sys2Proof/Machine/HostAccess.lean ====
section
/-! DEFINITION. The Host agent: register reads and writes on the window (spec 40_host_access.md R120-R127), and the host
program (30_encoding.md R104, R105). -/

namespace Sys2Proof.Machine

/-! ### Address decoding -/

/-- The register at a word index below 0x034 / 4 (10_state.md R21). -/
def regOfIndex (k : Nat) : Target :=
  match k with
  | 0x0 => .reg .PARAMS
  | 0x1 => .reg .CTRL
  | 0x2 => .reg .CMD
  | 0x3 => .reg .STATUS
  | 0x4 => .reg .LEAVES
  | 0x5 => .reg .NODES
  | 0x6 => .reg .WEIGHT_LO
  | 0x7 => .reg .WEIGHT_HI
  | 0x8 => .reg .DEC_BITS
  | 0x9 => .reg .DEC_SYMS
  | 0xA => .reg .DEC_DEPTH
  | 0xB => .reg .CB_PAIRS
  | 0xC => .reg .CB_LINE
  | _   => .reserved

/-- The byte offset of a register (10_state.md R21). -/
def offsetOf : RegName → Nat
  | .PARAMS => 0x000
  | .CTRL => 0x004
  | .CMD => 0x008
  | .STATUS => 0x00C
  | .LEAVES => 0x010
  | .NODES => 0x014
  | .WEIGHT_LO => 0x018
  | .WEIGHT_HI => 0x01C
  | .DEC_BITS => 0x020
  | .DEC_SYMS => 0x024
  | .DEC_DEPTH => 0x028
  | .CB_PAIRS => 0x02C
  | .CB_LINE => 0x030

/-- What an offset selects (20_memory.md R61, R63). -/
def selectOffset (off : Nat) : Except Refusal Target :=
  if off % 4 ≠ 0 then .error .misaligned
  else if off ≤ 0x3FC then .ok (regOfIndex (off / 4))
  else if off < Config.windowSize then .ok (.freq ((off - 0x400) / 4))
  else .error .outsideWindow

/-- What a host access of a size at a bus address selects: offsets are relative to HUFF_BASE (20_memory.md R62, R68). -/
def selectAccess (size : AccessSize) (addr : Nat) : Except Refusal Target :=
  if size ≠ .word then .error .notWholeWord
  else if addr < Config.huffBase then .error .outsideWindow
  else selectOffset (addr - Config.huffBase)

/-! ### Reads -/

/-- A result register's value while the Core is idle (10_state.md R28-R35); the other four registers read the same at all
times (40_host_access.md R120). Unused high bits read 0. -/
def State.regValue (s : State) : RegName → Word
  | .PARAMS => Config.params
  | .CTRL => s.ctrlWord
  | .CMD => s.cmdLast
  | .STATUS => s.statusWord
  | .LEAVES => s.leaves.setWidth 32
  | .NODES => s.nodes.setWidth 32
  | .WEIGHT_LO => s.weight.extractLsb' 0 32
  | .WEIGHT_HI => (s.weight.extractLsb' 32 8).setWidth 32
  | .DEC_BITS => s.decBits
  | .DEC_SYMS => s.decSyms
  | .DEC_DEPTH => s.decDepth.setWidth 32
  | .CB_PAIRS => s.cbPairs.setWidth 32
  | .CB_LINE => s.cbLine

/-- The result registers (10_state.md R21): the nine that read as any value while BUSY = 1. -/
def isResult : RegName → Bool
  | .PARAMS | .CTRL | .CMD | .STATUS => false
  | .LEAVES | .NODES | .WEIGHT_LO | .WEIGHT_HI | .DEC_BITS | .DEC_SYMS | .DEC_DEPTH | .CB_PAIRS | .CB_LINE => true

/-- The value a host read returns and the state after it (40_host_access.md R120). A read changes no state of the block
(20_memory.md R67); a draw uses up the model's counter. -/
def readTarget (t : Target) (s : State) : Word × State :=
  match t with
  | .reg r =>
    if isResult r && s.busy then (Config.freeRead s.draws, { s with draws := s.draws + 1 }) else (s.regValue r, s)
  | .reserved => (0#32, s)
  | .freq k => (Memory.read s.freq k, s)

/-! ### Writes -/

/-- `ctrl_write(v)` (R122): SRST resets the block and IRQ_EN is then ignored. -/
def ctrlWrite (v : Word) (s : State) : State :=
  if v.getLsbD 0 then resetBlock s else { s with irqEn := v.getLsbD 1 }

/-- `cmd_write(w)` (R123, R124). -/
def cmdWrite (w : Word) (s : State) : State :=
  if s.busy then setOvr s else acceptCommand w s

/-- `freq_write(off, v)`, with `k` the symbol the offset selects (R125). -/
def freqWrite (k : Nat) (v : Word) (s : State) : State :=
  if s.busy then setOvr s else { s with freq := Memory.write s.freq k v }

/-- The state after a host write (R121): a write to a read-only register or a reserved offset has no effect (R127). -/
def writeTarget (t : Target) (v : Word) (s : State) : State :=
  match t with
  | .reg .CTRL => ctrlWrite v s
  | .reg .CMD => cmdWrite v s
  | .reg .STATUS => statusWrite v s
  | .reg .PARAMS | .reg .LEAVES | .reg .NODES | .reg .WEIGHT_LO | .reg .WEIGHT_HI
  | .reg .DEC_BITS | .reg .DEC_SYMS | .reg .DEC_DEPTH | .reg .CB_PAIRS | .reg .CB_LINE => s
  | .reserved => s
  | .freq k => freqWrite k v s

/-! ### The host program -/

/-- The Host's next step: its next operation (R104). `wait` reads STATUS and stays until it has read BUSY = 0 (R105);
`waitIrq` stays until irq is 1 (20_memory.md R78). A value read goes to `hostReads`. With no operation left the Host has
no step. -/
def hostStep (s : State) : Result :=
  match s.hostProg with
  | [] => .next s
  | .read size addr :: rest =>
    match selectAccess size addr with
    | .error r => .refused r
    | .ok t =>
      let (v, s') := readTarget t s
      .next { s' with hostProg := rest, hostReads := s.hostReads ++ [v] }
  | .write size addr v :: rest =>
    match selectAccess size addr with
    | .error r => .refused r
    | .ok t => .next { writeTarget t v s with hostProg := rest }
  | .wait :: rest =>
    .next { s with hostProg := if s.busy then s.hostProg else rest, hostReads := s.hostReads ++ [s.statusWord] }
  | .waitIrq :: rest => .next (if s.irq then { s with hostProg := rest } else s)

/-! ### Notation of host programs (R104, R105) -/

/-- `rd <off>`. -/
def rd (off : Nat) : HostOp := .read .word (Config.huffBase + off)

/-- `wr <off>, <v>`. -/
def wr (off : Nat) (v : Word) : HostOp := .write .word (Config.huffBase + off) v

/-- `cmd <MNEMONIC>` is `wr CMD, <word>`. -/
def hostCmd (i : Instr) : HostOp := wr (offsetOf .CMD) (encode i)

/-- `freq <s>, <v>` is `wr 0x400+4*s, v`. -/
def hostFreq (k : Nat) (v : Word) : HostOp := wr (0x400 + 4 * k) v

/-- `ack` is `wr STATUS, 0x22`. -/
def hostAck : HostOp := wr (offsetOf .STATUS) 0x22#32

/-- `srst` is `wr CTRL, 0x1`. -/
def hostSrst : HostOp := wr (offsetOf .CTRL) 0x1#32

/-- `src.bit <b>`: the wire word of one bit, 0b0b (R104). -/
def srcBit (b : Bit) : List (BitVec 2) := [encodeBitXfer (.bit b)]

/-- `src.bit END`: the wire word 0b10 (R104). -/
def srcBitEnd : List (BitVec 2) := [encodeBitXfer .endOfStream]

/-- `src.bits "<0/1 string>"`: one `src.bit` per character, in order, and no END (R105). -/
def srcBits (p : List Bit) : List (BitVec 2) := p.flatMap srcBit

/-- `src.cb "<text>"`: the wire word of each byte of the text, in order, and no END (R104). -/
def srcText (cs : List Byte) : List (BitVec 9) := cs.map (fun c => encodeCbXfer (.byte c))

/-- `src.cb END`: the wire word 0x100 (R104). -/
def srcTextEnd : List (BitVec 9) := [encodeCbXfer .endOfStream]

end Sys2Proof.Machine
end

