-- ==== Sys2Proof/Machine/Streams.lean ====
section
/-! DEFINITION. The four stream agents (spec 20_memory.md R70-R73). A push into a full FIFO and a pop from an empty one
have no step: the agent waits (10_state.md R43), and its turn changes nothing. -/

namespace Sys2Proof.Machine

/-- A BitSource step: push the next word's transfer into bit_in while there is room (R70). -/
def bitSourceStep (s : State) : State :=
  match s.bitSrc with
  | [] => s
  | w :: rest =>
    if s.bitIn.length < Config.inDepth then { s with bitIn := s.bitIn ++ [decodeBitXfer w], bitSrc := rest } else s

/-- A CbSource step: push the next word's transfer into cb_in while there is room (R71). -/
def cbSourceStep (s : State) : State :=
  match s.cbSrc with
  | [] => s
  | w :: rest =>
    if s.cbIn.length < Config.inDepth then { s with cbIn := s.cbIn ++ [decodeCbXfer w], cbSrc := rest } else s

/-- A SymSink step: pop sym_out (R72). -/
def symSinkStep (s : State) : State :=
  match s.symOut with
  | [] => s
  | v :: rest => { s with symOut := rest, symGot := s.symGot ++ [encodeSym v] }

/-- A CbSink step: pop cb_out (R73). -/
def cbSinkStep (s : State) : State :=
  match s.cbOut with
  | [] => s
  | x :: rest => { s with cbOut := rest, cbGot := s.cbGot ++ [encodeCbXfer x] }

end Sys2Proof.Machine
end

