-- ==== Sys2Proof/Machine/Sequencer.lean ====
section
/-! DEFINITION. Which agent moves, and its move (spec 00_scope.md R8, 20_memory.md R74, 40_host_access.md R128). -/

namespace Sys2Proof.Machine

/-- One Core step: the rule of its `op` (R128). With `op` IDLE the Core has no step. -/
def coreStep (s : State) : Result :=
  match s.op with
  | .idle => .next s
  | .run i => exec i s
  | .illegal => execIllegal s

/-- One agent's turn. -/
def agentStep (a : Agent) (s : State) : Result :=
  match a with
  | .host => hostStep s
  | .core => coreStep s
  | .bitSource => .next (bitSourceStep s)
  | .cbSource => .next (cbSourceStep s)
  | .symSink => .next (symSinkStep s)
  | .cbSink => .next (cbSinkStep s)

/-- The Core has a step: a command runs, and the FIFO condition of its next step holds (R128, R160, R190, R212). -/
def coreReady (s : State) : Bool :=
  match s.op with
  | .idle => false
  | .illegal => true
  | .run .nop | .run .build | .run .clearTree | .run .clearFreq | .run .flush => true
  | .run .save => !s.started || s.cbOut.length < Config.outDepth
  | .run .load => !s.started || !s.cbIn.isEmpty
  | .run .decode => !s.started || (!s.bitIn.isEmpty && s.symOut.length < Config.outDepth)

/-- The Host has a step that gets on: an operation other than a wait that would go on waiting. -/
def hostReady (s : State) : Bool :=
  match s.hostProg with
  | [] => false
  | .wait :: _ => !s.busy
  | .waitIrq :: _ => s.irq
  | .read _ _ :: _ | .write _ _ _ :: _ => true

/-- Who moves when the schedule is used up. DESIGN CHOICE (log entry 4): the first agent that has a step, in the order
Core, sinks, Host, sources; the Core, whose turn then changes nothing, when no agent has one. -/
def defaultAgent (s : State) : Agent :=
  if coreReady s then .core
  else if !s.symOut.isEmpty then .symSink
  else if !s.cbOut.isEmpty then .cbSink
  else if hostReady s then .host
  else if !s.cbSrc.isEmpty && s.cbIn.length < Config.inDepth then .cbSource
  else if !s.bitSrc.isEmpty && s.bitIn.length < Config.inDepth then .bitSource
  else .core

/-- One step of the machine: the next slot of the schedule is used up and its agent takes its turn, or the platform resets
the block (70_reset_and_hazards.md R270). -/
def scheduledStep (s : State) : Result :=
  match s.sched with
  | [] => agentStep (defaultAgent s) s
  | .agent a :: rest => agentStep a { s with sched := rest }
  | .hardReset :: rest => .next (resetBlock { s with sched := rest })

/-- The state in which the command word `w` has just been accepted and the Core moves next. -/
def placeCommand (w : Word) (s : State) : State :=
  { acceptCommand w s with sched := .agent .core :: s.sched }

end Sys2Proof.Machine
end

