-- ==== Sys2Proof/Machine/Step.lean ====
section
/-! DEFINITION. One step of the machine, and the state that runs a given command word next. -/

namespace Sys2Proof.Machine

/-- One step (spec 20_memory.md R74: one atomic step of one agent at a time). -/
def step (s : State) : Host.Outcome State Fault Refusal := scheduledStep s

/-- `s` with the command word `w` accepted (40_host_access.md R123) and the Core's turn next, so that the next step is the
first Core step of that command. The block has no program counter and fetches nothing (10_state.md R40): a program comes
to run by the host's CMD writes (log entry 5). -/
def State.withFetchWord (s : State) (nbits w : Nat) : State :=
  placeCommand (BitVec.ofNat 32 (w % 2 ^ nbits)) s

end Sys2Proof.Machine
end

