-- ==== Sys2Proof/Safety.lean ====
section
/-! DEFINITION. The terms the claims use: runs under a schedule, the shape and the codes of trees, the greedy merge as a
relation, and the invariant of the machine. -/

namespace Sys2Proof.Machine

/-! ### Runs -/

/-- The run of the machine under a list of slots: one step for each slot (spec 20_memory.md R74). -/
def runUnder : List Slot → State → Result
  | [], s => .next s
  | x :: xs, s =>
    match step { s with sched := [x] } with
    | .next s' => runUnder xs s'
    | .fault r => .fault r
    | .refused r => .refused r

/-- `k` rounds in which each of the agents `as` has one turn. -/
def rounds (as : List Agent) : Nat → List Slot
  | 0 => []
  | k + 1 => as.map Slot.agent ++ rounds as k

/-! ### Trees -/

/-- Every internal node has two children (41_tree_builder.md R156). -/
def TreeSlot.full : TreeSlot → Prop
  | .absent => True
  | .leaf _ => True
  | .node l r => l ≠ .absent ∧ r ≠ .absent ∧ l.full ∧ r.full

/-- Every internal node has at least one child (42_decoder.md R200). -/
def TreeSlot.proper : TreeSlot → Prop
  | .absent => True
  | .leaf _ => True
  | .node l r => ¬ (l = .absent ∧ r = .absent) ∧ l.proper ∧ r.proper

/-- The length of the longest path in the tree. -/
def TreeSlot.depth : TreeSlot → Nat
  | .absent => 0
  | .leaf _ => 0
  | .node l r => 1 + max l.depth r.depth

/-- The codebook of a tree: every leaf's symbol with its path, left to right (00_scope.md R12). -/
def TreeSlot.codes : TreeSlot → List (Sym × List Bit)
  | .absent => []
  | .leaf s => [(s, [])]
  | .node l r => l.codes.map (fun c => (c.1, false :: c.2)) ++ r.codes.map (fun c => (c.1, true :: c.2))

/-- The count of a symbol as a number. -/
def freqOf (m : Memory) (s : Nat) : Nat := (Memory.read m s).toNat

/-- The weight of a tree: the sum of the counts of its leaves (00_scope.md R14). -/
def TreeSlot.weightIn (m : Memory) (t : TreeSlot) : Nat := (t.codes.map (fun c => freqOf m c.1.toNat)).sum

/-- The total weighted code length of a tree (41_tree_builder.md R157). -/
def TreeSlot.costIn (m : Memory) (t : TreeSlot) : Nat :=
  (t.codes.map (fun c => freqOf m c.1.toNat * c.2.length)).sum

/-- The codebook text of a list of pairs (30_encoding.md R100), with no leading zeros. -/
def pairsOf (ps : List (Sym × List Bit)) : List Byte :=
  ps.flatMap (fun p => decText p.1 ++ [byteLF] ++ p.2.map bitChar ++ [byteLF])

/-- Greedy merge as a relation (41_tree_builder.md R150-R152): while two entries are left, the first and the second of the
queue under the order of R151 (less weight first, and of equal weights the smaller sequence number) are replaced by their
merge, the first-removed being the left child. -/
inductive GreedyMerge : Nat → List QEntry → QEntry → Prop where
  | done (next : Nat) (r : QEntry) : GreedyMerge next [r] r
  | merge (next : Nat) (q rest : List QEntry) (a b r : QEntry)
      (split : q.Perm (a :: b :: rest))
      (first : ∀ x ∈ b :: rest, a.w < x.w ∨ (a.w = x.w ∧ a.seq < x.seq))
      (second : ∀ x ∈ rest, b.w < x.w ∨ (b.w = x.w ∧ b.seq < x.seq))
      (go : GreedyMerge (next + 1) ({ w := a.w + b.w, seq := next, t := .node a.t b.t } :: rest) r) :
      GreedyMerge next q r

/-! ### The invariant -/

/-- What holds of `ld` while LOAD runs (10_state.md R42). -/
structure LoadState.Inv (ld : LoadState) : Prop where
  code_length  : ld.code.length ≤ Config.maxCodeLen
  digit_read   : ld.phase = .code → ld.hasDigit = true
  size_nodes   : ld.T.size = ld.nodes
  nodes_cap    : ld.nodes ≤ Config.nodeCap
  leaves_pairs : ld.T.leafCount = ld.pairs
  no_pairs     : ld.pairs = 0 → ld.T = .absent
  root_node    : ∀ v, ld.T ≠ .leaf v
  T_depth      : ld.T.depth ≤ Config.maxCodeLen
  T_proper     : ld.T.proper
  seen_nodup   : ld.seen.Nodup
  seen_leaves  : ∀ v, v ∈ ld.seen ↔ v ∈ ld.T.codes.map Prod.fst
  line_number  : ld.line.toNat = 2 * ld.pairs + (if ld.phase = .sym then 1 else 2)

/-- What holds in every state the machine can be in. -/
structure State.Inv (s : State) : Prop where
  /-- The frequency table is in canonical form. -/
  freq_wf      : Memory.wf s.freq
  /-- 10_state.md R38: the tree store never holds more than NODE_CAP nodes. -/
  tree_size    : s.tree.size ≤ Config.nodeCap
  /-- 00_scope.md R7, 42_decoder.md R200: no code is longer than MAX_CODE_LEN. -/
  tree_depth   : s.tree.depth ≤ Config.maxCodeLen
  /-- 90_conflicts.md C3: no internal node in TREE has no child. -/
  tree_proper  : s.tree.proper
  /-- 10_state.md R28, R29, but while LOAD builds the next tree. -/
  tree_results : ¬ (s.op = .run .load ∧ s.started = true) →
                   s.leaves.toNat = s.tree.leafCount ∧ s.nodes.toNat = s.tree.size
  /-- 10_state.md R41: BUSY = 1 implies DONE = 0. -/
  busy_done    : s.op ≠ .idle → s.done = false
  /-- 40_host_access.md R123: no error is recorded while a command runs. -/
  busy_err     : s.op ≠ .idle → s.err = .none
  /-- 10_state.md R27. -/
  detail_err   : s.errDetail ≠ .none ↔ s.err = .malformedCodebook
  /-- 10_state.md R25: LAST_OP is bits [3:0] of the last accepted word. -/
  last_op      : s.lastOp = s.cmdLast.extractLsb 3 0
  /-- 40_host_access.md R123: the running operation is the one the accepted word names. -/
  op_word      : s.op = .idle ∨ s.op = opOfWord s.cmdLast
  /-- Only SAVE, LOAD and DECODE take more than one step. -/
  started_op   : s.started = true → s.op = .run .save ∨ s.op = .run .load ∨ s.op = .run .decode
  /-- 10_state.md R43: the FIFOs are bounded. -/
  bitIn_depth  : s.bitIn.length ≤ Config.inDepth
  cbIn_depth   : s.cbIn.length ≤ Config.inDepth
  symOut_depth : s.symOut.length ≤ Config.outDepth
  cbOut_depth  : s.cbOut.length ≤ Config.outDepth
  /-- 41_tree_builder.md R160: what SAVE still has to push is a nonempty end of the text of TREE. -/
  save_out     : s.op = .run .save → s.started = true →
                   s.tree ≠ .absent ∧ s.out ≠ [] ∧ s.out <:+ saveBytes s.tree
  /-- 42_decoder.md R190: while LOAD runs there is no tree. -/
  load_ld      : s.op = .run .load → s.started = true → s.tree = .absent ∧ s.ld.Inv
  /-- 42_decoder.md R211, R212: the cursor is the root or the path of an internal node. -/
  decode_cur   : s.op = .run .decode → s.started = true →
                   s.tree ≠ .absent ∧ (s.cur = [] ∨ ∃ l r, s.tree.subtree s.cur = .node l r)

end Sys2Proof.Machine
end

