-- ==== Sys2Proof/WellFormed.lean ====
section
/-! DEFINITION. What the spec calls well formed: a legal command word (spec 30_encoding.md R92), and a host access the
block decodes (20_memory.md R61-R63). A command has no operand, so every `Instr` is well formed (R90, R93). -/

namespace Sys2Proof

/-- Every command is well formed: it has no operand that could be out of range (R90). -/
def Instr.wf : Instr → Bool
  | .nop | .build | .save | .load | .decode | .clearTree | .clearFreq | .flush => true

/-- A command word is legal iff RSVD is 0 and OPCODE is at most 0x7 (R92). -/
def legalWord (w : Word) : Bool :=
  w.extractLsb 31 4 == 0#28 && w.extractLsb 3 0 ≤ 7#4

/-- An offset the block decodes: 4-aligned and inside WINDOW (R61, R63). -/
def legalOffset (off : Nat) : Bool :=
  off % 4 == 0 && off < Config.windowSize

end Sys2Proof
end

