-- ==== Sys2Proof/Certificates/Slice0/Obligations.lean ====
section
/-! DEFINITION. The statements for the provers. Each docstring names the rule of spec/ it formalises; a clause that is the
model's own choice says so and names the log entry. -/

open Sys2Proof Sys2Proof.Machine

/-! ### Encodings -/

/-- spec 30_encoding.md R91: the eight command words, and the reserved opcodes 0x8-0xF. -/
def Obligations.CommandWordsDecode : Prop :=
  decode 0x00000000#32 = .ok .nop ∧ decode 0x00000001#32 = .ok .build ∧ decode 0x00000002#32 = .ok .save ∧
  decode 0x00000003#32 = .ok .load ∧ decode 0x00000004#32 = .ok .decode ∧ decode 0x00000005#32 = .ok .clearTree ∧
  decode 0x00000006#32 = .ok .clearFreq ∧ decode 0x00000007#32 = .ok .flush ∧
  decode 0x00000008#32 = .error .reservedOpcode ∧ decode 0x0000000F#32 = .error .reservedOpcode ∧
  decode 0x00000011#32 = .error .rsvdNonzero ∧ decode 0x80000001#32 = .error .rsvdNonzero

/-- spec 30_encoding.md R92: which words are legal; each legal word is the word of exactly one command, and an accepted
illegal word ends in the Core's next step with ERR = ILLEGAL_COMMAND and changes nothing else. -/
def Obligations.DecodeAcceptsExactlyLegalWords : Prop :=
  (∀ w : Word, (∃ i, decode w = .ok i) ↔ (w.extractLsb 31 4 = 0#28 ∧ w.extractLsb 3 0 ≤ 7#4)) ∧
  (∀ (w : Word) (i : Instr), decode w = .ok i ↔ w = encode i) ∧
  (∀ w : Word, legalWord w = true ↔ ∃ i, decode w = .ok i) ∧
  (∀ (w : Word) (s : State), (∀ i, w ≠ encode i) →
    coreStep (acceptCommand w s) =
      .next { acceptCommand w s with err := .illegalCommand, errDetail := .none, op := .idle, started := false,
                                     done := true })

/-- spec 30_encoding.md R95, R96: what the words of bit_in and cb_in mean; the model's own words for END are 0b10 and 0x100
(log entry 17), and reading back a written transfer gives it. -/
def Obligations.StreamWordsMeanTransfers : Prop :=
  (∀ w : BitVec 2, w.getLsbD 1 = true → decodeBitXfer w = .endOfStream) ∧
  (∀ w : BitVec 2, w.getLsbD 1 = false → decodeBitXfer w = .bit (w.getLsbD 0)) ∧
  (∀ w : BitVec 9, w.getLsbD 8 = true → decodeCbXfer w = .endOfStream) ∧
  (∀ w : BitVec 9, w.getLsbD 8 = false → decodeCbXfer w = .byte (w.setWidth 8)) ∧
  (∀ x, decodeBitXfer (encodeBitXfer x) = x) ∧ (∀ x, decodeCbXfer (encodeCbXfer x) = x)

/-! ### Reset -/

/-- spec 70_reset_and_hazards.md R270: the state after reset. `regValue` is what a read returns while the Core is idle. -/
def Obligations.ResetLeavesTheStatedState : Prop :=
  State.reset.regValue .PARAMS = 0x81FFFF08#32 ∧
  (∀ r, r ≠ .PARAMS → State.reset.regValue r = 0#32) ∧
  State.reset.irqEn = false ∧ State.reset.cmdLast = 0#32 ∧
  State.reset.busy = false ∧ State.reset.done = false ∧ State.reset.treeValid = false ∧
  State.reset.wTrail = false ∧ State.reset.wDupsym = false ∧ State.reset.ovr = false ∧
  State.reset.err = .none ∧ State.reset.errDetail = .none ∧ State.reset.lastOp = 0#4 ∧
  (∀ k, Memory.read State.reset.freq k = 0#32) ∧
  State.reset.tree = .absent ∧ State.reset.op = .idle ∧
  State.reset.bitIn = [] ∧ State.reset.cbIn = [] ∧ State.reset.symOut = [] ∧ State.reset.cbOut = [] ∧
  State.reset.irq = false

/-- spec 40_host_access.md R122, 70_reset_and_hazards.md R271: a host write of CTRL with bit 0 set puts the block into the
reset state in that one Host step, whatever runs, and leaves alone only what stands outside the block (the agents' scripts,
what they have received, the schedule, and the model's counter of draws: the model's choice, log entries 3, 4, 6, 16; the
values of `started`, `out`, `ld` and `cur`, which the spec calls meaningless, are the model's too: log entry 8); with bit 0
clear it writes IRQ_EN and nothing else. -/
def Obligations.SoftResetHasTheEffectOfReset : Prop :=
  ∀ (s : State) (v : Word) (rest : List HostOp),
    (v.getLsbD 0 = true →
      hostStep { s with hostProg := wr 0x004 v :: rest } =
        .next { State.reset with
          sched := s.sched, hostProg := rest, hostReads := s.hostReads, bitSrc := s.bitSrc, cbSrc := s.cbSrc,
          symGot := s.symGot, cbGot := s.cbGot, draws := s.draws }) ∧
    (v.getLsbD 0 = false →
      hostStep { s with hostProg := wr 0x004 v :: rest } = .next { s with irqEn := v.getLsbD 1, hostProg := rest })

/-- spec 70_reset_and_hazards.md R270: hardware reset. That it comes as a slot of the schedule and what it leaves alone is the
model's choice (log entry 16), and so are the values of the fields the spec calls meaningless (log entry 8). -/
def Obligations.HardwareResetResetsTheBlock : Prop :=
  ∀ (s : State) (r : List Slot), s.sched = .hardReset :: r →
    step s = .next { State.reset with
      sched := r, hostProg := s.hostProg, hostReads := s.hostReads, bitSrc := s.bitSrc, cbSrc := s.cbSrc,
      symGot := s.symGot, cbGot := s.cbGot, draws := s.draws }

/-! ### Host access -/

/-- spec 40_host_access.md R120: what a host read returns, for every offset. A read of a result register while BUSY = 1
returns a free value (log entry 6), a new one for each read. -/
def Obligations.HostReadReturnsTheStatedValue : Prop :=
  ∀ (s : State) (off : Nat) (rest : List HostOp),
    (off < 0x800 → off % 4 = 0 → ∃ v n,
      hostStep { s with hostProg := rd off :: rest } =
        .next { s with hostProg := rest, hostReads := s.hostReads ++ [v], draws := n } ∧
      (off = 0x000 → v = 0x81FFFF08#32 ∧ n = s.draws) ∧
      (off = 0x004 → v = 0#30 ++ BitVec.ofBool s.irqEn ++ 0#1 ∧ n = s.draws) ∧
      (off = 0x008 → v = s.cmdLast ∧ n = s.draws) ∧
      (off = 0x00C → n = s.draws ∧ v = 0#12 ++ s.lastOp ++ errDetailCode s.errDetail ++ errCode s.err ++ 0#2 ++
        BitVec.ofBool s.ovr ++ BitVec.ofBool s.wDupsym ++ BitVec.ofBool s.wTrail ++
        BitVec.ofBool (decide (s.tree ≠ .absent)) ++ BitVec.ofBool s.done ++ BitVec.ofBool (decide (s.op ≠ .idle))) ∧
      (s.op ≠ .idle → 0x010 ≤ off → off ≤ 0x030 → v = Config.freeRead s.draws ∧ n = s.draws + 1) ∧
      (s.op = .idle →
        (off = 0x010 → v = s.leaves.setWidth 32) ∧ (off = 0x014 → v = s.nodes.setWidth 32) ∧
        (off = 0x018 → v = s.weight.setWidth 32) ∧ (off = 0x01C → v = (s.weight >>> 32).setWidth 32) ∧
        (off = 0x020 → v = s.decBits) ∧ (off = 0x024 → v = s.decSyms) ∧ (off = 0x028 → v = s.decDepth.setWidth 32) ∧
        (off = 0x02C → v = s.cbPairs.setWidth 32) ∧ (off = 0x030 → v = s.cbLine) ∧ n = s.draws) ∧
      (0x034 ≤ off → off ≤ 0x3FC → v = 0#32 ∧ n = s.draws) ∧
      (0x400 ≤ off → v = Memory.read s.freq ((off - 0x400) / 4) ∧ n = s.draws)) ∧
    (¬ (off < 0x800 ∧ off % 4 = 0) → ∃ r, hostStep { s with hostProg := rd off :: rest } = .refused r)

/-- spec 20_memory.md R61, R62, R63, R68: a host access, at any bus address and of any size, completes exactly when it is a
whole word at a 4-aligned offset of WINDOW from HUFF_BASE; every other one is refused, reads and writes alike. Which name a
refusal has when two reasons hold is the model's choice (log entry 9) and is left open here. -/
def Obligations.BadHostAccessIsRefused : Prop :=
  ∀ (s : State) (size : AccessSize) (addr : Nat) (v : Word) (rest : List HostOp),
    let good : Prop := size = .word ∧ ∃ off, off % 4 = 0 ∧ off < 0x800 ∧ addr = Config.huffBase + off
    (good →
      (∃ t, hostStep { s with hostProg := .read size addr :: rest } = .next t) ∧
      (∃ t, hostStep { s with hostProg := .write size addr v :: rest } = .next t)) ∧
    (¬ good →
      (∃ r, hostStep { s with hostProg := .read size addr :: rest } = .refused r) ∧
      (∃ r, hostStep { s with hostProg := .write size addr v :: rest } = .refused r))

/-- spec 40_host_access.md R123: acceptance of a command word; the command does nothing yet, and the Core's next step is the
first step of what the word decodes to. -/
def Obligations.IdleCommandWriteIsAccepted : Prop :=
  ∀ (s : State) (w : Word) (rest : List HostOp), s.op = .idle →
    hostStep { s with hostProg := wr 0x008 w :: rest } =
      .next { s with
        hostProg := rest, cmdLast := w, lastOp := w.extractLsb 3 0, done := false, wTrail := false, wDupsym := false,
        err := .none, errDetail := .none, started := false,
        op := match decode w with
              | .ok i => .run i
              | .error _ => .illegal }

/-- spec 40_host_access.md R124, R125: while BUSY = 1 a CMD write and a FREQ write are discarded and set OVR. -/
def Obligations.BusyWritesAreDiscardedWithOverrun : Prop :=
  ∀ (s : State) (v : Word) (rest : List HostOp), s.op ≠ .idle →
    hostStep { s with hostProg := wr 0x008 v :: rest } = .next { s with hostProg := rest, ovr := true } ∧
    ∀ k, k < 256 →
      hostStep { s with hostProg := hostFreq k v :: rest } = .next { s with hostProg := rest, ovr := true }

/-- spec 40_host_access.md R125, 10_state.md R37: with BUSY = 0 a FREQ write sets its entry, which then reads back, and
leaves every other entry and everything else alone. -/
def Obligations.IdleFreqWriteSetsOneEntry : Prop :=
  ∀ (s : State) (k : Nat) (v : Word) (rest : List HostOp), s.op = .idle → Memory.wf s.freq → k < 256 →
    ∃ m, hostStep { s with hostProg := hostFreq k v :: rest } = .next { s with hostProg := rest, freq := m } ∧
      Memory.wf m ∧ Memory.read m k = v ∧ ∀ j, j ≠ k → Memory.read m j = Memory.read s.freq j

/-- spec 40_host_access.md R126: the W1C write of STATUS. -/
def Obligations.StatusWriteClearsDoneAndOverrun : Prop :=
  ∀ (s : State) (v : Word) (rest : List HostOp),
    hostStep { s with hostProg := wr 0x00C v :: rest } =
      .next { s with
        hostProg := rest
        done := if v.getLsbD 1 then false else s.done
        ovr := if v.getLsbD 5 then false else s.ovr }

/-- spec 40_host_access.md R127: a write to PARAMS, to a result register or to a reserved offset has no effect. -/
def Obligations.ReadOnlyAndReservedWritesHaveNoEffect : Prop :=
  ∀ (s : State) (off : Nat) (v : Word) (rest : List HostOp),
    off % 4 = 0 → off = 0x000 ∨ (0x010 ≤ off ∧ off ≤ 0x3FC) →
    hostStep { s with hostProg := wr off v :: rest } = .next { s with hostProg := rest }

/-- spec 10_state.md R44, 60_exceptions.md R250: irq, seen from the words STATUS and CTRL read as; it is 0 after reset. -/
def Obligations.IrqIsDoneAndEnable : Prop :=
  (∀ s : State, s.irq = ((s.regValue .STATUS).getLsbD 1 && (s.regValue .CTRL).getLsbD 1)) ∧
  State.reset.irq = false

/-- spec 10_state.md R25: the fields of STATUS, bit by bit of the word it reads as, with the codes of R240 and R241. -/
def Obligations.StatusFieldsStandAtTheirBits : Prop :=
  ∀ s : State,
    (s.regValue .STATUS).getLsbD 0 = decide (s.op ≠ .idle) ∧
    (s.regValue .STATUS).getLsbD 1 = s.done ∧
    (s.regValue .STATUS).getLsbD 2 = decide (s.tree ≠ .absent) ∧
    (s.regValue .STATUS).getLsbD 3 = s.wTrail ∧
    (s.regValue .STATUS).getLsbD 4 = s.wDupsym ∧
    (s.regValue .STATUS).getLsbD 5 = s.ovr ∧
    (s.regValue .STATUS).extractLsb 7 6 = 0#2 ∧
    ((s.regValue .STATUS).extractLsb 11 8).toNat = (match s.err with
      | .none => 0 | .noSymbols => 1 | .malformedCodebook => 2 | .corruptTree => 3 | .capacity => 4 | .noTree => 5
      | .illegalCommand => 6) ∧
    ((s.regValue .STATUS).extractLsb 15 12).toNat = (match s.errDetail with
      | .none => 0 | .badSymbolChar => 1 | .emptySymbol => 2 | .symbolRange => 3 | .badCodeChar => 4 | .emptyCode => 5
      | .codeTooLong => 6 | .prefixConflict => 7 | .incompletePair => 8 | .emptyCodebook => 9) ∧
    (s.regValue .STATUS).extractLsb 19 16 = s.lastOp ∧
    (s.regValue .STATUS).extractLsb 31 20 = 0#12

/-! ### NOP, ILLEGAL, CLEAR_TREE, CLEAR_FREQ, FLUSH -/

/-- spec 40_host_access.md R129. -/
def Obligations.NopOnlyFinishes : Prop :=
  ∀ s : State, exec .nop s = .next { s with op := .idle, started := false, done := true }

/-- spec 40_host_access.md R130: which words run as ILLEGAL, what CMD and LAST_OP then hold, and ILLEGAL's one step. -/
def Obligations.IllegalReportsIllegalCommand : Prop :=
  (∀ (s : State) (w : Word), w.extractLsb 31 4 ≠ 0#28 ∨ 8#4 ≤ w.extractLsb 3 0 →
    (acceptCommand w s).op = .illegal ∧ (acceptCommand w s).cmdLast = w ∧
      (acceptCommand w s).lastOp = w.extractLsb 3 0) ∧
  (∀ s : State, s.op = .illegal →
    coreStep s = .next { s with
      err := .illegalCommand, errDetail := .none, op := .idle, started := false, done := true })

/-- spec 42_decoder.md R220. -/
def Obligations.ClearTreeDiscardsTheTree : Prop :=
  ∀ s : State, exec .clearTree s = .next { s with
    tree := .absent, leaves := 0#10, nodes := 0#10, weight := 0#40, op := .idle, started := false, done := true }

/-- spec 41_tree_builder.md R170: every entry reads 0 afterwards, and a BUILD that follows fails with NO_SYMBOLS. -/
def Obligations.ClearFreqZeroesEveryEntry : Prop :=
  ∀ s : State, ∃ m, exec .clearFreq s = .next { s with freq := m, op := .idle, started := false, done := true } ∧
    Memory.wf m ∧ (∀ k, Memory.read m k = 0#32) ∧
    ∀ u : State, ∃ t, exec .build { u with freq := m } = .next t ∧ t.err = .noSymbols ∧ t.tree = .absent

/-- spec 42_decoder.md R221. -/
def Obligations.FlushEmptiesTheInputFifos : Prop :=
  ∀ s : State, exec .flush s = .next { s with
    bitIn := [], cbIn := [], op := .idle, started := false, done := true }

/-! ### BUILD -/

/-- spec 41_tree_builder.md R150, R155: with at least one positive count BUILD ends without error, and this is its whole
effect; the weight is the exact sum of all counts. `buildRoot` is the greedy merge (`BuildMergesGreedily`). -/
def Obligations.BuildInstallsTheMergedTree : Prop :=
  ∀ s : State, (∃ k, k < 256 ∧ Memory.read s.freq k ≠ 0#32) →
    ∃ r n, buildRoot s.freq = some r ∧
      n = ((List.range 256).filter (fun k => Memory.read s.freq k != 0#32)).length ∧
      r.w = ((List.range 256).map (freqOf s.freq)).sum ∧ r.w < 2 ^ 40 ∧
      exec .build s = .next { s with
        tree := r.t, leaves := BitVec.ofNat 10 n, nodes := BitVec.ofNat 10 (2 * n - 1), weight := BitVec.ofNat 40 r.w,
        op := .idle, started := false, done := true }

/-- spec 41_tree_builder.md R153: with no positive count BUILD ends with NO_SYMBOLS and leaves no tree. -/
def Obligations.BuildWithoutSymbolsFails : Prop :=
  ∀ s : State, (∀ k, k < 256 → Memory.read s.freq k = 0#32) →
    exec .build s = .next { s with
      tree := .absent, leaves := 0#10, nodes := 0#10, weight := 0#40, err := .noSymbols, errDetail := .none,
      op := .idle, started := false, done := true }

/-- spec 41_tree_builder.md R154: one symbol with a positive count gives a leaf root. -/
def Obligations.BuildOfOneSymbolIsALeaf : Prop :=
  ∀ (s : State) (k : Nat), k < 256 → Memory.read s.freq k ≠ 0#32 →
    (∀ j, j < 256 → j ≠ k → Memory.read s.freq j = 0#32) →
    exec .build s = .next { s with
      tree := .leaf (BitVec.ofNat 8 k), leaves := 1#10, nodes := 1#10, weight := (Memory.read s.freq k).setWidth 40,
      op := .idle, started := false, done := true }

/-- spec 41_tree_builder.md R150-R152: BUILD's result is the one, and the only one, that greedy merging of the leaves reaches,
first-removed to the left. `GreedyMerge` spells out the order of R151, less weight first and of equal weights the smaller
seq. The leaves have seq 0, 1, … in ascending symbol order, and the merged nodes take the numbers after theirs. -/
def Obligations.BuildMergesGreedily : Prop :=
  ∀ (m : Memory) (r : QEntry),
    let leaves : List QEntry := ((List.range 256).filter (fun k => Memory.read m k != 0#32)).zipIdx.map
      (fun (k, seq) => { w := freqOf m k, seq := seq, t := .leaf (BitVec.ofNat 8 k) })
    buildRoot m = some r ↔ GreedyMerge leaves.length leaves r

/-- spec 41_tree_builder.md R156: the shape of a tree BUILD makes. -/
def Obligations.BuildTreeShape : Prop :=
  ∀ (m : Memory) (r : QEntry), buildRoot m = some r →
    r.t ≠ .absent ∧ r.t.full ∧
    (r.t.codes.map (fun c => c.1.toNat)).Perm ((List.range 256).filter (fun k => Memory.read m k != 0#32)) ∧
    r.t.size = 2 * r.t.leafCount - 1 ∧
    (∀ c ∈ r.t.codes, c.2.length ≤ r.t.leafCount - 1 ∧ c.2.length ≤ Config.maxCodeLen) ∧
    (∀ c ∈ r.t.codes, ∀ d ∈ r.t.codes, c.2 <+: d.2 → c = d)

/-- spec 41_tree_builder.md R152: in a tree BUILD makes no left subtree weighs more than its right sibling. -/
def Obligations.BuildLeftChildIsNeverHeavier : Prop :=
  ∀ (m : Memory) (r : QEntry), buildRoot m = some r →
    ∀ (p : List Bit) (a b : TreeSlot), r.t.subtree p = .node a b → a.weightIn m ≤ b.weightIn m

/-- spec 41_tree_builder.md R157: BUILD's tree has the least total weighted code length of all prefix codes for the present
symbols. -/
def Obligations.BuildTreeIsOptimal : Prop :=
  ∀ (m : Memory) (r : QEntry), buildRoot m = some r →
    ∀ code : Nat → List Bit,
      (∀ j ∈ m.present, ∀ k ∈ m.present, code j <+: code k → j = k) →
      r.t.costIn m ≤ (m.present.map (fun k => freqOf m k * (code k).length)).sum

/-- spec 41_tree_builder.md R158: BUILD's results depend on the 256 counts alone. -/
def Obligations.BuildDependsOnCountsAlone : Prop :=
  ∀ (s s' t t' : State), (∀ k, k < 256 → Memory.read s.freq k = Memory.read s'.freq k) →
    exec .build s = .next t → exec .build s' = .next t' →
    t.tree = t'.tree ∧ t.leaves = t'.leaves ∧ t.nodes = t'.nodes ∧ t.weight = t'.weight

/-! ### SAVE -/

/-- spec 41_tree_builder.md R160: SAVE's start step, its transfer steps and its end. A full cb_out holds it: the spec says
that the Core then has no step, and that its turn changes nothing is the model's choice (log entry 2). -/
def Obligations.SavePushesOneTransferAStep : Prop :=
  ∀ s : State,
    (s.started = false → s.tree = .absent →
      exec .save s = .next { s with
        err := .noTree, errDetail := .none, op := .idle, started := false, done := true }) ∧
    (s.started = false → s.tree ≠ .absent →
      exec .save s = .next { s with out := saveBytes s.tree, started := true }) ∧
    (s.started = true → s.cbOut.length < Config.outDepth → ∀ c rest, s.out = .byte c :: rest →
      exec .save s = .next { s with out := rest, cbOut := s.cbOut ++ [.byte c] }) ∧
    (s.started = true → s.cbOut.length < Config.outDepth → ∀ rest, s.out = .endOfStream :: rest →
      exec .save s = .next { s with
        out := rest, cbOut := s.cbOut ++ [.endOfStream], cbPairs := BitVec.ofNat 16 s.tree.leafCount,
        op := .idle, started := false, done := true }) ∧
    (s.started = true → ¬ s.cbOut.length < Config.outDepth → exec .save s = .next s)

/-- spec 41_tree_builder.md R161, R163, R164: the text SAVE emits is that of the tree's codebook, leaf by leaf from left to
right, then one END; a leaf root gives an empty code line. `decText` is the decimal text of 00_scope.md R13: the bytes of
at least one digit, of the symbol's value, the first of several not 0. -/
def Obligations.SaveTextIsTheCodebook : Prop :=
  (∀ t : TreeSlot, saveBytes t =
    (t.codes.flatMap (fun c =>
      decText c.1 ++ [0x0A#8] ++ c.2.map (fun b => if b then 0x31#8 else 0x30#8) ++ [0x0A#8])).map CbXfer.byte ++
      [.endOfStream]) ∧
  (∀ v : Sym, saveBytes (.leaf v) = (decText v ++ [0x0A#8, 0x0A#8]).map CbXfer.byte ++ [.endOfStream]) ∧
  (∀ v : Sym, ∃ ds : List Nat, ds ≠ [] ∧ (∀ d ∈ ds, d < 10) ∧ decText v = ds.map (fun d => BitVec.ofNat 8 (0x30 + d)) ∧
    ds.foldl (fun a d => a * 10 + d) 0 = v.toNat ∧ (2 ≤ ds.length → ds.head? ≠ some 0))

/-- spec 41_tree_builder.md R162, R161: under every interleaving the CbSink gets a prefix of the text, in order, and the
whole text once SAVE has ended. -/
def Obligations.SaveDeliversExactlyTheText : Prop :=
  ∀ (s : State) (sl : List Slot),
    s.op = .run .save → s.started = false → s.err = .none → s.tree ≠ .absent → s.hostProg = [] → .hardReset ∉ sl →
    ∃ t, runUnder sl s = .next t ∧ t.tree = s.tree ∧
      (∃ k, t.cbGot ++ t.cbOut.map encodeCbXfer =
        s.cbGot ++ s.cbOut.map encodeCbXfer ++ ((saveBytes s.tree).take k).map encodeCbXfer) ∧
      (t.op = .idle →
        t.cbGot ++ t.cbOut.map encodeCbXfer =
          s.cbGot ++ s.cbOut.map encodeCbXfer ++ (saveBytes s.tree).map encodeCbXfer ∧
        t.cbPairs = BitVec.ofNat 16 s.tree.leafCount ∧ t.err = .none ∧ t.done = true)

/-- spec 41_tree_builder.md R162 ("provided it keeps popping"): SAVE ends when the CbSink pops between its steps. -/
def Obligations.SaveEndsWhileTheSinkPops : Prop :=
  ∀ s : State,
    s.op = .run .save → s.started = false → s.tree ≠ .absent → s.cbOut.length ≤ Config.outDepth →
    ∃ t, runUnder (rounds [.core, .cbSink] (1 + (saveBytes s.tree).length)) s = .next t ∧
      t.op = .idle ∧ t.done = true

/-! ### LOAD -/

/-- spec 42_decoder.md R190: LOAD's start step. An empty cb_in holds it: the spec says that the Core then has no step, and
that its turn changes nothing is the model's choice (log entry 2). -/
def Obligations.LoadStartDiscardsTheTree : Prop :=
  ∀ s : State,
    (s.started = false → exec .load s = .next { s with
      tree := .absent, started := true
      ld := { phase := .sym, acc := 0#8, hasDigit := false, code := [], line := 1#32, pairs := 0, T := .absent,
              nodes := 0, seen := [] } }) ∧
    (s.started = true → s.cbIn = [] → exec .load s = .next s)

/-- spec 42_decoder.md R191, R198, R199: LOAD's step on a symbol line, for every transfer. -/
def Obligations.LoadSymbolLineStep : Prop :=
  ∀ (s : State) (x : CbXfer) (rest : List CbXfer),
    s.started = true → s.ld.phase = .sym → s.cbIn = x :: rest →
    let failed (d : ErrDetail) : State := { s with
      cbIn := rest, tree := .absent, leaves := 0#10, nodes := 0#10, weight := 0#40,
      cbPairs := BitVec.ofNat 16 s.ld.pairs, cbLine := s.ld.line,
      err := .malformedCodebook, errDetail := d, op := .idle, started := false, done := true }
    (x = .endOfStream → s.ld.hasDigit = true → exec .load s = .next (failed .incompletePair)) ∧
    (x = .endOfStream → s.ld.hasDigit = false → s.ld.pairs = 0 → exec .load s = .next (failed .emptyCodebook)) ∧
    (x = .endOfStream → s.ld.hasDigit = false → s.ld.pairs ≠ 0 → exec .load s = .next { s with
      cbIn := rest, tree := s.ld.T, leaves := BitVec.ofNat 10 s.ld.pairs, nodes := BitVec.ofNat 10 s.ld.nodes,
      weight := 0#40, cbPairs := BitVec.ofNat 16 s.ld.pairs, cbLine := 0#32,
      op := .idle, started := false, done := true }) ∧
    (∀ d, d < 10 → x = .byte (BitVec.ofNat 8 (0x30 + d)) → s.ld.acc.toNat * 10 + d < 256 →
      exec .load s = .next { s with
        cbIn := rest, ld := { s.ld with acc := BitVec.ofNat 8 (s.ld.acc.toNat * 10 + d), hasDigit := true } }) ∧
    (∀ d, d < 10 → x = .byte (BitVec.ofNat 8 (0x30 + d)) → 256 ≤ s.ld.acc.toNat * 10 + d →
      exec .load s = .next (failed .symbolRange)) ∧
    (x = .byte 0x0A#8 → s.ld.hasDigit = false → exec .load s = .next (failed .emptySymbol)) ∧
    (x = .byte 0x0A#8 → s.ld.hasDigit = true → exec .load s = .next { s with
      cbIn := rest, ld := { s.ld with phase := .code, code := [], line := s.ld.line + 1#32 } }) ∧
    (∀ c, x = .byte c → c ≠ 0x0A#8 → (∀ d, d < 10 → c ≠ BitVec.ofNat 8 (0x30 + d)) →
      exec .load s = .next (failed .badSymbolChar))

/-- spec 42_decoder.md R192, R197, R199: LOAD's step on a code line, for every transfer. `insertCode` is the insertion of
R194 (`InsertionKeepsTheOtherCodes`, `InsertionRejectsPrefixConflicts`). -/
def Obligations.LoadCodeLineStep : Prop :=
  ∀ (s : State) (x : CbXfer) (rest : List CbXfer),
    s.started = true → s.ld.phase = .code → s.cbIn = x :: rest →
    let failed (e : ErrCode) (d : ErrDetail) : State := { s with
      cbIn := rest, tree := .absent, leaves := 0#10, nodes := 0#10, weight := 0#40,
      cbPairs := BitVec.ofNat 16 s.ld.pairs, cbLine := s.ld.line,
      err := e, errDetail := d, op := .idle, started := false, done := true }
    (x = .endOfStream → exec .load s = .next (failed .malformedCodebook .incompletePair)) ∧
    (∀ b : Bit, x = .byte (if b then 0x31#8 else 0x30#8) → s.ld.code.length ≠ 255 →
      exec .load s = .next { s with cbIn := rest, ld := { s.ld with code := s.ld.code ++ [b] } }) ∧
    (∀ b : Bit, x = .byte (if b then 0x31#8 else 0x30#8) → s.ld.code.length = 255 →
      exec .load s = .next (failed .malformedCodebook .codeTooLong)) ∧
    (x = .byte 0x0A#8 → s.ld.code = [] → exec .load s = .next (failed .malformedCodebook .emptyCode)) ∧
    (x = .byte 0x0A#8 → s.ld.code ≠ [] →
      insertCode s.ld.acc s.ld.code s.ld.T s.ld.nodes = .error .prefixConflict →
      exec .load s = .next (failed .malformedCodebook .prefixConflict)) ∧
    (x = .byte 0x0A#8 → s.ld.code ≠ [] → insertCode s.ld.acc s.ld.code s.ld.T s.ld.nodes = .error .capacity →
      exec .load s = .next (failed .capacity .none)) ∧
    (x = .byte 0x0A#8 → s.ld.code ≠ [] →
      ∀ T n, insertCode s.ld.acc s.ld.code s.ld.T s.ld.nodes = .ok (T, n) →
      ∃ seen', (∀ v, v ∈ seen' ↔ v ∈ s.ld.seen ∨ v = s.ld.acc) ∧
        exec .load s = .next { s with
          cbIn := rest, wDupsym := s.wDupsym || decide (s.ld.acc ∈ s.ld.seen)
          ld := { s.ld with
            T := T, nodes := n, seen := seen', pairs := s.ld.pairs + 1, line := s.ld.line + 1#32, phase := .sym,
            acc := 0#8, hasDigit := false } }) ∧
    (∀ c, x = .byte c → c ≠ 0x30#8 → c ≠ 0x31#8 → c ≠ 0x0A#8 →
      exec .load s = .next (failed .malformedCodebook .badCodeChar))

/-- spec 42_decoder.md R194: a successful insertion adds exactly one leaf, at the path its code gives, keeps every other
leaf at its path, and counts the nodes it makes. -/
def Obligations.InsertionKeepsTheOtherCodes : Prop :=
  ∀ (v : Sym) (code : List Bit) (T T' : TreeSlot) (n n' : Nat),
    insertCode v code T n = .ok (T', n') →
    T'.subtree code = .leaf v ∧ T'.codes.Perm ((v, code) :: T.codes) ∧
    T'.leafCount = T.leafCount + 1 ∧ n' + T.size = n + T'.size ∧ n' ≤ 511

/-- spec 42_decoder.md R194, R195, R196, 60_exceptions.md R246: an insertion fails with a prefix conflict exactly when a code
inserted before is a prefix of the new one or has it as a prefix, also when the tree store is full; and otherwise it fails
for capacity exactly when the nodes in use and the nodes it needs, one for each path along the code at which the tree has
none, are more than NODE_CAP. -/
def Obligations.InsertionRejectsPrefixConflicts : Prop :=
  ∀ (v : Sym) (code : List Bit) (T : TreeSlot) (n : Nat), T.proper →
    (insertCode v code T n = .error .prefixConflict ↔ ∃ c ∈ T.codes, c.2 <+: code ∨ code <+: c.2) ∧
    (insertCode v code T n = .error .capacity ↔
      (¬ ∃ c ∈ T.codes, c.2 <+: code ∨ code <+: c.2) ∧
      511 < n + (code.inits.filter (fun p => T.subtree p == .absent)).length)

/-- spec 42_decoder.md R190-R200: a codebook of prefix-free pairs, each code 1 to 255 bits, that needs at most NODE_CAP
nodes, loads without error; the tree holds each pair's symbol at its code and no other leaf, and W_DUPSYM says whether a
symbol came twice. The nodes are the paths that begin some code. -/
def Obligations.LoadRebuildsTheCodebook : Prop :=
  ∀ (s : State) (ps : List (Sym × List Bit)) (tail : List CbXfer),
    s.op = .run .load → s.started = false → s.err = .none → s.errDetail = .none → s.wDupsym = false →
    ps ≠ [] → (∀ p ∈ ps, p.2 ≠ [] ∧ p.2.length ≤ 255) →
    ps.Pairwise (fun p q => ¬ p.2 <+: q.2 ∧ ¬ q.2 <+: p.2) →
    (ps.flatMap (fun p => p.2.inits)).dedup.length ≤ 511 →
    s.cbIn ++ s.cbSrc.map decodeCbXfer = (pairsOf ps).map CbXfer.byte ++ .endOfStream :: tail →
    ∃ t, runUnder (rounds [.cbSource, .core] (2 + (pairsOf ps).length)) s = .next t ∧
      t.op = .idle ∧ t.done = true ∧ t.err = .none ∧ t.errDetail = .none ∧ t.tree.codes.Perm ps ∧ t.tree.proper ∧
      (∀ v, t.tree ≠ .leaf v) ∧
      t.leaves.toNat = ps.length ∧ t.nodes.toNat = t.tree.size ∧ t.cbPairs.toNat = ps.length ∧ t.cbLine = 0#32 ∧
      t.weight = 0#40 ∧ (t.wDupsym = true ↔ ¬ (ps.map Prod.fst).Nodup)

/-- spec 30_encoding.md R100-R102: LOAD accepts nothing but the grammar: a text it loads without error is a nonempty list of
pairs, each a line of one or more digits with a value below 256 (leading zeros allowed) and a line of 1 to 255 characters
'0' and '1'; and the codes are prefix-free (42_decoder.md R195). -/
def Obligations.LoadAcceptsOnlyTheGrammar : Prop :=
  ∀ (s t : State) (text : List Byte) (tail : List CbXfer),
    s.op = .run .load → s.started = false → s.err = .none →
    s.cbIn ++ s.cbSrc.map decodeCbXfer = text.map CbXfer.byte ++ .endOfStream :: tail →
    runUnder (rounds [.cbSource, .core] (2 + text.length)) s = .next t → t.err = .none →
    ∃ ps : List (List Nat × List Bit), ps ≠ [] ∧
      text = ps.flatMap (fun p => p.1.map digitByte ++ [0x0A#8] ++ p.2.map bitChar ++ [0x0A#8]) ∧
      (∀ p ∈ ps, p.1 ≠ [] ∧ (∀ d ∈ p.1, d < 10) ∧ p.1.foldl (fun a d => a * 10 + d) 0 < 256 ∧
        p.2 ≠ [] ∧ p.2.length ≤ 255) ∧
      ps.Pairwise (fun p q => ¬ p.2 <+: q.2 ∧ ¬ q.2 <+: p.2) ∧
      t.tree.codes.Perm (ps.map (fun p => (BitVec.ofNat 8 (p.1.foldl (fun a d => a * 10 + d) 0), p.2)))

/-- spec 41_tree_builder.md R165: a tree BUILD made of two symbols or more comes back from the text SAVE emits; the text of
a single leaf is rejected with EMPTY_CODE. -/
def Obligations.SavedTreeLoadsBack : Prop :=
  ∀ (m : Memory) (r : QEntry) (s : State), buildRoot m = some r →
    s.op = .run .load → s.started = false → s.err = .none → s.errDetail = .none → s.wDupsym = false →
    s.cbIn ++ s.cbSrc.map decodeCbXfer = saveBytes r.t →
    ∃ t, runUnder (rounds [.cbSource, .core] (1 + (saveBytes r.t).length)) s = .next t ∧
      t.op = .idle ∧ t.done = true ∧
      (2 ≤ r.t.leafCount → t.tree = r.t ∧ t.err = .none ∧ t.errDetail = .none ∧ t.wDupsym = false) ∧
      (r.t.leafCount = 1 → t.tree = .absent ∧ t.err = .malformedCodebook ∧ t.errDetail = .emptyCode)

/-! ### DECODE -/

/-- spec 42_decoder.md R211: DECODE's start step. -/
def Obligations.DecodeStartClearsTheCounters : Prop :=
  ∀ s : State, s.started = false →
    (s.tree = .absent → exec .decode s = .next { s with
      decBits := 0#32, decSyms := 0#32, decDepth := 0#8, err := .noTree, errDetail := .none,
      op := .idle, started := false, done := true }) ∧
    (s.tree ≠ .absent → exec .decode s = .next { s with
      decBits := 0#32, decSyms := 0#32, decDepth := 0#8, cur := [], started := true })

/-- spec 42_decoder.md R212-R215, R218: DECODE's step on every transfer. An empty bit_in and a full sym_out hold it: the spec
says that the step is then not enabled, and that the Core's turn changes nothing is the model's choice (log entry 2). So is
the outcome of a bit in a state with no tree, which no run reaches (log entry 13). -/
def Obligations.DecodeTransferStep : Prop :=
  ∀ (s : State) (rest : List BitXfer), s.started = true →
    (s.bitIn = [] ∨ ¬ s.symOut.length < Config.outDepth → exec .decode s = .next s) ∧
    (s.bitIn = .endOfStream :: rest → s.symOut.length < Config.outDepth →
      exec .decode s = .next { s with
        bitIn := rest, decDepth := BitVec.ofNat 8 s.cur.length, wTrail := s.wTrail || decide (0 < s.cur.length),
        op := .idle, started := false, done := true }) ∧
    (∀ b, s.bitIn = .bit b :: rest → s.symOut.length < Config.outDepth →
      (∀ v, s.tree.subtree (s.cur ++ [b]) = .leaf v →
        exec .decode s = .next { s with
          bitIn := rest, decBits := s.decBits + 1#32, symOut := s.symOut ++ [v], decSyms := s.decSyms + 1#32,
          cur := [] }) ∧
      (∀ l r, s.tree.subtree (s.cur ++ [b]) = .node l r →
        exec .decode s = .next { s with bitIn := rest, decBits := s.decBits + 1#32, cur := s.cur ++ [b] }) ∧
      (s.tree.subtree (s.cur ++ [b]) = .absent →
        exec .decode s = .next { s with
          bitIn := rest, decBits := s.decBits + 1#32, decDepth := BitVec.ofNat 8 s.cur.length, err := .corruptTree,
          errDetail := .none, op := .idle, started := false, done := true }))

/-- spec 42_decoder.md R216: decoding a single-leaf tree. -/
def Obligations.DecodeOfALeafRoot : Prop :=
  ∀ (s : State) (v : Sym) (rest : List BitXfer), s.tree = .leaf v → s.started = false →
    ∃ u, exec .decode s = .next u ∧ u.started = true ∧ u.tree = .leaf v ∧ u.bitIn = s.bitIn ∧ u.symOut = s.symOut ∧
      (s.symOut.length < Config.outDepth →
        (∀ b, s.bitIn = .bit b :: rest → ∃ t, exec .decode u = .next t ∧ t.err = .corruptTree ∧ t.op = .idle ∧
          t.done = true ∧ t.decBits = 1#32 ∧ t.decSyms = 0#32 ∧ t.decDepth = 0#8 ∧ t.bitIn = rest ∧
          t.symOut = s.symOut ∧ t.tree = .leaf v) ∧
        (s.bitIn = .endOfStream :: rest → ∃ t, exec .decode u = .next t ∧ t.err = s.err ∧ t.op = .idle ∧
          t.done = true ∧ t.decBits = 0#32 ∧ t.decSyms = 0#32 ∧ t.decDepth = 0#8 ∧ t.wTrail = s.wTrail ∧
          t.symOut = s.symOut ∧ t.bitIn = rest))

/-- spec 42_decoder.md R217: under every interleaving, decoding the codes of symbols emits a prefix of those symbols, in
order, and exactly those symbols once DECODE has ended, without error or warning. -/
def Obligations.DecodeEmitsTheEncodedSymbols : Prop :=
  ∀ (s : State) (ps : List (Sym × List Bit)) (tail : List BitXfer) (sl : List Slot),
    s.op = .run .decode → s.started = false → s.err = .none → s.wTrail = false → s.hostProg = [] →
    2 ≤ s.tree.leafCount → (∀ p ∈ ps, s.tree.subtree p.2 = .leaf p.1) →
    s.bitIn ++ s.bitSrc.map decodeBitXfer = (ps.flatMap Prod.snd).map BitXfer.bit ++ .endOfStream :: tail →
    .hardReset ∉ sl →
    ∃ t, runUnder sl s = .next t ∧ t.tree = s.tree ∧
      (∃ k, t.symGot ++ t.symOut = s.symGot ++ s.symOut ++ (ps.take k).map Prod.fst) ∧
      (t.op = .idle →
        t.symGot ++ t.symOut = s.symGot ++ s.symOut ++ ps.map Prod.fst ∧
        t.err = .none ∧ t.wTrail = false ∧ t.done = true ∧ t.decDepth = 0#8 ∧
        t.decSyms = BitVec.ofNat 32 ps.length ∧ t.decBits = BitVec.ofNat 32 (ps.flatMap Prod.snd).length)

/-- spec 42_decoder.md R212, 70_reset_and_hazards.md R278, R281: DECODE ends when its stream has an END, the source keeps
pushing and the sink keeps popping. -/
def Obligations.DecodeEndsOnAnEndedStream : Prop :=
  ∀ (s : State) (bits : List Bit) (tail : List BitXfer),
    s.op = .run .decode → s.started = false → s.symOut.length ≤ Config.outDepth →
    s.bitIn ++ s.bitSrc.map decodeBitXfer = bits.map BitXfer.bit ++ .endOfStream :: tail →
    ∃ t, runUnder (rounds [.bitSource, .core, .symSink] (2 + bits.length)) s = .next t ∧ t.op = .idle ∧ t.done = true

/-! ### The whole machine -/

/-- spec 40_host_access.md R123, R128: a Core's turn runs the decoded command: on the Core's turn a step is `exec` of the
running command at the state with that slot used up, and after `withFetchWord` it is the command the word decodes to. -/
def Obligations.StepRunsTheDecodedCommand : Prop :=
  (∀ (s : State) (i : Instr) (r : List Slot), s.op = .run i → s.sched = .agent .core :: r →
    step s = exec i { s with sched := r }) ∧
  (∀ (s : State) (i : Instr), s.op = .run i → s.sched = [] → coreReady s = true → step s = exec i s) ∧
  (∀ (s : State) (i : Instr) (w : Word), decode w = .ok i →
    step (s.withFetchWord 32 w.toNat) = exec i (acceptCommand w s)) ∧
  (∀ (s : State) (i : Instr) (w : Word) (rest : List HostOp) (r : List Slot),
    decode w = .ok i → s.op = .idle → s.hostProg = wr 0x008 w :: rest →
    s.sched = .agent .host :: .agent .core :: r →
    ∃ u, step s = .next u ∧ u.op = .run i ∧ u.cmdLast = w ∧ step u = exec i { u with sched := r })

/-- spec 40_host_access.md R128, 70_reset_and_hazards.md R280, 60_exceptions.md R258: an idle Core's turn changes nothing. -/
def Obligations.IdleCoreTakesNoStep : Prop :=
  ∀ (s : State) (r : List Slot), s.op = .idle → s.sched = .agent .core :: r → step s = .next { s with sched := r }

/-- spec 00_scope.md R8, 20_memory.md R75, R80: no turn of another agent changes the tree store, the decoder cursor, the
Core's working state or the result registers, unless it is the host's and resets the block; and while a command runs none
changes FREQ or the running operation either. -/
def Obligations.OnlyTheCoreChangesTreeAndResults : Prop :=
  ∀ (s t : State) (a : Agent) (r : List Slot),
    s.sched = .agent a :: r → a ≠ .core → step s = .next t →
    (∀ size addr v rest, a = .host → s.hostProg = .write size addr v :: rest →
      ¬ (addr = Config.huffBase + 0x004 ∧ v.getLsbD 0 = true)) →
    t.tree = s.tree ∧ t.cur = s.cur ∧ t.out = s.out ∧ t.ld = s.ld ∧
    t.leaves = s.leaves ∧ t.nodes = s.nodes ∧ t.weight = s.weight ∧
    t.decBits = s.decBits ∧ t.decSyms = s.decSyms ∧ t.decDepth = s.decDepth ∧
    t.cbPairs = s.cbPairs ∧ t.cbLine = s.cbLine ∧
    (s.op ≠ .idle → t.freq = s.freq ∧ t.op = s.op ∧ t.started = s.started ∧ t.err = s.err ∧ t.cmdLast = s.cmdLast)

/-- spec 20_memory.md R77, 10_state.md R43: no turn reorders, duplicates, drops or invents a transfer, unless it resets the
block or a FLUSH runs in it. What a sink has got and its FIFO holds grows only at its tail, by at most one transfer, and
only in a turn of the Core running DECODE or SAVE; what an input FIFO holds and its source still has loses only its head,
at most one transfer, and only in a turn of the Core running DECODE or LOAD. -/
def Obligations.FifosDeliverInOrder : Prop :=
  ∀ (s t : State) (a : Agent) (r : List Slot),
    s.sched = .agent a :: r → step s = .next t →
    (∀ size addr v rest, a = .host → s.hostProg = .write size addr v :: rest →
      ¬ (addr = Config.huffBase + 0x004 ∧ v.getLsbD 0 = true)) →
    (∃ new, new.length ≤ 1 ∧ (¬ (a = .core ∧ s.op = .run .decode) → new = []) ∧
      t.symGot ++ t.symOut = s.symGot ++ s.symOut ++ new) ∧
    (∃ new, new.length ≤ 1 ∧ (¬ (a = .core ∧ s.op = .run .save) → new = []) ∧
      t.cbGot.map decodeCbXfer ++ t.cbOut = s.cbGot.map decodeCbXfer ++ s.cbOut ++ new) ∧
    (¬ (a = .core ∧ s.op = .run .flush) →
      (∃ gone, gone.length ≤ 1 ∧ (¬ (a = .core ∧ s.op = .run .decode) → gone = []) ∧
        s.bitIn ++ s.bitSrc.map decodeBitXfer = gone ++ (t.bitIn ++ t.bitSrc.map decodeBitXfer)) ∧
      (∃ gone, gone.length ≤ 1 ∧ (¬ (a = .core ∧ s.op = .run .load) → gone = []) ∧
        s.cbIn ++ s.cbSrc.map decodeCbXfer = gone ++ (t.cbIn ++ t.cbSrc.map decodeCbXfer)))

/-- spec 20_memory.md R70-R73, 10_state.md R43: a source's turn pushes its next transfer when its FIFO has room, a sink's
turn pops when its FIFO has an entry; otherwise the agent waits. That the turn of a waiting agent changes nothing, and that
a source has nothing to push when its script is used up, is the model's choice (log entries 2 and 3). -/
def Obligations.StreamAgentsPushAndPop : Prop :=
  ∀ s : State,
    (∀ w rest, s.bitSrc = w :: rest → s.bitIn.length < Config.inDepth →
      agentStep .bitSource s = .next { s with bitIn := s.bitIn ++ [decodeBitXfer w], bitSrc := rest }) ∧
    (∀ w rest, s.cbSrc = w :: rest → s.cbIn.length < Config.inDepth →
      agentStep .cbSource s = .next { s with cbIn := s.cbIn ++ [decodeCbXfer w], cbSrc := rest }) ∧
    (∀ v rest, s.symOut = v :: rest →
      agentStep .symSink s = .next { s with symOut := rest, symGot := s.symGot ++ [v] }) ∧
    (∀ x rest, s.cbOut = x :: rest →
      agentStep .cbSink s = .next { s with cbOut := rest, cbGot := s.cbGot ++ [encodeCbXfer x] }) ∧
    (Config.inDepth ≤ s.bitIn.length → agentStep .bitSource s = .next s) ∧
    (Config.inDepth ≤ s.cbIn.length → agentStep .cbSource s = .next s) ∧
    (s.bitSrc = [] → agentStep .bitSource s = .next s) ∧
    (s.cbSrc = [] → agentStep .cbSource s = .next s) ∧
    (s.symOut = [] → agentStep .symSink s = .next s) ∧
    (s.cbOut = [] → agentStep .cbSink s = .next s)

/-- spec 30_encoding.md R105: each turn of a waiting host reads STATUS, and the wait is over when the word read has
BUSY = 0. That the values read are kept in `hostReads` is the model's choice (log entry 3). -/
def Obligations.HostWaitPollsStatus : Prop :=
  ∀ (s : State) (rest : List HostOp), s.hostProg = .wait :: rest →
    agentStep .host s = .next { s with
      hostReads := s.hostReads ++ [s.regValue .STATUS]
      hostProg := if (s.regValue .STATUS).getLsbD 0 then .wait :: rest else rest }

/-- spec 60_exceptions.md R245, R240: what an error leaves. A step that ends its command with an error leaves no tree if it
is BUILD's or LOAD's and leaves TREE alone if it is SAVE's or DECODE's; NOP, CLEAR_TREE, CLEAR_FREQ and FLUSH raise none. -/
def Obligations.ErrorsLeaveNoPartialTree : Prop :=
  ∀ (s t : State) (i : Instr), s.err = .none → exec i s = .next t → t.err ≠ .none →
    t.op = .idle ∧ t.done = true ∧ t.freq = s.freq ∧
    (i = .build ∧ t.err = .noSymbols ∧ t.tree = .absent ∨
     i = .load ∧ (t.err = .malformedCodebook ∨ t.err = .capacity) ∧ t.tree = .absent ∨
     i = .save ∧ t.err = .noTree ∧ t.tree = s.tree ∨
     i = .decode ∧ (t.err = .noTree ∨ t.err = .corruptTree) ∧ t.tree = s.tree)

/-- The invariant holds at reset (spec 70_reset_and_hazards.md R270). -/
def Obligations.ResetMeetsTheInvariant : Prop := State.reset.Inv

/-- spec 10_state.md R27, R28, R29, R38, R41, R42, R43, 42_decoder.md R200: every step keeps the invariant. -/
def Obligations.EveryStepKeepsTheInvariant : Prop :=
  ∀ s t : State, s.Inv → step s = .next t → t.Inv

/-- A step faults in no state that meets the invariant, and it is refused only for a host access the spec says to refuse
(spec 20_memory.md R61-R63). -/
def Obligations.StepsStopOnlyOnBadHostAccess : Prop :=
  ∀ s : State, s.Inv →
    (∀ f, step s ≠ .fault f) ∧
    (∀ q, step s = .refused q → ∃ size addr rest,
      ((s.hostProg = .read size addr :: rest) ∨ ∃ v, s.hostProg = .write size addr v :: rest) ∧
      ¬ (size = .word ∧ ∃ off, legalOffset off = true ∧ addr = Config.huffBase + off))

/-- spec 42_decoder.md R218, 10_state.md R33: under the invariant the cursor of a running DECODE is at most 254 bits long in
every state, so the step that ends it writes its exact length into DEC_DEPTH. -/
def Obligations.DecoderCursorFitsItsRegister : Prop :=
  ∀ s : State, s.Inv → s.op = .run .decode → s.started = true →
    s.cur.length ≤ 254 ∧
    ∀ (t : State) (r : List Slot), s.sched = .agent .core :: r → step s = .next t → t.op = .idle →
      t.decDepth.toNat = s.cur.length
end

