-- ==== Sys2Proof/Laws/Memory.lean ====
section
/-! SUPPORT. The laws of the frequency table: reads after writes, and that every operation keeps the canonical form. -/

namespace Sys2Proof.Machine

@[simp] theorem Memory.read_nil (k : Nat) : Memory.read [] k = 0#32 := rfl

theorem Memory.wf_nil : Memory.wf [] := by simp [Memory.wf]

theorem Memory.wf_cons {a : Nat} {w : Word} {m : Memory} :
    Memory.wf ((a, w) :: m) ↔ (∀ c ∈ m, a < c.1) ∧ a < Config.nsym ∧ w ≠ 0#32 ∧ Memory.wf m := by
  simp only [Memory.wf, List.map_cons, List.pairwise_cons, List.forall_mem_cons, List.forall_mem_map]
  tauto

/-- A symbol below every cell's symbol has the count 0. -/
theorem Memory.read_below {m : Memory} {k : Nat} (h : ∀ c ∈ m, k < c.1) : Memory.read m k = 0#32 := by
  induction m with
  | nil => rfl
  | cons c m ih =>
    obtain ⟨a, w⟩ := c
    simp only [List.forall_mem_cons] at h
    have : a ≠ k := by omega
    simpa [Memory.read, this] using ih h.2

/-- Where the cells after a write come from. -/
theorem Memory.mem_write {m : Memory} {k : Nat} {v : Word} {c : Nat × Word} (h : c ∈ Memory.write m k v) :
    c ∈ m ∨ (c = (k, v) ∧ v ≠ 0#32) := by
  induction m with
  | nil =>
    simp only [Memory.write] at h
    split at h <;> simp_all
  | cons d m ih =>
    obtain ⟨a, w⟩ := d
    simp only [Memory.write] at h
    split at h
    · simp only [List.mem_cons] at h ⊢
      rcases h with h | h
      · exact .inl (.inl h)
      · rcases ih h with h | h
        · exact .inl (.inr h)
        · exact .inr h
    · split at h <;> split at h <;> simp_all <;> tauto

/-- A write keeps the canonical form. -/
theorem Memory.wf_write {m : Memory} {k : Nat} {v : Word} (h : Memory.wf m) (hk : k < Config.nsym) :
    Memory.wf (Memory.write m k v) := by
  induction m with
  | nil =>
    simp only [Memory.write]
    split
    · exact Memory.wf_nil
    · next hv => exact Memory.wf_cons.2 ⟨by simp, hk, hv, Memory.wf_nil⟩
  | cons d m ih =>
    obtain ⟨a, w⟩ := d
    obtain ⟨hlt, ha, hw, hm⟩ := Memory.wf_cons.1 h
    simp only [Memory.write]
    split
    · next hak =>
      refine Memory.wf_cons.2 ⟨fun c hc => ?_, ha, hw, ih hm⟩
      rcases Memory.mem_write hc with hc | ⟨rfl, -⟩
      · exact hlt c hc
      · exact hak
    · next hak =>
      split
      · next hek =>
        subst hek
        split
        · exact hm
        · next hv => exact Memory.wf_cons.2 ⟨hlt, ha, hv, hm⟩
      · next hek =>
        split
        · exact h
        · next hv =>
          refine Memory.wf_cons.2 ⟨fun c hc => ?_, hk, hv, h⟩
          rcases List.mem_cons.1 hc with rfl | hc
          · simp only; omega
          · have := hlt c hc; omega

/-- A read after a write to the same symbol gives the value written. -/
theorem Memory.read_write_same {m : Memory} {k : Nat} {v : Word} (h : Memory.wf m) :
    Memory.read (Memory.write m k v) k = v := by
  induction m with
  | nil =>
    simp only [Memory.write]
    split <;> simp_all [Memory.read]
  | cons d m ih =>
    obtain ⟨a, w⟩ := d
    obtain ⟨hlt, ha, hw, hm⟩ := Memory.wf_cons.1 h
    simp only [Memory.write]
    split
    · next hak => simp [Memory.read, Nat.ne_of_lt hak, ih hm]
    · next hak =>
      split
      · next hek =>
        subst hek
        split
        · next hv => rw [hv]; exact Memory.read_below hlt
        · simp [Memory.read]
      · next hek =>
        split
        · next hv =>
          rw [hv]
          refine Memory.read_below fun c hc => ?_
          rcases List.mem_cons.1 hc with rfl | hc
          · simp only; omega
          · have := hlt c hc; omega
        · simp [Memory.read]

/-- A write leaves every other symbol's count alone. -/
theorem Memory.read_write_other {m : Memory} {j k : Nat} {v : Word} (hjk : j ≠ k) :
    Memory.read (Memory.write m k v) j = Memory.read m j := by
  induction m with
  | nil =>
    simp only [Memory.write]
    split <;> simp [Memory.read, Ne.symm hjk]
  | cons d m ih =>
    obtain ⟨a, w⟩ := d
    simp only [Memory.write]
    split
    · simp [Memory.read, ih]
    · split
      · next hek => subst hek; split <;> simp [Memory.read, Ne.symm hjk]
      · split <;> simp [Memory.read, Ne.symm hjk]

/-- Canonical tables that read the same are the same list. -/
theorem Memory.ext_of_wf {m m' : Memory} (h : Memory.wf m) (h' : Memory.wf m')
    (hr : ∀ k, Memory.read m k = Memory.read m' k) : m = m' := by
  induction m generalizing m' with
  | nil =>
    cases m' with
    | nil => rfl
    | cons d m' =>
      obtain ⟨a, w⟩ := d
      have := hr a
      simp [Memory.read] at this
      exact absurd this.symm (Memory.wf_cons.1 h').2.2.1
  | cons d m ih =>
    obtain ⟨a, w⟩ := d
    obtain ⟨hlt, ha, hw, hm⟩ := Memory.wf_cons.1 h
    cases m' with
    | nil =>
      have := hr a
      simp [Memory.read] at this
      exact absurd this hw
    | cons d' m' =>
      obtain ⟨a', w'⟩ := d'
      obtain ⟨hlt', ha', hw', hm'⟩ := Memory.wf_cons.1 h'
      have haa : a = a' := by
        rcases Nat.lt_trichotomy a a' with hl | he | hl
        · have h1 := hr a
          rw [Memory.read_below (m := (a', w') :: m')
            (by intro c hc; rcases List.mem_cons.1 hc with rfl | hc; exacts [hl, hl.trans (hlt' c hc)])] at h1
          simp [Memory.read] at h1
          exact absurd h1 hw
        · exact he
        · have h1 := hr a'
          rw [Memory.read_below (m := (a, w) :: m)
            (by intro c hc; rcases List.mem_cons.1 hc with rfl | hc; exacts [hl, hl.trans (hlt c hc)])] at h1
          simp [Memory.read] at h1
          exact absurd h1.symm hw'
      subst haa
      have hww : w = w' := by simpa [Memory.read] using hr a
      subst hww
      congr 1
      refine ih hm hm' fun k => ?_
      by_cases hk : a = k
      · subst hk
        rw [Memory.read_below hlt, Memory.read_below hlt']
      · simpa [Memory.read, hk] using hr k

/-- A symbol is present iff it is below NSYM and its count is not 0. -/
theorem Memory.mem_present {m : Memory} {k : Nat} :
    k ∈ m.present ↔ k < Config.nsym ∧ Memory.read m k ≠ 0#32 := by
  simp [Memory.present]

theorem Memory.present_nodup (m : Memory) : (Memory.present m).Nodup :=
  List.Nodup.filter _ List.nodup_range

theorem Memory.present_length_le (m : Memory) : (Memory.present m).length ≤ Config.nsym := by
  simpa [Memory.present] using List.length_filter_le (fun s => Memory.read m s != 0#32) (List.range Config.nsym)

end Sys2Proof.Machine
end

