-- ==== Sys2Proof/Laws/PerInstr.lean ====
section
/-! SUPPORT. Facts of every command, one lemma for each constructor of Instr. -/

namespace Sys2Proof.Laws.RoundTrip

/-- A well-formed command is read back from its word, and the word is legal (spec 30_encoding.md R91, R92). -/
def Statement (i : Instr) : Prop := i.wf = true ∧ decode (encode i) = .ok i ∧ legalWord (encode i) = true

theorem nop : Statement .nop := ⟨rfl, rfl, rfl⟩
theorem build : Statement .build := ⟨rfl, rfl, rfl⟩
theorem save : Statement .save := ⟨rfl, rfl, rfl⟩
theorem load : Statement .load := ⟨rfl, rfl, rfl⟩
theorem decode : Statement .decode := ⟨rfl, rfl, rfl⟩
theorem clearTree : Statement .clearTree := ⟨rfl, rfl, rfl⟩
theorem clearFreq : Statement .clearFreq := ⟨rfl, rfl, rfl⟩
theorem flush : Statement .flush := ⟨rfl, rfl, rfl⟩

end Sys2Proof.Laws.RoundTrip
end

