-- ==== Sys2Proof/Laws/Queue.lean ====
section
/-! SUPPORT. The laws of BUILD's queue: the order of spec 41_tree_builder.md R151 is a strict total order on entries with
different sequence numbers, and `extractMin` takes the least entry out. -/

namespace Sys2Proof.Machine

theorem QEntry.before_iff {x y : QEntry} : x.before y = true ↔ x.w < y.w ∨ (x.w = y.w ∧ x.seq < y.seq) := by
  simp [QEntry.before]

theorem QEntry.before_irrefl (x : QEntry) : x.before x = false := by simp [QEntry.before]

theorem QEntry.before_trans {x y z : QEntry} (h : x.before y = true) (h' : y.before z = true) :
    x.before z = true := by
  rw [QEntry.before_iff] at *
  omega

theorem QEntry.before_asymm {x y : QEntry} (h : x.before y = true) : y.before x = false := by
  rw [Bool.eq_false_iff, Ne, QEntry.before_iff]
  rw [QEntry.before_iff] at h
  omega

/-- Of two entries with different sequence numbers one comes before the other. -/
theorem QEntry.before_total {x y : QEntry} (h : x.seq ≠ y.seq) : x.before y = true ∨ y.before x = true := by
  simp only [QEntry.before_iff]
  omega

/-- `extractMin` only rearranges: the entry taken and the entries left are those of the queue. -/
theorem extractMin_perm (q : QEntry) (qs : List QEntry) :
    ((extractMin q qs).1 :: (extractMin q qs).2).Perm (q :: qs) := by
  induction qs generalizing q with
  | nil => exact List.Perm.refl _
  | cons r rs ih =>
    simp only [extractMin]
    split
    · exact List.Perm.refl _
    · exact (List.Perm.swap _ _ _).trans ((ih r).cons q)

theorem extractMin_length (q : QEntry) (qs : List QEntry) : (extractMin q qs).2.length = qs.length := by
  have := (extractMin_perm q qs).length_eq
  simpa using this

/-- The entry `extractMin` takes comes before every entry it leaves, when no two sequence numbers are the same. -/
theorem extractMin_least {q : QEntry} {qs : List QEntry} (h : ((q :: qs).map QEntry.seq).Nodup) :
    ∀ x ∈ (extractMin q qs).2, (extractMin q qs).1.before x = true := by
  induction qs generalizing q with
  | nil => simp [extractMin]
  | cons r rs ih =>
    have hr : ((r :: rs).map QEntry.seq).Nodup := (List.nodup_cons.1 h).2
    have hperm := extractMin_perm r rs
    have hleast := ih hr
    simp only [extractMin]
    split
    · next hb =>
      intro x hx
      rcases List.mem_cons.1 (hperm.mem_iff.2 hx) with rfl | hx
      · exact hb
      · exact QEntry.before_trans hb (hleast x hx)
    · next hb =>
      intro x hx
      rcases List.mem_cons.1 hx with rfl | hx
      · have hmem : (extractMin r rs).1 ∈ r :: rs := hperm.mem_iff.1 (List.mem_cons_self ..)
        have hne : x.seq ≠ (extractMin r rs).1.seq := by
          intro he
          exact (List.nodup_cons.1 h).1 (he ▸ List.mem_map_of_mem hmem)
        exact (QEntry.before_total hne).resolve_left hb
      · exact hleast x hx

/-- One merge of a queue of at least two entries: its two least entries are replaced by their merge. -/
theorem mergeOnce_spec {next : Nat} {q : List QEntry} (hq : 2 ≤ q.length) (h : (q.map QEntry.seq).Nodup) :
    ∃ a b rest, q.Perm (a :: b :: rest) ∧ (∀ x ∈ b :: rest, a.before x = true) ∧ (∀ x ∈ rest, b.before x = true) ∧
      mergeOnce next q = rest ++ [{ w := a.w + b.w, seq := next, t := .node a.t b.t }] := by
  obtain ⟨x, y, rs, rfl⟩ : ∃ x y rs, q = x :: y :: rs := by
    match q, hq with
    | x :: y :: rs, _ => exact ⟨x, y, rs, rfl⟩
  have hlen := extractMin_length x (y :: rs)
  have hperm := extractMin_perm x (y :: rs)
  have hleast := extractMin_least h
  obtain ⟨c, cs, hc⟩ : ∃ c cs, (extractMin x (y :: rs)).2 = c :: cs := by
    cases hr : (extractMin x (y :: rs)).2 with
    | nil => rw [hr] at hlen; simp at hlen
    | cons c cs => exact ⟨c, cs, rfl⟩
  rw [hc] at hperm hleast
  have hnd : ((c :: cs).map QEntry.seq).Nodup := by
    have : (((extractMin x (y :: rs)).1 :: c :: cs).map QEntry.seq).Nodup := (hperm.map _).nodup_iff.2 h
    exact (List.nodup_cons.1 this).2
  have hperm2 := extractMin_perm c cs
  refine ⟨(extractMin x (y :: rs)).1, (extractMin c cs).1, (extractMin c cs).2, ?_, ?_, extractMin_least hnd, ?_⟩
  · exact hperm.symm.trans (hperm2.symm.cons _)
  · intro z hz
    exact hleast z (hperm2.mem_iff.1 hz)
  · simp only [mergeOnce, hc]

end Sys2Proof.Machine
end

