-- ==== Sys2Proof/Laws/State.lean ====
section
/-! SUPPORT. One lemma per field per shared update of State, true by definition, so that no proof unfolds an update. -/

namespace Sys2Proof.Machine

/-! ### finish -/

@[simp] theorem finish_irqEn (s : State) : (finish s).irqEn = s.irqEn := rfl
@[simp] theorem finish_cmdLast (s : State) : (finish s).cmdLast = s.cmdLast := rfl
@[simp] theorem finish_done (s : State) : (finish s).done = true := rfl
@[simp] theorem finish_wTrail (s : State) : (finish s).wTrail = s.wTrail := rfl
@[simp] theorem finish_wDupsym (s : State) : (finish s).wDupsym = s.wDupsym := rfl
@[simp] theorem finish_ovr (s : State) : (finish s).ovr = s.ovr := rfl
@[simp] theorem finish_err (s : State) : (finish s).err = s.err := rfl
@[simp] theorem finish_errDetail (s : State) : (finish s).errDetail = s.errDetail := rfl
@[simp] theorem finish_lastOp (s : State) : (finish s).lastOp = s.lastOp := rfl
@[simp] theorem finish_leaves (s : State) : (finish s).leaves = s.leaves := rfl
@[simp] theorem finish_nodes (s : State) : (finish s).nodes = s.nodes := rfl
@[simp] theorem finish_weight (s : State) : (finish s).weight = s.weight := rfl
@[simp] theorem finish_decBits (s : State) : (finish s).decBits = s.decBits := rfl
@[simp] theorem finish_decSyms (s : State) : (finish s).decSyms = s.decSyms := rfl
@[simp] theorem finish_decDepth (s : State) : (finish s).decDepth = s.decDepth := rfl
@[simp] theorem finish_cbPairs (s : State) : (finish s).cbPairs = s.cbPairs := rfl
@[simp] theorem finish_cbLine (s : State) : (finish s).cbLine = s.cbLine := rfl
@[simp] theorem finish_freq (s : State) : (finish s).freq = s.freq := rfl
@[simp] theorem finish_tree (s : State) : (finish s).tree = s.tree := rfl
@[simp] theorem finish_op (s : State) : (finish s).op = .idle := rfl
@[simp] theorem finish_started (s : State) : (finish s).started = false := rfl
@[simp] theorem finish_out (s : State) : (finish s).out = s.out := rfl
@[simp] theorem finish_ld (s : State) : (finish s).ld = s.ld := rfl
@[simp] theorem finish_cur (s : State) : (finish s).cur = s.cur := rfl
@[simp] theorem finish_bitIn (s : State) : (finish s).bitIn = s.bitIn := rfl
@[simp] theorem finish_cbIn (s : State) : (finish s).cbIn = s.cbIn := rfl
@[simp] theorem finish_symOut (s : State) : (finish s).symOut = s.symOut := rfl
@[simp] theorem finish_cbOut (s : State) : (finish s).cbOut = s.cbOut := rfl
@[simp] theorem finish_sched (s : State) : (finish s).sched = s.sched := rfl
@[simp] theorem finish_hostProg (s : State) : (finish s).hostProg = s.hostProg := rfl
@[simp] theorem finish_hostReads (s : State) : (finish s).hostReads = s.hostReads := rfl
@[simp] theorem finish_bitSrc (s : State) : (finish s).bitSrc = s.bitSrc := rfl
@[simp] theorem finish_cbSrc (s : State) : (finish s).cbSrc = s.cbSrc := rfl
@[simp] theorem finish_symGot (s : State) : (finish s).symGot = s.symGot := rfl
@[simp] theorem finish_cbGot (s : State) : (finish s).cbGot = s.cbGot := rfl
@[simp] theorem finish_draws (s : State) : (finish s).draws = s.draws := rfl

/-! ### raiseErr -/

@[simp] theorem raiseErr_irqEn (e : ErrCode) (d : ErrDetail) (s : State) : (raiseErr e d s).irqEn = s.irqEn := rfl
@[simp] theorem raiseErr_cmdLast (e : ErrCode) (d : ErrDetail) (s : State) : (raiseErr e d s).cmdLast = s.cmdLast := rfl
@[simp] theorem raiseErr_done (e : ErrCode) (d : ErrDetail) (s : State) : (raiseErr e d s).done = true := rfl
@[simp] theorem raiseErr_wTrail (e : ErrCode) (d : ErrDetail) (s : State) : (raiseErr e d s).wTrail = s.wTrail := rfl
@[simp] theorem raiseErr_wDupsym (e : ErrCode) (d : ErrDetail) (s : State) : (raiseErr e d s).wDupsym = s.wDupsym := rfl
@[simp] theorem raiseErr_ovr (e : ErrCode) (d : ErrDetail) (s : State) : (raiseErr e d s).ovr = s.ovr := rfl
@[simp] theorem raiseErr_err (e : ErrCode) (d : ErrDetail) (s : State) : (raiseErr e d s).err = e := rfl
@[simp] theorem raiseErr_errDetail (e : ErrCode) (d : ErrDetail) (s : State) : (raiseErr e d s).errDetail = d := rfl
@[simp] theorem raiseErr_lastOp (e : ErrCode) (d : ErrDetail) (s : State) : (raiseErr e d s).lastOp = s.lastOp := rfl
@[simp] theorem raiseErr_leaves (e : ErrCode) (d : ErrDetail) (s : State) : (raiseErr e d s).leaves = s.leaves := rfl
@[simp] theorem raiseErr_nodes (e : ErrCode) (d : ErrDetail) (s : State) : (raiseErr e d s).nodes = s.nodes := rfl
@[simp] theorem raiseErr_weight (e : ErrCode) (d : ErrDetail) (s : State) : (raiseErr e d s).weight = s.weight := rfl
@[simp] theorem raiseErr_decBits (e : ErrCode) (d : ErrDetail) (s : State) : (raiseErr e d s).decBits = s.decBits := rfl
@[simp] theorem raiseErr_decSyms (e : ErrCode) (d : ErrDetail) (s : State) : (raiseErr e d s).decSyms = s.decSyms := rfl
@[simp] theorem raiseErr_decDepth (e : ErrCode) (d : ErrDetail) (s : State) : (raiseErr e d s).decDepth = s.decDepth := rfl
@[simp] theorem raiseErr_cbPairs (e : ErrCode) (d : ErrDetail) (s : State) : (raiseErr e d s).cbPairs = s.cbPairs := rfl
@[simp] theorem raiseErr_cbLine (e : ErrCode) (d : ErrDetail) (s : State) : (raiseErr e d s).cbLine = s.cbLine := rfl
@[simp] theorem raiseErr_freq (e : ErrCode) (d : ErrDetail) (s : State) : (raiseErr e d s).freq = s.freq := rfl
@[simp] theorem raiseErr_tree (e : ErrCode) (d : ErrDetail) (s : State) : (raiseErr e d s).tree = s.tree := rfl
@[simp] theorem raiseErr_op (e : ErrCode) (d : ErrDetail) (s : State) : (raiseErr e d s).op = .idle := rfl
@[simp] theorem raiseErr_started (e : ErrCode) (d : ErrDetail) (s : State) : (raiseErr e d s).started = false := rfl
@[simp] theorem raiseErr_out (e : ErrCode) (d : ErrDetail) (s : State) : (raiseErr e d s).out = s.out := rfl
@[simp] theorem raiseErr_ld (e : ErrCode) (d : ErrDetail) (s : State) : (raiseErr e d s).ld = s.ld := rfl
@[simp] theorem raiseErr_cur (e : ErrCode) (d : ErrDetail) (s : State) : (raiseErr e d s).cur = s.cur := rfl
@[simp] theorem raiseErr_bitIn (e : ErrCode) (d : ErrDetail) (s : State) : (raiseErr e d s).bitIn = s.bitIn := rfl
@[simp] theorem raiseErr_cbIn (e : ErrCode) (d : ErrDetail) (s : State) : (raiseErr e d s).cbIn = s.cbIn := rfl
@[simp] theorem raiseErr_symOut (e : ErrCode) (d : ErrDetail) (s : State) : (raiseErr e d s).symOut = s.symOut := rfl
@[simp] theorem raiseErr_cbOut (e : ErrCode) (d : ErrDetail) (s : State) : (raiseErr e d s).cbOut = s.cbOut := rfl
@[simp] theorem raiseErr_sched (e : ErrCode) (d : ErrDetail) (s : State) : (raiseErr e d s).sched = s.sched := rfl
@[simp] theorem raiseErr_hostProg (e : ErrCode) (d : ErrDetail) (s : State) : (raiseErr e d s).hostProg = s.hostProg := rfl
@[simp] theorem raiseErr_hostReads (e : ErrCode) (d : ErrDetail) (s : State) : (raiseErr e d s).hostReads = s.hostReads := rfl
@[simp] theorem raiseErr_bitSrc (e : ErrCode) (d : ErrDetail) (s : State) : (raiseErr e d s).bitSrc = s.bitSrc := rfl
@[simp] theorem raiseErr_cbSrc (e : ErrCode) (d : ErrDetail) (s : State) : (raiseErr e d s).cbSrc = s.cbSrc := rfl
@[simp] theorem raiseErr_symGot (e : ErrCode) (d : ErrDetail) (s : State) : (raiseErr e d s).symGot = s.symGot := rfl
@[simp] theorem raiseErr_cbGot (e : ErrCode) (d : ErrDetail) (s : State) : (raiseErr e d s).cbGot = s.cbGot := rfl
@[simp] theorem raiseErr_draws (e : ErrCode) (d : ErrDetail) (s : State) : (raiseErr e d s).draws = s.draws := rfl

/-! ### dropTree -/

@[simp] theorem dropTree_irqEn (s : State) : (dropTree s).irqEn = s.irqEn := rfl
@[simp] theorem dropTree_cmdLast (s : State) : (dropTree s).cmdLast = s.cmdLast := rfl
@[simp] theorem dropTree_done (s : State) : (dropTree s).done = s.done := rfl
@[simp] theorem dropTree_wTrail (s : State) : (dropTree s).wTrail = s.wTrail := rfl
@[simp] theorem dropTree_wDupsym (s : State) : (dropTree s).wDupsym = s.wDupsym := rfl
@[simp] theorem dropTree_ovr (s : State) : (dropTree s).ovr = s.ovr := rfl
@[simp] theorem dropTree_err (s : State) : (dropTree s).err = s.err := rfl
@[simp] theorem dropTree_errDetail (s : State) : (dropTree s).errDetail = s.errDetail := rfl
@[simp] theorem dropTree_lastOp (s : State) : (dropTree s).lastOp = s.lastOp := rfl
@[simp] theorem dropTree_leaves (s : State) : (dropTree s).leaves = 0#10 := rfl
@[simp] theorem dropTree_nodes (s : State) : (dropTree s).nodes = 0#10 := rfl
@[simp] theorem dropTree_weight (s : State) : (dropTree s).weight = 0#40 := rfl
@[simp] theorem dropTree_decBits (s : State) : (dropTree s).decBits = s.decBits := rfl
@[simp] theorem dropTree_decSyms (s : State) : (dropTree s).decSyms = s.decSyms := rfl
@[simp] theorem dropTree_decDepth (s : State) : (dropTree s).decDepth = s.decDepth := rfl
@[simp] theorem dropTree_cbPairs (s : State) : (dropTree s).cbPairs = s.cbPairs := rfl
@[simp] theorem dropTree_cbLine (s : State) : (dropTree s).cbLine = s.cbLine := rfl
@[simp] theorem dropTree_freq (s : State) : (dropTree s).freq = s.freq := rfl
@[simp] theorem dropTree_tree (s : State) : (dropTree s).tree = .absent := rfl
@[simp] theorem dropTree_op (s : State) : (dropTree s).op = s.op := rfl
@[simp] theorem dropTree_started (s : State) : (dropTree s).started = s.started := rfl
@[simp] theorem dropTree_out (s : State) : (dropTree s).out = s.out := rfl
@[simp] theorem dropTree_ld (s : State) : (dropTree s).ld = s.ld := rfl
@[simp] theorem dropTree_cur (s : State) : (dropTree s).cur = s.cur := rfl
@[simp] theorem dropTree_bitIn (s : State) : (dropTree s).bitIn = s.bitIn := rfl
@[simp] theorem dropTree_cbIn (s : State) : (dropTree s).cbIn = s.cbIn := rfl
@[simp] theorem dropTree_symOut (s : State) : (dropTree s).symOut = s.symOut := rfl
@[simp] theorem dropTree_cbOut (s : State) : (dropTree s).cbOut = s.cbOut := rfl
@[simp] theorem dropTree_sched (s : State) : (dropTree s).sched = s.sched := rfl
@[simp] theorem dropTree_hostProg (s : State) : (dropTree s).hostProg = s.hostProg := rfl
@[simp] theorem dropTree_hostReads (s : State) : (dropTree s).hostReads = s.hostReads := rfl
@[simp] theorem dropTree_bitSrc (s : State) : (dropTree s).bitSrc = s.bitSrc := rfl
@[simp] theorem dropTree_cbSrc (s : State) : (dropTree s).cbSrc = s.cbSrc := rfl
@[simp] theorem dropTree_symGot (s : State) : (dropTree s).symGot = s.symGot := rfl
@[simp] theorem dropTree_cbGot (s : State) : (dropTree s).cbGot = s.cbGot := rfl
@[simp] theorem dropTree_draws (s : State) : (dropTree s).draws = s.draws := rfl

/-! ### installTree -/

@[simp] theorem installTree_irqEn (t : TreeSlot) (a b w : Nat) (s : State) : (installTree t a b w s).irqEn = s.irqEn := rfl
@[simp] theorem installTree_cmdLast (t : TreeSlot) (a b w : Nat) (s : State) : (installTree t a b w s).cmdLast = s.cmdLast := rfl
@[simp] theorem installTree_done (t : TreeSlot) (a b w : Nat) (s : State) : (installTree t a b w s).done = s.done := rfl
@[simp] theorem installTree_wTrail (t : TreeSlot) (a b w : Nat) (s : State) : (installTree t a b w s).wTrail = s.wTrail := rfl
@[simp] theorem installTree_wDupsym (t : TreeSlot) (a b w : Nat) (s : State) : (installTree t a b w s).wDupsym = s.wDupsym := rfl
@[simp] theorem installTree_ovr (t : TreeSlot) (a b w : Nat) (s : State) : (installTree t a b w s).ovr = s.ovr := rfl
@[simp] theorem installTree_err (t : TreeSlot) (a b w : Nat) (s : State) : (installTree t a b w s).err = s.err := rfl
@[simp] theorem installTree_errDetail (t : TreeSlot) (a b w : Nat) (s : State) : (installTree t a b w s).errDetail = s.errDetail := rfl
@[simp] theorem installTree_lastOp (t : TreeSlot) (a b w : Nat) (s : State) : (installTree t a b w s).lastOp = s.lastOp := rfl
@[simp] theorem installTree_leaves (t : TreeSlot) (a b w : Nat) (s : State) : (installTree t a b w s).leaves = BitVec.ofNat 10 a := rfl
@[simp] theorem installTree_nodes (t : TreeSlot) (a b w : Nat) (s : State) : (installTree t a b w s).nodes = BitVec.ofNat 10 b := rfl
@[simp] theorem installTree_weight (t : TreeSlot) (a b w : Nat) (s : State) : (installTree t a b w s).weight = BitVec.ofNat 40 w := rfl
@[simp] theorem installTree_decBits (t : TreeSlot) (a b w : Nat) (s : State) : (installTree t a b w s).decBits = s.decBits := rfl
@[simp] theorem installTree_decSyms (t : TreeSlot) (a b w : Nat) (s : State) : (installTree t a b w s).decSyms = s.decSyms := rfl
@[simp] theorem installTree_decDepth (t : TreeSlot) (a b w : Nat) (s : State) : (installTree t a b w s).decDepth = s.decDepth := rfl
@[simp] theorem installTree_cbPairs (t : TreeSlot) (a b w : Nat) (s : State) : (installTree t a b w s).cbPairs = s.cbPairs := rfl
@[simp] theorem installTree_cbLine (t : TreeSlot) (a b w : Nat) (s : State) : (installTree t a b w s).cbLine = s.cbLine := rfl
@[simp] theorem installTree_freq (t : TreeSlot) (a b w : Nat) (s : State) : (installTree t a b w s).freq = s.freq := rfl
@[simp] theorem installTree_tree (t : TreeSlot) (a b w : Nat) (s : State) : (installTree t a b w s).tree = t := rfl
@[simp] theorem installTree_op (t : TreeSlot) (a b w : Nat) (s : State) : (installTree t a b w s).op = s.op := rfl
@[simp] theorem installTree_started (t : TreeSlot) (a b w : Nat) (s : State) : (installTree t a b w s).started = s.started := rfl
@[simp] theorem installTree_out (t : TreeSlot) (a b w : Nat) (s : State) : (installTree t a b w s).out = s.out := rfl
@[simp] theorem installTree_ld (t : TreeSlot) (a b w : Nat) (s : State) : (installTree t a b w s).ld = s.ld := rfl
@[simp] theorem installTree_cur (t : TreeSlot) (a b w : Nat) (s : State) : (installTree t a b w s).cur = s.cur := rfl
@[simp] theorem installTree_bitIn (t : TreeSlot) (a b w : Nat) (s : State) : (installTree t a b w s).bitIn = s.bitIn := rfl
@[simp] theorem installTree_cbIn (t : TreeSlot) (a b w : Nat) (s : State) : (installTree t a b w s).cbIn = s.cbIn := rfl
@[simp] theorem installTree_symOut (t : TreeSlot) (a b w : Nat) (s : State) : (installTree t a b w s).symOut = s.symOut := rfl
@[simp] theorem installTree_cbOut (t : TreeSlot) (a b w : Nat) (s : State) : (installTree t a b w s).cbOut = s.cbOut := rfl
@[simp] theorem installTree_sched (t : TreeSlot) (a b w : Nat) (s : State) : (installTree t a b w s).sched = s.sched := rfl
@[simp] theorem installTree_hostProg (t : TreeSlot) (a b w : Nat) (s : State) : (installTree t a b w s).hostProg = s.hostProg := rfl
@[simp] theorem installTree_hostReads (t : TreeSlot) (a b w : Nat) (s : State) : (installTree t a b w s).hostReads = s.hostReads := rfl
@[simp] theorem installTree_bitSrc (t : TreeSlot) (a b w : Nat) (s : State) : (installTree t a b w s).bitSrc = s.bitSrc := rfl
@[simp] theorem installTree_cbSrc (t : TreeSlot) (a b w : Nat) (s : State) : (installTree t a b w s).cbSrc = s.cbSrc := rfl
@[simp] theorem installTree_symGot (t : TreeSlot) (a b w : Nat) (s : State) : (installTree t a b w s).symGot = s.symGot := rfl
@[simp] theorem installTree_cbGot (t : TreeSlot) (a b w : Nat) (s : State) : (installTree t a b w s).cbGot = s.cbGot := rfl
@[simp] theorem installTree_draws (t : TreeSlot) (a b w : Nat) (s : State) : (installTree t a b w s).draws = s.draws := rfl

/-! ### pushCb -/

@[simp] theorem pushCb_irqEn (x : CbXfer) (s : State) : (pushCb x s).irqEn = s.irqEn := rfl
@[simp] theorem pushCb_cmdLast (x : CbXfer) (s : State) : (pushCb x s).cmdLast = s.cmdLast := rfl
@[simp] theorem pushCb_done (x : CbXfer) (s : State) : (pushCb x s).done = s.done := rfl
@[simp] theorem pushCb_wTrail (x : CbXfer) (s : State) : (pushCb x s).wTrail = s.wTrail := rfl
@[simp] theorem pushCb_wDupsym (x : CbXfer) (s : State) : (pushCb x s).wDupsym = s.wDupsym := rfl
@[simp] theorem pushCb_ovr (x : CbXfer) (s : State) : (pushCb x s).ovr = s.ovr := rfl
@[simp] theorem pushCb_err (x : CbXfer) (s : State) : (pushCb x s).err = s.err := rfl
@[simp] theorem pushCb_errDetail (x : CbXfer) (s : State) : (pushCb x s).errDetail = s.errDetail := rfl
@[simp] theorem pushCb_lastOp (x : CbXfer) (s : State) : (pushCb x s).lastOp = s.lastOp := rfl
@[simp] theorem pushCb_leaves (x : CbXfer) (s : State) : (pushCb x s).leaves = s.leaves := rfl
@[simp] theorem pushCb_nodes (x : CbXfer) (s : State) : (pushCb x s).nodes = s.nodes := rfl
@[simp] theorem pushCb_weight (x : CbXfer) (s : State) : (pushCb x s).weight = s.weight := rfl
@[simp] theorem pushCb_decBits (x : CbXfer) (s : State) : (pushCb x s).decBits = s.decBits := rfl
@[simp] theorem pushCb_decSyms (x : CbXfer) (s : State) : (pushCb x s).decSyms = s.decSyms := rfl
@[simp] theorem pushCb_decDepth (x : CbXfer) (s : State) : (pushCb x s).decDepth = s.decDepth := rfl
@[simp] theorem pushCb_cbPairs (x : CbXfer) (s : State) : (pushCb x s).cbPairs = s.cbPairs := rfl
@[simp] theorem pushCb_cbLine (x : CbXfer) (s : State) : (pushCb x s).cbLine = s.cbLine := rfl
@[simp] theorem pushCb_freq (x : CbXfer) (s : State) : (pushCb x s).freq = s.freq := rfl
@[simp] theorem pushCb_tree (x : CbXfer) (s : State) : (pushCb x s).tree = s.tree := rfl
@[simp] theorem pushCb_op (x : CbXfer) (s : State) : (pushCb x s).op = s.op := rfl
@[simp] theorem pushCb_started (x : CbXfer) (s : State) : (pushCb x s).started = s.started := rfl
@[simp] theorem pushCb_out (x : CbXfer) (s : State) : (pushCb x s).out = s.out := rfl
@[simp] theorem pushCb_ld (x : CbXfer) (s : State) : (pushCb x s).ld = s.ld := rfl
@[simp] theorem pushCb_cur (x : CbXfer) (s : State) : (pushCb x s).cur = s.cur := rfl
@[simp] theorem pushCb_bitIn (x : CbXfer) (s : State) : (pushCb x s).bitIn = s.bitIn := rfl
@[simp] theorem pushCb_cbIn (x : CbXfer) (s : State) : (pushCb x s).cbIn = s.cbIn := rfl
@[simp] theorem pushCb_symOut (x : CbXfer) (s : State) : (pushCb x s).symOut = s.symOut := rfl
@[simp] theorem pushCb_cbOut (x : CbXfer) (s : State) : (pushCb x s).cbOut = s.cbOut ++ [x] := rfl
@[simp] theorem pushCb_sched (x : CbXfer) (s : State) : (pushCb x s).sched = s.sched := rfl
@[simp] theorem pushCb_hostProg (x : CbXfer) (s : State) : (pushCb x s).hostProg = s.hostProg := rfl
@[simp] theorem pushCb_hostReads (x : CbXfer) (s : State) : (pushCb x s).hostReads = s.hostReads := rfl
@[simp] theorem pushCb_bitSrc (x : CbXfer) (s : State) : (pushCb x s).bitSrc = s.bitSrc := rfl
@[simp] theorem pushCb_cbSrc (x : CbXfer) (s : State) : (pushCb x s).cbSrc = s.cbSrc := rfl
@[simp] theorem pushCb_symGot (x : CbXfer) (s : State) : (pushCb x s).symGot = s.symGot := rfl
@[simp] theorem pushCb_cbGot (x : CbXfer) (s : State) : (pushCb x s).cbGot = s.cbGot := rfl
@[simp] theorem pushCb_draws (x : CbXfer) (s : State) : (pushCb x s).draws = s.draws := rfl

/-! ### pushSym -/

@[simp] theorem pushSym_irqEn (v : Sym) (s : State) : (pushSym v s).irqEn = s.irqEn := rfl
@[simp] theorem pushSym_cmdLast (v : Sym) (s : State) : (pushSym v s).cmdLast = s.cmdLast := rfl
@[simp] theorem pushSym_done (v : Sym) (s : State) : (pushSym v s).done = s.done := rfl
@[simp] theorem pushSym_wTrail (v : Sym) (s : State) : (pushSym v s).wTrail = s.wTrail := rfl
@[simp] theorem pushSym_wDupsym (v : Sym) (s : State) : (pushSym v s).wDupsym = s.wDupsym := rfl
@[simp] theorem pushSym_ovr (v : Sym) (s : State) : (pushSym v s).ovr = s.ovr := rfl
@[simp] theorem pushSym_err (v : Sym) (s : State) : (pushSym v s).err = s.err := rfl
@[simp] theorem pushSym_errDetail (v : Sym) (s : State) : (pushSym v s).errDetail = s.errDetail := rfl
@[simp] theorem pushSym_lastOp (v : Sym) (s : State) : (pushSym v s).lastOp = s.lastOp := rfl
@[simp] theorem pushSym_leaves (v : Sym) (s : State) : (pushSym v s).leaves = s.leaves := rfl
@[simp] theorem pushSym_nodes (v : Sym) (s : State) : (pushSym v s).nodes = s.nodes := rfl
@[simp] theorem pushSym_weight (v : Sym) (s : State) : (pushSym v s).weight = s.weight := rfl
@[simp] theorem pushSym_decBits (v : Sym) (s : State) : (pushSym v s).decBits = s.decBits := rfl
@[simp] theorem pushSym_decSyms (v : Sym) (s : State) : (pushSym v s).decSyms = s.decSyms := rfl
@[simp] theorem pushSym_decDepth (v : Sym) (s : State) : (pushSym v s).decDepth = s.decDepth := rfl
@[simp] theorem pushSym_cbPairs (v : Sym) (s : State) : (pushSym v s).cbPairs = s.cbPairs := rfl
@[simp] theorem pushSym_cbLine (v : Sym) (s : State) : (pushSym v s).cbLine = s.cbLine := rfl
@[simp] theorem pushSym_freq (v : Sym) (s : State) : (pushSym v s).freq = s.freq := rfl
@[simp] theorem pushSym_tree (v : Sym) (s : State) : (pushSym v s).tree = s.tree := rfl
@[simp] theorem pushSym_op (v : Sym) (s : State) : (pushSym v s).op = s.op := rfl
@[simp] theorem pushSym_started (v : Sym) (s : State) : (pushSym v s).started = s.started := rfl
@[simp] theorem pushSym_out (v : Sym) (s : State) : (pushSym v s).out = s.out := rfl
@[simp] theorem pushSym_ld (v : Sym) (s : State) : (pushSym v s).ld = s.ld := rfl
@[simp] theorem pushSym_cur (v : Sym) (s : State) : (pushSym v s).cur = s.cur := rfl
@[simp] theorem pushSym_bitIn (v : Sym) (s : State) : (pushSym v s).bitIn = s.bitIn := rfl
@[simp] theorem pushSym_cbIn (v : Sym) (s : State) : (pushSym v s).cbIn = s.cbIn := rfl
@[simp] theorem pushSym_symOut (v : Sym) (s : State) : (pushSym v s).symOut = s.symOut ++ [v] := rfl
@[simp] theorem pushSym_cbOut (v : Sym) (s : State) : (pushSym v s).cbOut = s.cbOut := rfl
@[simp] theorem pushSym_sched (v : Sym) (s : State) : (pushSym v s).sched = s.sched := rfl
@[simp] theorem pushSym_hostProg (v : Sym) (s : State) : (pushSym v s).hostProg = s.hostProg := rfl
@[simp] theorem pushSym_hostReads (v : Sym) (s : State) : (pushSym v s).hostReads = s.hostReads := rfl
@[simp] theorem pushSym_bitSrc (v : Sym) (s : State) : (pushSym v s).bitSrc = s.bitSrc := rfl
@[simp] theorem pushSym_cbSrc (v : Sym) (s : State) : (pushSym v s).cbSrc = s.cbSrc := rfl
@[simp] theorem pushSym_symGot (v : Sym) (s : State) : (pushSym v s).symGot = s.symGot := rfl
@[simp] theorem pushSym_cbGot (v : Sym) (s : State) : (pushSym v s).cbGot = s.cbGot := rfl
@[simp] theorem pushSym_draws (v : Sym) (s : State) : (pushSym v s).draws = s.draws := rfl

/-! ### setOvr -/

@[simp] theorem setOvr_irqEn (s : State) : (setOvr s).irqEn = s.irqEn := rfl
@[simp] theorem setOvr_cmdLast (s : State) : (setOvr s).cmdLast = s.cmdLast := rfl
@[simp] theorem setOvr_done (s : State) : (setOvr s).done = s.done := rfl
@[simp] theorem setOvr_wTrail (s : State) : (setOvr s).wTrail = s.wTrail := rfl
@[simp] theorem setOvr_wDupsym (s : State) : (setOvr s).wDupsym = s.wDupsym := rfl
@[simp] theorem setOvr_ovr (s : State) : (setOvr s).ovr = true := rfl
@[simp] theorem setOvr_err (s : State) : (setOvr s).err = s.err := rfl
@[simp] theorem setOvr_errDetail (s : State) : (setOvr s).errDetail = s.errDetail := rfl
@[simp] theorem setOvr_lastOp (s : State) : (setOvr s).lastOp = s.lastOp := rfl
@[simp] theorem setOvr_leaves (s : State) : (setOvr s).leaves = s.leaves := rfl
@[simp] theorem setOvr_nodes (s : State) : (setOvr s).nodes = s.nodes := rfl
@[simp] theorem setOvr_weight (s : State) : (setOvr s).weight = s.weight := rfl
@[simp] theorem setOvr_decBits (s : State) : (setOvr s).decBits = s.decBits := rfl
@[simp] theorem setOvr_decSyms (s : State) : (setOvr s).decSyms = s.decSyms := rfl
@[simp] theorem setOvr_decDepth (s : State) : (setOvr s).decDepth = s.decDepth := rfl
@[simp] theorem setOvr_cbPairs (s : State) : (setOvr s).cbPairs = s.cbPairs := rfl
@[simp] theorem setOvr_cbLine (s : State) : (setOvr s).cbLine = s.cbLine := rfl
@[simp] theorem setOvr_freq (s : State) : (setOvr s).freq = s.freq := rfl
@[simp] theorem setOvr_tree (s : State) : (setOvr s).tree = s.tree := rfl
@[simp] theorem setOvr_op (s : State) : (setOvr s).op = s.op := rfl
@[simp] theorem setOvr_started (s : State) : (setOvr s).started = s.started := rfl
@[simp] theorem setOvr_out (s : State) : (setOvr s).out = s.out := rfl
@[simp] theorem setOvr_ld (s : State) : (setOvr s).ld = s.ld := rfl
@[simp] theorem setOvr_cur (s : State) : (setOvr s).cur = s.cur := rfl
@[simp] theorem setOvr_bitIn (s : State) : (setOvr s).bitIn = s.bitIn := rfl
@[simp] theorem setOvr_cbIn (s : State) : (setOvr s).cbIn = s.cbIn := rfl
@[simp] theorem setOvr_symOut (s : State) : (setOvr s).symOut = s.symOut := rfl
@[simp] theorem setOvr_cbOut (s : State) : (setOvr s).cbOut = s.cbOut := rfl
@[simp] theorem setOvr_sched (s : State) : (setOvr s).sched = s.sched := rfl
@[simp] theorem setOvr_hostProg (s : State) : (setOvr s).hostProg = s.hostProg := rfl
@[simp] theorem setOvr_hostReads (s : State) : (setOvr s).hostReads = s.hostReads := rfl
@[simp] theorem setOvr_bitSrc (s : State) : (setOvr s).bitSrc = s.bitSrc := rfl
@[simp] theorem setOvr_cbSrc (s : State) : (setOvr s).cbSrc = s.cbSrc := rfl
@[simp] theorem setOvr_symGot (s : State) : (setOvr s).symGot = s.symGot := rfl
@[simp] theorem setOvr_cbGot (s : State) : (setOvr s).cbGot = s.cbGot := rfl
@[simp] theorem setOvr_draws (s : State) : (setOvr s).draws = s.draws := rfl

/-! ### clearFlags -/

@[simp] theorem clearFlags_irqEn (s : State) : (clearFlags s).irqEn = s.irqEn := rfl
@[simp] theorem clearFlags_cmdLast (s : State) : (clearFlags s).cmdLast = s.cmdLast := rfl
@[simp] theorem clearFlags_done (s : State) : (clearFlags s).done = false := rfl
@[simp] theorem clearFlags_wTrail (s : State) : (clearFlags s).wTrail = false := rfl
@[simp] theorem clearFlags_wDupsym (s : State) : (clearFlags s).wDupsym = false := rfl
@[simp] theorem clearFlags_ovr (s : State) : (clearFlags s).ovr = s.ovr := rfl
@[simp] theorem clearFlags_err (s : State) : (clearFlags s).err = .none := rfl
@[simp] theorem clearFlags_errDetail (s : State) : (clearFlags s).errDetail = .none := rfl
@[simp] theorem clearFlags_lastOp (s : State) : (clearFlags s).lastOp = s.lastOp := rfl
@[simp] theorem clearFlags_leaves (s : State) : (clearFlags s).leaves = s.leaves := rfl
@[simp] theorem clearFlags_nodes (s : State) : (clearFlags s).nodes = s.nodes := rfl
@[simp] theorem clearFlags_weight (s : State) : (clearFlags s).weight = s.weight := rfl
@[simp] theorem clearFlags_decBits (s : State) : (clearFlags s).decBits = s.decBits := rfl
@[simp] theorem clearFlags_decSyms (s : State) : (clearFlags s).decSyms = s.decSyms := rfl
@[simp] theorem clearFlags_decDepth (s : State) : (clearFlags s).decDepth = s.decDepth := rfl
@[simp] theorem clearFlags_cbPairs (s : State) : (clearFlags s).cbPairs = s.cbPairs := rfl
@[simp] theorem clearFlags_cbLine (s : State) : (clearFlags s).cbLine = s.cbLine := rfl
@[simp] theorem clearFlags_freq (s : State) : (clearFlags s).freq = s.freq := rfl
@[simp] theorem clearFlags_tree (s : State) : (clearFlags s).tree = s.tree := rfl
@[simp] theorem clearFlags_op (s : State) : (clearFlags s).op = s.op := rfl
@[simp] theorem clearFlags_started (s : State) : (clearFlags s).started = s.started := rfl
@[simp] theorem clearFlags_out (s : State) : (clearFlags s).out = s.out := rfl
@[simp] theorem clearFlags_ld (s : State) : (clearFlags s).ld = s.ld := rfl
@[simp] theorem clearFlags_cur (s : State) : (clearFlags s).cur = s.cur := rfl
@[simp] theorem clearFlags_bitIn (s : State) : (clearFlags s).bitIn = s.bitIn := rfl
@[simp] theorem clearFlags_cbIn (s : State) : (clearFlags s).cbIn = s.cbIn := rfl
@[simp] theorem clearFlags_symOut (s : State) : (clearFlags s).symOut = s.symOut := rfl
@[simp] theorem clearFlags_cbOut (s : State) : (clearFlags s).cbOut = s.cbOut := rfl
@[simp] theorem clearFlags_sched (s : State) : (clearFlags s).sched = s.sched := rfl
@[simp] theorem clearFlags_hostProg (s : State) : (clearFlags s).hostProg = s.hostProg := rfl
@[simp] theorem clearFlags_hostReads (s : State) : (clearFlags s).hostReads = s.hostReads := rfl
@[simp] theorem clearFlags_bitSrc (s : State) : (clearFlags s).bitSrc = s.bitSrc := rfl
@[simp] theorem clearFlags_cbSrc (s : State) : (clearFlags s).cbSrc = s.cbSrc := rfl
@[simp] theorem clearFlags_symGot (s : State) : (clearFlags s).symGot = s.symGot := rfl
@[simp] theorem clearFlags_cbGot (s : State) : (clearFlags s).cbGot = s.cbGot := rfl
@[simp] theorem clearFlags_draws (s : State) : (clearFlags s).draws = s.draws := rfl

/-! ### acceptCommand -/

@[simp] theorem acceptCommand_irqEn (w : Word) (s : State) : (acceptCommand w s).irqEn = s.irqEn := rfl
@[simp] theorem acceptCommand_cmdLast (w : Word) (s : State) : (acceptCommand w s).cmdLast = w := rfl
@[simp] theorem acceptCommand_done (w : Word) (s : State) : (acceptCommand w s).done = false := rfl
@[simp] theorem acceptCommand_wTrail (w : Word) (s : State) : (acceptCommand w s).wTrail = false := rfl
@[simp] theorem acceptCommand_wDupsym (w : Word) (s : State) : (acceptCommand w s).wDupsym = false := rfl
@[simp] theorem acceptCommand_ovr (w : Word) (s : State) : (acceptCommand w s).ovr = s.ovr := rfl
@[simp] theorem acceptCommand_err (w : Word) (s : State) : (acceptCommand w s).err = .none := rfl
@[simp] theorem acceptCommand_errDetail (w : Word) (s : State) : (acceptCommand w s).errDetail = .none := rfl
@[simp] theorem acceptCommand_lastOp (w : Word) (s : State) : (acceptCommand w s).lastOp = w.extractLsb 3 0 := rfl
@[simp] theorem acceptCommand_leaves (w : Word) (s : State) : (acceptCommand w s).leaves = s.leaves := rfl
@[simp] theorem acceptCommand_nodes (w : Word) (s : State) : (acceptCommand w s).nodes = s.nodes := rfl
@[simp] theorem acceptCommand_weight (w : Word) (s : State) : (acceptCommand w s).weight = s.weight := rfl
@[simp] theorem acceptCommand_decBits (w : Word) (s : State) : (acceptCommand w s).decBits = s.decBits := rfl
@[simp] theorem acceptCommand_decSyms (w : Word) (s : State) : (acceptCommand w s).decSyms = s.decSyms := rfl
@[simp] theorem acceptCommand_decDepth (w : Word) (s : State) : (acceptCommand w s).decDepth = s.decDepth := rfl
@[simp] theorem acceptCommand_cbPairs (w : Word) (s : State) : (acceptCommand w s).cbPairs = s.cbPairs := rfl
@[simp] theorem acceptCommand_cbLine (w : Word) (s : State) : (acceptCommand w s).cbLine = s.cbLine := rfl
@[simp] theorem acceptCommand_freq (w : Word) (s : State) : (acceptCommand w s).freq = s.freq := rfl
@[simp] theorem acceptCommand_tree (w : Word) (s : State) : (acceptCommand w s).tree = s.tree := rfl
@[simp] theorem acceptCommand_op (w : Word) (s : State) : (acceptCommand w s).op = opOfWord w := rfl
@[simp] theorem acceptCommand_started (w : Word) (s : State) : (acceptCommand w s).started = false := rfl
@[simp] theorem acceptCommand_out (w : Word) (s : State) : (acceptCommand w s).out = s.out := rfl
@[simp] theorem acceptCommand_ld (w : Word) (s : State) : (acceptCommand w s).ld = s.ld := rfl
@[simp] theorem acceptCommand_cur (w : Word) (s : State) : (acceptCommand w s).cur = s.cur := rfl
@[simp] theorem acceptCommand_bitIn (w : Word) (s : State) : (acceptCommand w s).bitIn = s.bitIn := rfl
@[simp] theorem acceptCommand_cbIn (w : Word) (s : State) : (acceptCommand w s).cbIn = s.cbIn := rfl
@[simp] theorem acceptCommand_symOut (w : Word) (s : State) : (acceptCommand w s).symOut = s.symOut := rfl
@[simp] theorem acceptCommand_cbOut (w : Word) (s : State) : (acceptCommand w s).cbOut = s.cbOut := rfl
@[simp] theorem acceptCommand_sched (w : Word) (s : State) : (acceptCommand w s).sched = s.sched := rfl
@[simp] theorem acceptCommand_hostProg (w : Word) (s : State) : (acceptCommand w s).hostProg = s.hostProg := rfl
@[simp] theorem acceptCommand_hostReads (w : Word) (s : State) : (acceptCommand w s).hostReads = s.hostReads := rfl
@[simp] theorem acceptCommand_bitSrc (w : Word) (s : State) : (acceptCommand w s).bitSrc = s.bitSrc := rfl
@[simp] theorem acceptCommand_cbSrc (w : Word) (s : State) : (acceptCommand w s).cbSrc = s.cbSrc := rfl
@[simp] theorem acceptCommand_symGot (w : Word) (s : State) : (acceptCommand w s).symGot = s.symGot := rfl
@[simp] theorem acceptCommand_cbGot (w : Word) (s : State) : (acceptCommand w s).cbGot = s.cbGot := rfl
@[simp] theorem acceptCommand_draws (w : Word) (s : State) : (acceptCommand w s).draws = s.draws := rfl

/-! ### statusWrite -/

@[simp] theorem statusWrite_irqEn (v : Word) (s : State) : (statusWrite v s).irqEn = s.irqEn := rfl
@[simp] theorem statusWrite_cmdLast (v : Word) (s : State) : (statusWrite v s).cmdLast = s.cmdLast := rfl
@[simp] theorem statusWrite_done (v : Word) (s : State) : (statusWrite v s).done = (s.done && !v.getLsbD 1) := rfl
@[simp] theorem statusWrite_wTrail (v : Word) (s : State) : (statusWrite v s).wTrail = s.wTrail := rfl
@[simp] theorem statusWrite_wDupsym (v : Word) (s : State) : (statusWrite v s).wDupsym = s.wDupsym := rfl
@[simp] theorem statusWrite_ovr (v : Word) (s : State) : (statusWrite v s).ovr = (s.ovr && !v.getLsbD 5) := rfl
@[simp] theorem statusWrite_err (v : Word) (s : State) : (statusWrite v s).err = s.err := rfl
@[simp] theorem statusWrite_errDetail (v : Word) (s : State) : (statusWrite v s).errDetail = s.errDetail := rfl
@[simp] theorem statusWrite_lastOp (v : Word) (s : State) : (statusWrite v s).lastOp = s.lastOp := rfl
@[simp] theorem statusWrite_leaves (v : Word) (s : State) : (statusWrite v s).leaves = s.leaves := rfl
@[simp] theorem statusWrite_nodes (v : Word) (s : State) : (statusWrite v s).nodes = s.nodes := rfl
@[simp] theorem statusWrite_weight (v : Word) (s : State) : (statusWrite v s).weight = s.weight := rfl
@[simp] theorem statusWrite_decBits (v : Word) (s : State) : (statusWrite v s).decBits = s.decBits := rfl
@[simp] theorem statusWrite_decSyms (v : Word) (s : State) : (statusWrite v s).decSyms = s.decSyms := rfl
@[simp] theorem statusWrite_decDepth (v : Word) (s : State) : (statusWrite v s).decDepth = s.decDepth := rfl
@[simp] theorem statusWrite_cbPairs (v : Word) (s : State) : (statusWrite v s).cbPairs = s.cbPairs := rfl
@[simp] theorem statusWrite_cbLine (v : Word) (s : State) : (statusWrite v s).cbLine = s.cbLine := rfl
@[simp] theorem statusWrite_freq (v : Word) (s : State) : (statusWrite v s).freq = s.freq := rfl
@[simp] theorem statusWrite_tree (v : Word) (s : State) : (statusWrite v s).tree = s.tree := rfl
@[simp] theorem statusWrite_op (v : Word) (s : State) : (statusWrite v s).op = s.op := rfl
@[simp] theorem statusWrite_started (v : Word) (s : State) : (statusWrite v s).started = s.started := rfl
@[simp] theorem statusWrite_out (v : Word) (s : State) : (statusWrite v s).out = s.out := rfl
@[simp] theorem statusWrite_ld (v : Word) (s : State) : (statusWrite v s).ld = s.ld := rfl
@[simp] theorem statusWrite_cur (v : Word) (s : State) : (statusWrite v s).cur = s.cur := rfl
@[simp] theorem statusWrite_bitIn (v : Word) (s : State) : (statusWrite v s).bitIn = s.bitIn := rfl
@[simp] theorem statusWrite_cbIn (v : Word) (s : State) : (statusWrite v s).cbIn = s.cbIn := rfl
@[simp] theorem statusWrite_symOut (v : Word) (s : State) : (statusWrite v s).symOut = s.symOut := rfl
@[simp] theorem statusWrite_cbOut (v : Word) (s : State) : (statusWrite v s).cbOut = s.cbOut := rfl
@[simp] theorem statusWrite_sched (v : Word) (s : State) : (statusWrite v s).sched = s.sched := rfl
@[simp] theorem statusWrite_hostProg (v : Word) (s : State) : (statusWrite v s).hostProg = s.hostProg := rfl
@[simp] theorem statusWrite_hostReads (v : Word) (s : State) : (statusWrite v s).hostReads = s.hostReads := rfl
@[simp] theorem statusWrite_bitSrc (v : Word) (s : State) : (statusWrite v s).bitSrc = s.bitSrc := rfl
@[simp] theorem statusWrite_cbSrc (v : Word) (s : State) : (statusWrite v s).cbSrc = s.cbSrc := rfl
@[simp] theorem statusWrite_symGot (v : Word) (s : State) : (statusWrite v s).symGot = s.symGot := rfl
@[simp] theorem statusWrite_cbGot (v : Word) (s : State) : (statusWrite v s).cbGot = s.cbGot := rfl
@[simp] theorem statusWrite_draws (v : Word) (s : State) : (statusWrite v s).draws = s.draws := rfl

/-! ### resetBlock -/

@[simp] theorem resetBlock_irqEn (s : State) : (resetBlock s).irqEn = State.reset.irqEn := rfl
@[simp] theorem resetBlock_cmdLast (s : State) : (resetBlock s).cmdLast = State.reset.cmdLast := rfl
@[simp] theorem resetBlock_done (s : State) : (resetBlock s).done = State.reset.done := rfl
@[simp] theorem resetBlock_wTrail (s : State) : (resetBlock s).wTrail = State.reset.wTrail := rfl
@[simp] theorem resetBlock_wDupsym (s : State) : (resetBlock s).wDupsym = State.reset.wDupsym := rfl
@[simp] theorem resetBlock_ovr (s : State) : (resetBlock s).ovr = State.reset.ovr := rfl
@[simp] theorem resetBlock_err (s : State) : (resetBlock s).err = State.reset.err := rfl
@[simp] theorem resetBlock_errDetail (s : State) : (resetBlock s).errDetail = State.reset.errDetail := rfl
@[simp] theorem resetBlock_lastOp (s : State) : (resetBlock s).lastOp = State.reset.lastOp := rfl
@[simp] theorem resetBlock_leaves (s : State) : (resetBlock s).leaves = State.reset.leaves := rfl
@[simp] theorem resetBlock_nodes (s : State) : (resetBlock s).nodes = State.reset.nodes := rfl
@[simp] theorem resetBlock_weight (s : State) : (resetBlock s).weight = State.reset.weight := rfl
@[simp] theorem resetBlock_decBits (s : State) : (resetBlock s).decBits = State.reset.decBits := rfl
@[simp] theorem resetBlock_decSyms (s : State) : (resetBlock s).decSyms = State.reset.decSyms := rfl
@[simp] theorem resetBlock_decDepth (s : State) : (resetBlock s).decDepth = State.reset.decDepth := rfl
@[simp] theorem resetBlock_cbPairs (s : State) : (resetBlock s).cbPairs = State.reset.cbPairs := rfl
@[simp] theorem resetBlock_cbLine (s : State) : (resetBlock s).cbLine = State.reset.cbLine := rfl
@[simp] theorem resetBlock_freq (s : State) : (resetBlock s).freq = State.reset.freq := rfl
@[simp] theorem resetBlock_tree (s : State) : (resetBlock s).tree = State.reset.tree := rfl
@[simp] theorem resetBlock_op (s : State) : (resetBlock s).op = State.reset.op := rfl
@[simp] theorem resetBlock_started (s : State) : (resetBlock s).started = State.reset.started := rfl
@[simp] theorem resetBlock_out (s : State) : (resetBlock s).out = State.reset.out := rfl
@[simp] theorem resetBlock_ld (s : State) : (resetBlock s).ld = State.reset.ld := rfl
@[simp] theorem resetBlock_cur (s : State) : (resetBlock s).cur = State.reset.cur := rfl
@[simp] theorem resetBlock_bitIn (s : State) : (resetBlock s).bitIn = State.reset.bitIn := rfl
@[simp] theorem resetBlock_cbIn (s : State) : (resetBlock s).cbIn = State.reset.cbIn := rfl
@[simp] theorem resetBlock_symOut (s : State) : (resetBlock s).symOut = State.reset.symOut := rfl
@[simp] theorem resetBlock_cbOut (s : State) : (resetBlock s).cbOut = State.reset.cbOut := rfl
@[simp] theorem resetBlock_sched (s : State) : (resetBlock s).sched = s.sched := rfl
@[simp] theorem resetBlock_hostProg (s : State) : (resetBlock s).hostProg = s.hostProg := rfl
@[simp] theorem resetBlock_hostReads (s : State) : (resetBlock s).hostReads = s.hostReads := rfl
@[simp] theorem resetBlock_bitSrc (s : State) : (resetBlock s).bitSrc = s.bitSrc := rfl
@[simp] theorem resetBlock_cbSrc (s : State) : (resetBlock s).cbSrc = s.cbSrc := rfl
@[simp] theorem resetBlock_symGot (s : State) : (resetBlock s).symGot = s.symGot := rfl
@[simp] theorem resetBlock_cbGot (s : State) : (resetBlock s).cbGot = s.cbGot := rfl
@[simp] theorem resetBlock_draws (s : State) : (resetBlock s).draws = s.draws := rfl

end Sys2Proof.Machine
end

