-- ==== Sys2Proof/Laws/Step.lean ====
section
/-! SUPPORT. The laws of the step: what one slot does, what a run is, and the address decoding of the host's accesses. -/

namespace Sys2Proof.Machine

theorem Config_inDepth_pos : 0 < Config.inDepth := Nat.succ_pos _
theorem Config_outDepth_pos : 0 < Config.outDepth := Nat.succ_pos _

/-! ### Slots and runs -/

theorem step_agent (s : State) (a : Agent) (r : List Slot) (h : s.sched = .agent a :: r) :
    step s = agentStep a { s with sched := r } := by
  simp only [step, scheduledStep, h]

theorem step_hardReset (s : State) (r : List Slot) (h : s.sched = .hardReset :: r) :
    step s = .next (resetBlock { s with sched := r }) := by
  simp only [step, scheduledStep, h]

theorem step_unscheduled (s : State) (h : s.sched = []) : step s = agentStep (defaultAgent s) s := by
  simp only [step, scheduledStep, h]

@[simp] theorem runUnder_nil (s : State) : runUnder [] s = .next s := rfl

theorem runUnder_cons (x : Slot) (xs : List Slot) (s : State) :
    runUnder (x :: xs) s = match step { s with sched := [x] } with
      | .next s' => runUnder xs s'
      | .fault r => .fault r
      | .refused r => .refused r := rfl

/-- A run that begins with an agent's turn. -/
theorem runUnder_agent (a : Agent) (xs : List Slot) (s : State) :
    runUnder (.agent a :: xs) s = match agentStep a { s with sched := [] } with
      | .next s' => runUnder xs s'
      | .fault r => .fault r
      | .refused r => .refused r := by
  rw [runUnder_cons, step_agent _ a [] rfl]
  rfl

/-- A run in two parts. -/
theorem runUnder_append (xs ys : List Slot) (s : State) :
    runUnder (xs ++ ys) s = match runUnder xs s with
      | .next s' => runUnder ys s'
      | .fault r => .fault r
      | .refused r => .refused r := by
  induction xs generalizing s with
  | nil => rfl
  | cons x xs ih =>
    simp only [List.cons_append, runUnder_cons]
    cases step { s with sched := [x] } with
    | next s' => exact ih s'
    | fault r => rfl
    | refused r => rfl

/-- Every turn of an agent is one of six kinds of step. -/
theorem agentStep_cases (a : Agent) (s : State) :
    (a = .host ∧ agentStep a s = hostStep s) ∨ (a = .core ∧ agentStep a s = coreStep s) ∨
    (a = .bitSource ∧ agentStep a s = .next (bitSourceStep s)) ∨
    (a = .cbSource ∧ agentStep a s = .next (cbSourceStep s)) ∨
    (a = .symSink ∧ agentStep a s = .next (symSinkStep s)) ∨
    (a = .cbSink ∧ agentStep a s = .next (cbSinkStep s)) := by
  cases a <;> simp [agentStep]

/-- A step that answers a next state is an agent's turn, on the state with the slot used up, or a hardware reset. -/
theorem step_next_cases {s t : State} (h : step s = .next t) :
    (∃ a r, agentStep a { s with sched := r } = .next t) ∨ (∃ r, t = resetBlock { s with sched := r }) := by
  cases hs : s.sched with
  | nil =>
    rw [step_unscheduled s hs] at h
    refine .inl ⟨defaultAgent s, [], ?_⟩
    have : { s with sched := [] } = s := by rw [← hs]
    rw [this, h]
  | cons x r =>
    cases x with
    | agent a => exact .inl ⟨a, r, by rw [← step_agent s a r hs]; exact h⟩
    | hardReset =>
      rw [step_hardReset s r hs] at h
      exact .inr ⟨r, (Host.Outcome.next.inj h).symm⟩

/-! ### The Core -/

theorem coreStep_idle {s : State} (h : s.op = .idle) : coreStep s = .next s := by simp only [coreStep, h]
theorem coreStep_run {s : State} {i : Instr} (h : s.op = .run i) : coreStep s = exec i s := by simp only [coreStep, h]
theorem coreStep_illegal {s : State} (h : s.op = .illegal) : coreStep s = execIllegal s := by simp only [coreStep, h]

/-! ### Host addresses -/

/-- An access of a word at HUFF_BASE + off selects what `off` selects. -/
@[simp] theorem selectAccess_word (off : Nat) : selectAccess .word (Config.huffBase + off) = selectOffset off := by
  simp [selectAccess]

theorem selectAccess_size {size : AccessSize} (h : size ≠ .word) (addr : Nat) :
    selectAccess size addr = .error .notWholeWord := by
  simp [selectAccess, h]

theorem selectAccess_below {addr : Nat} (h : addr < Config.huffBase) :
    selectAccess .word addr = .error .outsideWindow := by
  simp [selectAccess, h]

/-- Everything `selectOffset` can answer. -/
theorem selectOffset_cases (off : Nat) :
    (off % 4 ≠ 0 ∧ selectOffset off = .error .misaligned) ∨
    (off % 4 = 0 ∧ 0x800 ≤ off ∧ selectOffset off = .error .outsideWindow) ∨
    (off % 4 = 0 ∧ off ≤ 0x3FC ∧ selectOffset off = .ok (regOfIndex (off / 4))) ∨
    (off % 4 = 0 ∧ 0x400 ≤ off ∧ off < 0x800 ∧ selectOffset off = .ok (.freq ((off - 0x400) / 4))) := by
  unfold selectOffset Config.windowSize
  by_cases h1 : off % 4 ≠ 0
  · exact .inl ⟨h1, if_pos h1⟩
  · rw [if_neg h1]
    have h1 : off % 4 = 0 := by simpa using h1
    by_cases h2 : off ≤ 0x3FC
    · exact .inr (.inr (.inl ⟨h1, h2, if_pos h2⟩))
    · rw [if_neg h2]
      by_cases h3 : off < 0x800
      · exact .inr (.inr (.inr ⟨h1, by omega, h3, if_pos h3⟩))
      · exact .inr (.inl ⟨h1, by omega, if_neg h3⟩)

/-- The offset of a register selects that register (10_state.md R21). -/
theorem selectOffset_offsetOf (r : RegName) : selectOffset (offsetOf r) = .ok (.reg r) := by
  cases r <;> rfl

/-- The offset of a FREQ entry selects that entry (20_memory.md R61). -/
theorem selectOffset_freq {k : Nat} (h : k < 256) : selectOffset (0x400 + 4 * k) = .ok (.freq k) := by
  rcases selectOffset_cases (0x400 + 4 * k) with ⟨h1, -⟩ | ⟨-, h1, -⟩ | ⟨-, h1, -⟩ | ⟨-, -, -, h1⟩
  · omega
  · omega
  · omega
  · rw [h1]; congr 2; omega

/-! ### The host -/

/-- A read leaves everything alone but the counter of draws (20_memory.md R67). -/
theorem readTarget_state (t : Target) (s : State) : ∃ n, (readTarget t s).2 = { s with draws := n } := by
  unfold readTarget
  split
  · split
    · exact ⟨_, rfl⟩
    · exact ⟨s.draws, rfl⟩
  · exact ⟨s.draws, rfl⟩
  · exact ⟨s.draws, rfl⟩

theorem hostStep_read {s : State} {off : Nat} {rest : List HostOp} {t : Target}
    (ht : selectOffset off = .ok t) :
    hostStep { s with hostProg := rd off :: rest } =
      .next { (readTarget t { s with hostProg := rd off :: rest }).2 with
        hostProg := rest, hostReads := s.hostReads ++ [(readTarget t { s with hostProg := rd off :: rest }).1] } := by
  simp only [hostStep, rd, selectAccess_word, ht]

theorem hostStep_write {s : State} {off : Nat} {v : Word} {rest : List HostOp} {t : Target}
    (ht : selectOffset off = .ok t) :
    hostStep { s with hostProg := wr off v :: rest } =
      .next { writeTarget t v { s with hostProg := wr off v :: rest } with hostProg := rest } := by
  simp only [hostStep, wr, selectAccess_word, ht]

end Sys2Proof.Machine
end

