-- ==== Sys2Proof/Laws/Tree.lean ====
section
/-! SUPPORT. The laws of trees: paths, codes, sizes. -/

namespace Sys2Proof.Machine

@[simp] theorem TreeSlot.subtree_nil (t : TreeSlot) : t.subtree [] = t := by cases t <;> rfl
@[simp] theorem TreeSlot.subtree_absent (p : List Bit) : TreeSlot.subtree .absent p = .absent := by cases p <;> rfl
@[simp] theorem TreeSlot.subtree_leaf_cons (v : Sym) (b : Bit) (p : List Bit) :
    (TreeSlot.leaf v).subtree (b :: p) = .absent := rfl
@[simp] theorem TreeSlot.subtree_node_false (l r : TreeSlot) (p : List Bit) :
    (TreeSlot.node l r).subtree (false :: p) = l.subtree p := rfl
@[simp] theorem TreeSlot.subtree_node_true (l r : TreeSlot) (p : List Bit) :
    (TreeSlot.node l r).subtree (true :: p) = r.subtree p := rfl

/-- A path walked in two parts. -/
theorem TreeSlot.subtree_append (t : TreeSlot) (p q : List Bit) : t.subtree (p ++ q) = (t.subtree p).subtree q := by
  induction p generalizing t with
  | nil => simp
  | cons b p ih => cases t <;> cases b <;> simp [ih]

/-- The codes of a tree are its paths to leaves. -/
theorem TreeSlot.mem_codes {t : TreeSlot} {v : Sym} {p : List Bit} : (v, p) ∈ t.codes ↔ t.subtree p = .leaf v := by
  induction t generalizing p with
  | absent => simp [codes]
  | leaf w => cases p <;> simp [codes, eq_comm]
  | node l r ihl ihr =>
    cases p with
    | nil => simp [codes]
    | cons b p => cases b <;> simp [codes, ihl, ihr]

/-- There is one code for each leaf. -/
theorem TreeSlot.length_codes (t : TreeSlot) : t.codes.length = t.leafCount := by
  induction t with
  | absent => rfl
  | leaf _ => rfl
  | node l r ihl ihr => simp [codes, leafCount, ihl, ihr]

theorem TreeSlot.leafCount_le_size (t : TreeSlot) : t.leafCount ≤ t.size := by
  induction t with
  | absent => exact Nat.le_refl _
  | leaf _ => exact Nat.le_refl _
  | node l r ihl ihr => simp only [leafCount, size]; omega

theorem TreeSlot.full_proper {t : TreeSlot} (h : t.full) : t.proper := by
  induction t with
  | absent => trivial
  | leaf _ => trivial
  | node l r ihl ihr =>
    obtain ⟨hl, -, hfl, hfr⟩ := h
    exact ⟨fun h => hl h.1, ihl hfl, ihr hfr⟩

/-- A tree in which every internal node has a child has a leaf. -/
theorem TreeSlot.leafCount_pos {t : TreeSlot} (h : t.proper) (ht : t ≠ .absent) : 0 < t.leafCount := by
  induction t with
  | absent => exact absurd rfl ht
  | leaf _ => exact Nat.one_pos
  | node l r ihl ihr =>
    obtain ⟨hlr, hl, hr⟩ := h
    simp only [leafCount]
    by_cases hla : l = .absent
    · have := ihr hr fun hra => hlr ⟨hla, hra⟩
      omega
    · have := ihl hl hla
      omega

/-- No path in a tree is longer than its depth. -/
theorem TreeSlot.length_le_depth {t : TreeSlot} {p : List Bit} (h : t.subtree p ≠ .absent) : p.length ≤ t.depth := by
  induction t generalizing p with
  | absent => simp at h
  | leaf _ =>
    cases p with
    | nil => exact Nat.le_refl _
    | cons b p => simp at h
  | node l r ihl ihr =>
    cases p with
    | nil => exact Nat.zero_le _
    | cons b p =>
      cases b
      · have := ihl (p := p) (by simpa using h)
        simp only [List.length_cons, depth]; omega
      · have := ihr (p := p) (by simpa using h)
        simp only [List.length_cons, depth]; omega

/-- The path of an internal node is shorter than the depth. -/
theorem TreeSlot.length_lt_depth {t : TreeSlot} {p : List Bit} {l r : TreeSlot} (h : t.subtree p = .node l r)
    (hp : t.proper) : p.length < t.depth := by
  induction t generalizing p with
  | absent => simp at h
  | leaf _ => cases p <;> simp at h
  | node a b iha ihb =>
    obtain ⟨hab, ha, hb⟩ := hp
    cases p with
    | nil => simp only [List.length_nil, depth]; omega
    | cons c p =>
      cases c
      · have := iha (p := p) (by simpa using h) ha
        simp only [List.length_cons, depth]; omega
      · have := ihb (p := p) (by simpa using h) hb
        simp only [List.length_cons, depth]; omega

/-- No code of a tree is a prefix of another (41_tree_builder.md R156). -/
theorem TreeSlot.codes_prefix_free {t : TreeSlot} {c d : Sym × List Bit} (hc : c ∈ t.codes) (hd : d ∈ t.codes)
    (h : c.2 <+: d.2) : c = d := by
  obtain ⟨v, p⟩ := c
  obtain ⟨w, q⟩ := d
  obtain ⟨e, rfl⟩ := h
  rw [TreeSlot.mem_codes] at hc hd
  rw [TreeSlot.subtree_append, hc] at hd
  cases e with
  | nil => simp at hd; simp [hd]
  | cons b e => simp at hd

/-- The codes of a tree are listed without repeats. -/
theorem TreeSlot.codes_nodup (t : TreeSlot) : (t.codes.map Prod.snd).Nodup := by
  induction t with
  | absent => simp [codes]
  | leaf _ => simp [codes]
  | node l r ihl ihr =>
    simp only [codes, List.map_append, List.map_map]
    refine List.Nodup.append ?_ ?_ ?_
    · have : (Prod.snd ∘ fun c : Sym × List Bit => (c.1, false :: c.2)) = (fun p => false :: p) ∘ Prod.snd := rfl
      rw [this, ← List.map_map]
      exact ihl.map fun a b h => (List.cons.inj h).2
    · have : (Prod.snd ∘ fun c : Sym × List Bit => (c.1, true :: c.2)) = (fun p => true :: p) ∘ Prod.snd := rfl
      rw [this, ← List.map_map]
      exact ihr.map fun a b h => (List.cons.inj h).2
    · intro p hp hq
      simp only [List.mem_map, Function.comp_apply] at hp hq
      obtain ⟨c, -, rfl⟩ := hp
      obtain ⟨d, -, hd⟩ := hq
      simp at hd

end Sys2Proof.Machine
end

