-- ==== Sys2Proof/Tests/Slice0.lean ====
section
/-! SUPPORT. The model's own tests: expected values are those of spec/95_test_vectors.md (V<n>) and of the rules named; and
for every statement with hypotheses a witness that meets them. -/

namespace Sys2Proof.Tests

open Sys2Proof.Machine

/-! ### Helpers -/

/-- A check of the next state. -/
def after (r : Result) (p : State → Bool) : Bool :=
  match r with
  | .next t => p t
  | .fault _ => false
  | .refused _ => false

/-- A running command whose start step is still to come. -/
def accepted (i : Instr) : State := { State.reset with op := .run i }

/-- A running command whose start step has been taken. -/
def running (i : Instr) : State := { State.reset with op := .run i, started := true }

/-- The tree N(0, N(1, 2)). -/
def tree3 : TreeSlot := .node (.leaf 0#8) (.node (.leaf 1#8) (.leaf 2#8))

/-- The counts of V1: 'a'..'f' = 97..102 with 5, 9, 12, 13, 16, 45. -/
def freqV1 : Memory := [(97, 5#32), (98, 9#32), (99, 12#32), (100, 13#32), (101, 16#32), (102, 45#32)]

/-- The tree of V1: N(102, N(N(99, 100), N(N(97, 98), 101))). -/
def treeV1 : TreeSlot :=
  .node (.leaf 102#8)
    (.node (.node (.leaf 99#8) (.leaf 100#8)) (.node (.node (.leaf 97#8) (.leaf 98#8)) (.leaf 101#8)))

/-- The parser after a first pair (1, "0"), reading the code line of the pair with symbol 2 (V18, V20). -/
def ldSecond (code : List Bit) : LoadState :=
  { phase := .code, acc := 2#8, hasDigit := true, code := code, line := 4#32, pairs := 1,
    T := .node (.leaf 1#8) .absent, nodes := 2, seen := [1#8] }

/-- The parser on the code line of the first pair, which has symbol 5. -/
def ldFirst (code : List Bit) : LoadState :=
  { LoadState.init with phase := .code, acc := 5#8, hasDigit := true, code := code, line := 2#32 }

/-! ### Well-formedness: every check refuses an ill-formed term -/

theorem test_legalWord_refuses_reserved_opcode : legalWord 0x8#32 = false := by decide
theorem test_legalWord_refuses_rsvd_bit : legalWord 0x11#32 = false := by decide
theorem test_legalOffset_refuses_misaligned : legalOffset 0x402 = false := by decide
theorem test_legalOffset_refuses_outside : legalOffset 0x800 = false := by decide
theorem test_memory_wf_refuses_zero_cell : ¬ Memory.wf [(3, 0#32)] := by decide
theorem test_memory_wf_refuses_disorder : ¬ Memory.wf [(3, 1#32), (2, 1#32)] := by decide
theorem test_memory_wf_refuses_symbol_256 : ¬ Memory.wf [(256, 1#32)] := by decide

/-! ### Decoding: words written out from R90, R91 (RSVD [31:4], OPCODE [3:0]) -/

theorem test_decode_nop : decode 0b0000000000000000000000000000_0000#32 = .ok .nop := by decide
theorem test_decode_build : decode 0b0000000000000000000000000000_0001#32 = .ok .build := by decide
theorem test_decode_save : decode 0b0000000000000000000000000000_0010#32 = .ok .save := by decide
theorem test_decode_load : decode 0b0000000000000000000000000000_0011#32 = .ok .load := by decide
theorem test_decode_decode : decode 0b0000000000000000000000000000_0100#32 = .ok .decode := by decide
theorem test_decode_clearTree : decode 0b0000000000000000000000000000_0101#32 = .ok .clearTree := by decide
theorem test_decode_clearFreq : decode 0b0000000000000000000000000000_0110#32 = .ok .clearFreq := by decide
theorem test_decode_flush : decode 0b0000000000000000000000000000_0111#32 = .ok .flush := by decide
theorem test_decode_reserved : decode 0x8#32 = .error .reservedOpcode := by decide
theorem test_decode_rsvd : decode 0x80000000#32 = .error .rsvdNonzero := by decide
theorem test_decode_table_word : decodeTableWord 32 3 = some .load := by decide

/-- R95: bit [1] is END, and BITVAL is then ignored. -/
theorem test_bit_words : [0b00#2, 0b01#2, 0b10#2, 0b11#2].map decodeBitXfer =
    [.bit false, .bit true, .endOfStream, .endOfStream] := by decide

/-- R96, and P1's cb_out transfers 0x031, 0x00A, 0x100. -/
theorem test_cb_words : [0x031#9, 0x00A#9, 0x100#9, 0x131#9].map decodeCbXfer =
    [.byte 0x31#8, .byte 0x0A#8, .endOfStream, .endOfStream] := by decide

/-- R104, R105: `src.bits "10"` is the two transfers 0b01, 0b00 and no END; `src.bit END` is 0b10. -/
theorem test_src_bits : srcBits [true, false] = [0b01#2, 0b00#2] ∧ srcBitEnd = [0b10#2] := by decide

/-- R104: `src.cb "1\n"` is the transfers 0x031, 0x00A and no END; `src.cb END` is 0x100. -/
theorem test_src_text : srcText [0x31#8, 0x0A#8] = [0x031#9, 0x00A#9] ∧ srcTextEnd = [0x100#9] := by decide

/-! ### Host access -/

/-- V54: reset reads. -/
theorem test_reset_params : State.reset.regValue .PARAMS = 0x81FFFF08#32 := by decide
theorem test_reset_status : State.reset.regValue .STATUS = 0#32 := by decide

/-- V21: STATUS 0x0003_0016 after a LOAD with a duplicate symbol. -/
theorem test_status_word :
    State.statusWord { State.reset with lastOp := 3#4, wDupsym := true, done := true, tree := tree3 } = 0x00030016#32 := by
  decide

/-- V18: STATUS 0x0003_7202. -/
theorem test_status_error_fields :
    State.statusWord { State.reset with lastOp := 3#4, err := .malformedCodebook, errDetail := .prefixConflict,
                                        done := true } = 0x00037202#32 := by
  decide

/-- R125's example: `wr 0x404, 9` sets FREQ[1]. -/
theorem test_freq_write :
    after (hostStep { State.reset with hostProg := [wr 0x404 9#32] }) (fun t => t.freq == [(1, 9#32)]) = true := by
  rw [hostStep_write (t := .freq 1) rfl]; decide

/-- V57: a FREQ write while BUSY is discarded and sets OVR. -/
theorem test_freq_write_busy :
    freqWrite 3 9#32 (running .load) = { running .load with ovr := true } := by decide

/-- V56: a CMD write while BUSY is discarded and sets OVR. -/
theorem test_cmd_write_busy : cmdWrite 4#32 (running .load) = { running .load with ovr := true } := by decide

/-- V59: W1C. -/
theorem test_status_write :
    statusWrite 0xFFFFFFFF#32 { State.reset with done := true, ovr := true } = State.reset := by decide

/-- V62: `wr CTRL, 0x3` resets and leaves IRQ_EN = 0. -/
theorem test_ctrl_srst :
    (ctrlWrite 3#32 { State.reset with irqEn := true, tree := tree3, freq := [(97, 5#32)] }) = State.reset := by decide

/-- V30-like: the selection of R61 at its edges. -/
theorem test_select_edges :
    [0x030, 0x034, 0x3FC, 0x400, 0x7FC].map selectOffset =
      [.ok (.reg .CB_LINE), .ok .reserved, .ok .reserved, .ok (.freq 0), .ok (.freq 255)] := by decide

theorem test_select_refusals : [0x800, 0x802, 0x401].map selectOffset =
    [.error .outsideWindow, .error .misaligned, .error .misaligned] := by decide

/-! ### NOP, ILLEGAL, CLEAR_TREE, CLEAR_FREQ, FLUSH -/

/-- R129's example: STATUS 0x0000_0006 with a tree. -/
theorem test_nop : after (exec .nop { accepted .nop with tree := tree3 }) (fun t => t.statusWord == 6#32) = true := by
  decide

/-- V58: `wr CMD, 0x11` gives STATUS 0x0001_0602. -/
theorem test_illegal :
    after (coreStep (acceptCommand 0x11#32 State.reset)) (fun t => t.statusWord == 0x00010602#32) = true := by decide

/-- R220's example: STATUS 0x0005_0002. -/
theorem test_clearTree :
    after (step ({ State.reset with tree := tree3, leaves := 3#10 }.withFetchWord 32 5))
      (fun t => t.statusWord == 0x00050002#32 && t.leaves == 0#10) = true := by decide

/-- V16: FREQ reads 0, the tree stays. -/
theorem test_clearFreq :
    after (exec .clearFreq { accepted .clearFreq with freq := freqV1, tree := treeV1 })
      (fun t => Memory.read t.freq 97 == 0#32 && t.treeValid) = true := by decide

/-- P3: FLUSH leaves cb_in empty and STATUS 0x0007_0002; the output FIFOs stay. -/
theorem test_flush :
    after (step ({ State.reset with cbIn := [.byte 51#8, .endOfStream], symOut := [1#8] }.withFetchWord 32 7))
      (fun t => t.cbIn == [] && t.symOut == [1#8] && t.statusWord == 0x00070002#32) = true := by decide

/-! ### BUILD -/

/-- V1. -/
theorem test_build_textbook :
    after (exec .build { accepted .build with freq := freqV1 })
      (fun t => t.tree == treeV1 && t.leaves == 6#10 && t.nodes == 11#10 && t.weight == 100#40) = true := by decide

/-- V6: a leaf comes before a merged node of the same weight. -/
theorem test_build_tie :
    after (exec .build { accepted .build with freq := [(0, 1#32), (1, 1#32), (2, 2#32)] })
      (fun t => t.tree == .node (.leaf 2#8) (.node (.leaf 0#8) (.leaf 1#8))) = true := by decide

/-! ### SAVE -/

/-- V6: the text of N(2, N(0, 1)). -/
theorem test_save_text :
    saveBytes (.node (.leaf 2#8) (.node (.leaf 0#8) (.leaf 1#8))) =
      ([50, 10, 48, 10, 48, 10, 49, 48, 10, 49, 10, 49, 49, 10].map fun n => CbXfer.byte (BitVec.ofNat 8 n)) ++
        [.endOfStream] := by decide

/-- V3: the text of a leaf root 65. -/
theorem test_save_leaf_root :
    saveBytes (.leaf 65#8) = [.byte 54#8, .byte 53#8, .byte 10#8, .byte 10#8, .endOfStream] := by decide

/-- R160: the push of END ends SAVE and writes CB_PAIRS. -/
theorem test_save_end :
    after (.next (saveTransfer .endOfStream [] { running .save with tree := tree3 }))
      (fun t => t.cbOut == [.endOfStream] && t.cbPairs == 3#16 && t.op == .idle && t.done) = true := by decide

/-! ### LOAD -/

/-- V26: "256" fails at the digit '6'. -/
theorem test_load_symbol_range :
    after (exec .load { running .load with cbIn := [.byte 54#8, .byte 10#8],
                                           ld := { LoadState.init with acc := 25#8, hasDigit := true } })
      (fun t => t.err == .malformedCodebook && t.errDetail == .symbolRange && t.cbLine == 1#32 && t.cbIn.length == 1)
      = true := by decide

/-- V20: equal codes. -/
theorem test_load_prefix_conflict :
    after (exec .load { running .load with cbIn := [.byte 10#8, .endOfStream], ld := ldSecond [false] })
      (fun t => t.errDetail == .prefixConflict && t.cbLine == 4#32 && t.cbPairs == 1#16 && t.tree == .absent) = true := by
  decide

/-! ### DECODE -/

/-- V41's first bit: 0 is the code of 'f'. -/
theorem test_decode_emit :
    after (.next (decodeTransfer (.bit false) { running .decode with tree := treeV1 }))
      (fun t => t.symOut == [102#8] && t.decBits == 1#32 && t.decSyms == 1#32 && t.cur == []) = true := by decide

/-- V42's END: two bits of a code are left. -/
theorem test_decode_trail :
    after (.next (decodeTransfer .endOfStream { running .decode with tree := treeV1, cur := [true, true] }))
      (fun t => t.wTrail && t.decDepth == 2#8 && t.err == .none && t.op == .idle) = true := by decide

/-! ### Witnesses: every statement with hypotheses has states and operands that meet them -/

theorem ne_encode_8 (i : Instr) : 8#32 ≠ encode i := by cases i <;> decide

theorem witness_DecodeAcceptsExactlyLegalWords : ∀ i, (8#32 : Word) ≠ encode i := ne_encode_8

theorem witness_StreamWordsMeanTransfers :
    (0b11#2).getLsbD 1 = true ∧ (0b01#2).getLsbD 1 = false ∧ (0x1FF#9).getLsbD 8 = true ∧
      (0x0FF#9).getLsbD 8 = false := by decide

theorem witness_SoftResetHasTheEffectOfReset : (3#32).getLsbD 0 = true ∧ (2#32).getLsbD 0 = false := by decide

theorem witness_HardwareResetResetsTheBlock :
    ({ running .load with sched := [.hardReset] } : State).sched = .hardReset :: [] := rfl

theorem witness_HostReadReturnsTheStatedValue :
    (∀ off ∈ [0x000, 0x004, 0x008, 0x00C, 0x010, 0x014, 0x018, 0x01C, 0x020, 0x024, 0x028, 0x02C, 0x030, 0x034, 0x3FC,
      0x400, 0x7FC], off < 0x800 ∧ off % 4 = 0) ∧
    (∀ off ∈ [0x800, 0x002, 0x7FF], ¬ (off < 0x800 ∧ off % 4 = 0)) ∧
    (running .load).op ≠ .idle ∧ State.reset.op = .idle := by decide

/-- The last legal offset; then a sub-word access, a misaligned one and one at offset 0x800. HUFF_BASE is OPEN and may be 0,
so there need be no address below it; where there is one, it meets the second hypothesis too. -/
theorem witness_BadHostAccessIsRefused :
    (∃ off, off % 4 = 0 ∧ off < 0x800 ∧ Config.huffBase + 0x7FC = Config.huffBase + off) ∧
    AccessSize.halfword ≠ .word ∧
    (∀ addr ∈ [Config.huffBase + 0x7FE, Config.huffBase + 0x800],
      ¬ ∃ off, off % 4 = 0 ∧ off < 0x800 ∧ addr = Config.huffBase + off) ∧
    (∀ addr, addr < Config.huffBase → ¬ ∃ off, off % 4 = 0 ∧ off < 0x800 ∧ addr = Config.huffBase + off) := by
  refine ⟨⟨0x7FC, rfl, by decide, rfl⟩, by decide, ?_, ?_⟩
  · rintro addr h ⟨off, h4, hlt, rfl⟩
    simp only [List.mem_cons, List.not_mem_nil, or_false] at h
    omega
  · rintro addr h ⟨off, -, -, rfl⟩
    omega

theorem witness_IdleCommandWriteIsAccepted : State.reset.op = .idle := rfl

theorem witness_BusyWritesAreDiscardedWithOverrun : (running .load).op ≠ .idle ∧ 255 < 256 := by decide

theorem witness_IdleFreqWriteSetsOneEntry :
    ({ State.reset with freq := freqV1 } : State).op = .idle ∧ Memory.wf freqV1 ∧ 255 < 256 := by decide

theorem witness_ReadOnlyAndReservedWritesHaveNoEffect :
    ∀ off ∈ [0x000, 0x010, 0x030, 0x034, 0x3FC], off % 4 = 0 ∧ (off = 0x000 ∨ (0x010 ≤ off ∧ off ≤ 0x3FC)) := by decide

theorem witness_IllegalReportsIllegalCommand :
    ((0x10#32).extractLsb 31 4 ≠ 0#28 ∧ 8#4 ≤ (0x8#32).extractLsb 3 0) ∧
    ({ State.reset with op := .illegal } : State).op = .illegal := by decide

theorem witness_BuildInstallsTheMergedTree :
    ∃ k, k < 256 ∧ Memory.read ({ State.reset with freq := freqV1 } : State).freq k ≠ 0#32 := ⟨97, by decide⟩

theorem witness_BuildWithoutSymbolsFails : ∀ k, k < 256 → Memory.read State.reset.freq k = 0#32 := fun _ _ => rfl

theorem witness_BuildOfOneSymbolIsALeaf :
    (255 < 256) ∧ Memory.read [(255, 7#32)] 255 ≠ 0#32 ∧
      ∀ j, j < 256 → j ≠ 255 → Memory.read [(255, 7#32)] j = 0#32 := by
  refine ⟨by decide, by decide, fun j _ hj => ?_⟩
  simp [Memory.read, Ne.symm hj]

/-- Meets the hypothesis of the five statements about `buildRoot`: the greedy merge of V1. -/
theorem witness_buildRoot : ∃ r, buildRoot freqV1 = some r ∧ r.t = treeV1 ∧ r.w = 100 := by
  refine ⟨_, rfl, ?_, ?_⟩ <;> decide

theorem witness_BuildTreeIsOptimal :
    ∀ j ∈ Memory.present [(3, 1#32)], ∀ k ∈ Memory.present [(3, 1#32)],
      (fun _ => ([] : List Bit)) j <+: (fun _ => ([] : List Bit)) k → j = k := by
  have h : Memory.present [(3, 1#32)] = [3] := by decide
  intro j hj k hk _
  rw [h] at hj hk
  simp_all

theorem witness_BuildDependsOnCountsAlone :
    (∀ k, k < 256 → Memory.read freqV1 k = Memory.read freqV1 k) ∧
      ∃ t, exec .build { accepted .build with freq := freqV1 } = .next t := ⟨fun _ _ => rfl, _, rfl⟩

theorem witness_SavePushesOneTransferAStep :
    ((accepted .save).started = false ∧ (accepted .save).tree = .absent) ∧
    (({ accepted .save with tree := tree3 } : State).started = false ∧
      ({ accepted .save with tree := tree3 } : State).tree ≠ .absent) ∧
    (({ running .save with out := [.byte 10#8, .endOfStream] } : State).started = true ∧
      ({ running .save with out := [.byte 10#8, .endOfStream] } : State).cbOut.length < Config.outDepth) ∧
    (({ running .save with out := [.endOfStream] } : State).started = true ∧
      ({ running .save with out := [.endOfStream] } : State).cbOut.length < Config.outDepth) ∧
    ¬ ({ running .save with cbOut := List.replicate Config.outDepth .endOfStream } : State).cbOut.length <
        Config.outDepth := by
  refine ⟨by decide, by decide, ⟨rfl, Config_outDepth_pos⟩, ⟨rfl, Config_outDepth_pos⟩, ?_⟩
  simp

theorem witness_SaveDeliversExactlyTheText :
    let s : State := { accepted .save with tree := tree3 }
    s.op = .run .save ∧ s.started = false ∧ s.err = .none ∧ s.tree ≠ .absent ∧ s.hostProg = [] ∧
      Slot.hardReset ∉ rounds [.core, .cbSink] 2 := by decide

theorem witness_SaveEndsWhileTheSinkPops :
    let s : State := { accepted .save with tree := tree3 }
    s.op = .run .save ∧ s.started = false ∧ s.tree ≠ .absent ∧ s.cbOut.length ≤ Config.outDepth :=
  ⟨rfl, rfl, by decide, Nat.zero_le _⟩

theorem witness_LoadStartDiscardsTheTree :
    (accepted .load).started = false ∧ (running .load).started = true ∧ (running .load).cbIn = [] := by decide

/-- Clause by clause: END with a digit read, END before any pair, END after a pair, the digits that give 255 and 256, LF
without and with a digit, the two bytes beside the digits. -/
theorem witness_LoadSymbolLineStep :
    (running .load).started = true ∧ (running .load).ld.phase = .sym ∧
    ({ LoadState.init with hasDigit := true } : LoadState).hasDigit = true ∧
    (LoadState.init.hasDigit = false ∧ LoadState.init.pairs = 0) ∧
    ({ LoadState.init with pairs := 1 } : LoadState).pairs ≠ 0 ∧
    (25#8).toNat * 10 + 5 < 256 ∧ 256 ≤ (25#8).toNat * 10 + 6 ∧
    (∀ c ∈ [0x2F#8, 0x3A#8], c ≠ 0x0A#8 ∧ ∀ d, d < 10 → c ≠ BitVec.ofNat 8 (0x30 + d)) := by decide

/-- Clause by clause: a code of 254 bits and one of 255, an empty and a nonempty code line, an insertion that conflicts, one
that finds no room and one that succeeds, a byte that is no code character. -/
theorem witness_LoadCodeLineStep :
    ({ running .load with ld := ldSecond [false] } : State).ld.phase = .code ∧
    (List.replicate 254 false).length ≠ 255 ∧ (List.replicate 255 false).length = 255 ∧
    (ldFirst []).code = [] ∧ (ldSecond [false]).code ≠ [] ∧
    insertCode 2#8 [false] (.node (.leaf 1#8) .absent) 2 = .error .prefixConflict ∧
    insertCode 2#8 [true] (.node (.leaf 1#8) .absent) 511 = .error .capacity ∧
    insertCode 2#8 [true] (.node (.leaf 1#8) .absent) 510 = .ok (.node (.leaf 1#8) (.leaf 2#8), 511) ∧
    0x32#8 ≠ 0x30#8 ∧ 0x32#8 ≠ 0x31#8 ∧ 0x32#8 ≠ 0x0A#8 := by
  refine ⟨rfl, by rw [List.length_replicate]; decide, List.length_replicate, ?_⟩
  decide

theorem witness_InsertionKeepsTheOtherCodes :
    insertCode 7#8 [true, false] (.node (.leaf 1#8) .absent) 2 =
      .ok (.node (.leaf 1#8) (.node (.leaf 7#8) .absent), 4) := by decide

/-- A proper tree with the code 0: the code 0 conflicts even with the store full, and the code 1 needs one node, for which
there is room at 510 and none at 511. -/
theorem witness_InsertionRejectsPrefixConflicts :
    (TreeSlot.node (.leaf 1#8) .absent).proper ∧
    insertCode 2#8 [false] (.node (.leaf 1#8) .absent) 511 = .error .prefixConflict ∧
    ([true].inits.filter (fun p => (TreeSlot.node (.leaf 1#8) .absent).subtree p == .absent)).length = 1 ∧
    511 < 511 + 1 ∧ ¬ 511 < 510 + 1 := by
  refine ⟨by simp [TreeSlot.proper], ?_⟩
  decide

theorem witness_LoadRebuildsTheCodebook :
    let ps : List (Sym × List Bit) := [(0#8, [false]), (1#8, [true])]
    let s : State := { accepted .load with cbIn := (pairsOf ps).map CbXfer.byte ++ [.endOfStream] }
    s.op = .run .load ∧ s.started = false ∧ s.err = .none ∧ s.errDetail = .none ∧ s.wDupsym = false ∧ ps ≠ [] ∧
      (∀ p ∈ ps, p.2 ≠ [] ∧ p.2.length ≤ 255) ∧
      ps.Pairwise (fun p q => ¬ p.2 <+: q.2 ∧ ¬ q.2 <+: p.2) ∧
      (ps.flatMap (fun p => p.2.inits)).dedup.length ≤ 511 ∧
      s.cbIn ++ s.cbSrc.map decodeCbXfer = (pairsOf ps).map CbXfer.byte ++ .endOfStream :: [] := by decide

/-- The text "0 LF 0 LF" END, given to LOAD in cb_in, loads without error (V13). -/
theorem witness_LoadAcceptsOnlyTheGrammar :
    let text : List Byte := [48#8, 10#8, 48#8, 10#8]
    let s : State := { accepted .load with cbIn := text.map CbXfer.byte ++ [.endOfStream] }
    s.op = .run .load ∧ s.started = false ∧ s.err = .none ∧
      s.cbIn ++ s.cbSrc.map decodeCbXfer = text.map CbXfer.byte ++ .endOfStream :: [] ∧
      ∃ t, runUnder (rounds [.cbSource, .core] (2 + text.length)) s = .next t ∧ t.err = .none := by
  refine ⟨rfl, rfl, rfl, rfl, _, rfl, rfl⟩

/-- V5's counts give N(1, 2), whose text is loaded; V3's give the leaf root 65. -/
theorem witness_SavedTreeLoadsBack :
    (∃ r, buildRoot [(1, 3#32), (2, 3#32)] = some r ∧ r.t = .node (.leaf 1#8) (.leaf 2#8) ∧ 2 ≤ r.t.leafCount) ∧
    (∃ r, buildRoot [(65, 7#32)] = some r ∧ r.t = .leaf 65#8 ∧ r.t.leafCount = 1) ∧
    (let s : State := { accepted .load with cbIn := saveBytes (.node (.leaf 1#8) (.leaf 2#8)) }
     s.op = .run .load ∧ s.started = false ∧ s.err = .none ∧ s.errDetail = .none ∧ s.wDupsym = false ∧
      s.cbIn ++ s.cbSrc.map decodeCbXfer = saveBytes (.node (.leaf 1#8) (.leaf 2#8))) := by
  refine ⟨⟨_, rfl, ?_, ?_⟩, ⟨_, rfl, ?_, ?_⟩, ?_⟩ <;> decide

theorem witness_DecodeStartClearsTheCounters :
    (accepted .decode).started = false ∧ (accepted .decode).tree = .absent ∧
      ({ accepted .decode with tree := tree3 } : State).tree ≠ .absent := by decide

/-- Clause by clause: an empty bit_in, a full sym_out, END, a bit to a leaf, to an internal node, to an absent child. -/
theorem witness_DecodeTransferStep :
    (running .decode).started = true ∧ (running .decode).bitIn = [] ∧
    ¬ ({ running .decode with symOut := List.replicate Config.outDepth 0#8 } : State).symOut.length < Config.outDepth ∧
    (running .decode).symOut.length < Config.outDepth ∧
    tree3.subtree ([] ++ [false]) = .leaf 0#8 ∧
    tree3.subtree ([] ++ [true]) = .node (.leaf 1#8) (.leaf 2#8) ∧
    (TreeSlot.node (.leaf 0#8) .absent).subtree ([] ++ [true]) = .absent := by
  refine ⟨rfl, rfl, by simp, Config_outDepth_pos, rfl, rfl, rfl⟩

theorem witness_DecodeOfALeafRoot :
    let s : State := { accepted .decode with tree := .leaf 65#8, bitIn := [.bit false, .endOfStream] }
    s.tree = .leaf 65#8 ∧ s.started = false ∧ s.symOut.length < Config.outDepth ∧
      s.bitIn = .bit false :: [.endOfStream] := ⟨rfl, rfl, Config_outDepth_pos, rfl⟩

theorem witness_DecodeEmitsTheEncodedSymbols :
    let s : State := { accepted .decode with
      tree := tree3, bitSrc := srcBits [true, false, false] ++ srcBitEnd, hostProg := [] }
    s.op = .run .decode ∧ s.started = false ∧ s.err = .none ∧ s.wTrail = false ∧ s.hostProg = [] ∧
      2 ≤ s.tree.leafCount ∧
      (∀ p ∈ [((1#8 : Sym), [true, false]), (0#8, [false])], s.tree.subtree p.2 = .leaf p.1) ∧
      s.bitIn ++ s.bitSrc.map decodeBitXfer =
        ([((1#8 : Sym), [true, false]), (0#8, [false])].flatMap Prod.snd).map BitXfer.bit ++ .endOfStream :: [] ∧
      Slot.hardReset ∉ rounds [.bitSource, .core, .symSink] 3 := by decide

theorem witness_DecodeEndsOnAnEndedStream :
    let s : State := { accepted .decode with tree := tree3, bitSrc := srcBits [true] ++ srcBitEnd }
    s.op = .run .decode ∧ s.started = false ∧ s.symOut.length ≤ Config.outDepth ∧
      s.bitIn ++ s.bitSrc.map decodeBitXfer = [true].map BitXfer.bit ++ .endOfStream :: [] :=
  ⟨rfl, rfl, Nat.zero_le _, by decide⟩

theorem witness_StepRunsTheDecodedCommand :
    ({ accepted .build with sched := [.agent .core] } : State).sched = .agent .core :: [] ∧
    coreReady (accepted .build) = true ∧ decode 1#32 = .ok .build ∧
    (let s : State := { State.reset with hostProg := [wr 0x008 1#32], sched := [.agent .host, .agent .core] }
     s.op = .idle ∧ s.hostProg = wr 0x008 1#32 :: [] ∧ s.sched = .agent .host :: .agent .core :: []) :=
  ⟨rfl, rfl, by decide, rfl, rfl, rfl⟩

theorem witness_IdleCoreTakesNoStep :
    ({ State.reset with sched := [.agent .core], bitIn := [.bit true] } : State).op = .idle := rfl

theorem witness_OnlyTheCoreChangesTreeAndResults :
    let s : State := { running .decode with
      sched := [.agent .bitSource], bitSrc := srcBits [true], hostProg := [hostSrst] }
    s.sched = .agent .bitSource :: [] ∧ Agent.bitSource ≠ .core ∧ (∃ t, step s = .next t) ∧ s.op ≠ .idle ∧
      ∀ size addr v rest, Agent.bitSource = .host → s.hostProg = .write size addr v :: rest →
        ¬ (addr = Config.huffBase + 0x004 ∧ v.getLsbD 0 = true) :=
  ⟨rfl, by decide, ⟨_, rfl⟩, by decide, fun _ _ _ _ h => nomatch h⟩

theorem witness_FifosDeliverInOrder :
    let s : State := { running .load with sched := [.agent .core], cbIn := [.byte 48#8] }
    s.sched = .agent .core :: [] ∧ (∃ t, step s = .next t) ∧ ¬ (Agent.core = .core ∧ s.op = .run .flush) ∧
      ¬ (Agent.core = .core ∧ s.op = .run .decode) ∧ ¬ (Agent.core = .core ∧ s.op = .run .save) ∧
      ¬ (Agent.symSink = .core ∧ s.op = .run .load) ∧
      ∀ size addr v rest, Agent.core = .host → s.hostProg = .write size addr v :: rest →
        ¬ (addr = Config.huffBase + 0x004 ∧ v.getLsbD 0 = true) :=
  ⟨rfl, ⟨_, rfl⟩, by decide, by decide, by decide, by decide, fun _ _ _ _ h => nomatch h⟩

theorem witness_StreamAgentsPushAndPop :
    (running .decode).bitIn.length < Config.inDepth ∧ (running .decode).cbIn.length < Config.inDepth ∧
    Config.inDepth ≤ (List.replicate Config.inDepth (BitXfer.bit true)).length ∧
    Config.inDepth ≤ (List.replicate Config.inDepth CbXfer.endOfStream).length ∧
    (running .decode).bitSrc = [] ∧ (running .decode).cbSrc = [] ∧
    (running .decode).symOut = [] ∧ (running .decode).cbOut = [] :=
  ⟨Config_inDepth_pos, Config_inDepth_pos, by simp, by simp, rfl, rfl, rfl, rfl⟩

theorem witness_HostWaitPollsStatus : ({ running .load with hostProg := [.wait] } : State).hostProg = .wait :: [] := rfl

theorem witness_ErrorsLeaveNoPartialTree :
    (accepted .decode).err = .none ∧ ∃ t, exec .decode (accepted .decode) = .next t ∧ t.err ≠ .none :=
  ⟨rfl, _, rfl, by decide⟩

/-- DECODE running on N(0, N(1, 2)) at the path of the inner node, with END waiting. -/
def decoding : State :=
  { State.reset with
    op := .run .decode, started := true, cmdLast := 4#32, lastOp := 4#4, tree := tree3, leaves := 3#10, nodes := 5#10,
    cur := [true], bitIn := [.endOfStream], sched := [.agent .core] }

theorem decoding_inv : decoding.Inv where
  freq_wf := Memory.wf_nil
  tree_size := by decide
  tree_depth := by decide
  tree_proper := by simp [decoding, tree3, TreeSlot.proper]
  tree_results := fun _ => by decide
  busy_done := fun _ => rfl
  busy_err := fun _ => rfl
  detail_err := by decide
  last_op := by decide
  op_word := by decide
  started_op := fun _ => by decide
  bitIn_depth := Config_inDepth_pos
  cbIn_depth := Nat.zero_le _
  symOut_depth := Nat.zero_le _
  cbOut_depth := Nat.zero_le _
  save_out := fun h => nomatch h
  load_ld := fun h => nomatch h
  decode_cur := fun _ _ => ⟨by decide, .inr ⟨_, _, rfl⟩⟩

/-- Meets the hypotheses of the statements over the invariant: a next state is answered, and the command ends. -/
theorem witness_invariant_statements :
    decoding.Inv ∧ decoding.op = .run .decode ∧ decoding.started = true ∧ decoding.sched = [.agent .core] ∧
      ∃ t, step decoding = .next t ∧ t.op = .idle := by
  exact ⟨decoding_inv, rfl, rfl, rfl, decodeEnd { decoding with sched := [], bitIn := [] }, rfl, rfl⟩

/-- A state that meets the invariant and whose step is refused: the host's next operation is a byte read. -/
theorem witness_StepsStopOnlyOnBadHostAccess :
    let s : State := { decoding with sched := [.agent .host], hostProg := [.read .byte 0] }
    s.Inv ∧ step s = .refused .notWholeWord :=
  ⟨{ decoding_inv with bitIn_depth := decoding_inv.bitIn_depth }, rfl⟩

end Sys2Proof.Tests
end

section
/-! SUPPORT. What the tree store can hold, what a successful insertion of LOAD does (spec 42_decoder.md R194), and what
BUILD's merge loop ends with (41_tree_builder.md R150-R156). -/

namespace Sys2Proof.Machine

/-! ### Trees that fit the tree store -/

/-- The tree fits the tree store: its size (10_state.md R38), its longest code (00_scope.md R7), no internal node without a
child (42_decoder.md R200). -/
structure TreeSlot.Fits (t : TreeSlot) : Prop where
  size   : t.size ≤ Config.nodeCap
  depth  : t.depth ≤ Config.maxCodeLen
  proper : t.proper

theorem TreeSlot.fits_absent : TreeSlot.absent.Fits := ⟨Nat.zero_le _, Nat.zero_le _, trivial⟩

/-- The size of a full tree. -/
theorem TreeSlot.size_of_full {t : TreeSlot} (h : t.full) (ht : t ≠ .absent) : t.size + 1 = 2 * t.leafCount := by
  induction t with
  | absent => exact absurd rfl ht
  | leaf _ => rfl
  | node l r ihl ihr =>
    obtain ⟨hla, hra, hl, hr⟩ := h
    have := ihl hl hla
    have := ihr hr hra
    simp only [size, leafCount]
    omega

/-- Each level of a full tree has a leaf of its own. -/
theorem TreeSlot.depth_lt_leafCount_of_full {t : TreeSlot} (h : t.full) (ht : t ≠ .absent) :
    t.depth < t.leafCount := by
  induction t with
  | absent => exact absurd rfl ht
  | leaf _ => exact Nat.one_pos
  | node l r ihl ihr =>
    obtain ⟨hla, hra, hl, hr⟩ := h
    have := ihl hl hla
    have := ihr hr hra
    simp only [depth, leafCount]
    omega

/-- A full tree over the alphabet fits the tree store. -/
theorem TreeSlot.fits_of_full {t : TreeSlot} (h : t.full) (ht : t ≠ .absent) (hn : t.leafCount ≤ Config.nsym) :
    t.Fits := by
  have hsize := size_of_full h ht
  have hdepth := depth_lt_leafCount_of_full h ht
  unfold Config.nsym at hn
  exact ⟨by unfold Config.nodeCap; omega, by unfold Config.maxCodeLen; omega, full_proper h⟩

/-! ### Insertion -/

theorem alloc_eq_ok {n n' : Nat} : alloc n = .ok n' ↔ n' = n + 1 ∧ n' ≤ Config.nodeCap := by
  unfold alloc
  split
  · simp only [reduceCtorEq, false_iff]; omega
  · simp only [Except.ok.injEq]; omega

/-- `Inserts v code T n T' n'`: the walk of a successful insertion of the leaf `v` at `code`, from the slot `T` with `n`
nodes in use to the slot `T'` with `n'` (R194). `grow` makes the placeholder in an absent slot and walks on below it. -/
inductive Inserts (v : Sym) : List Bit → TreeSlot → Nat → TreeSlot → Nat → Prop where
  | here {n} (room : n + 1 ≤ Config.nodeCap) : Inserts v [] .absent n (.leaf v) (n + 1)
  | grow {b bs n T' n'} (go : Inserts v (b :: bs) (.node .absent .absent) (n + 1) T' n') :
      Inserts v (b :: bs) .absent n T' n'
  | left {bs l r n u n'} (go : Inserts v bs l n u n') : Inserts v (false :: bs) (.node l r) n (.node u r) n'
  | right {bs l r n u n'} (go : Inserts v bs r n u n') : Inserts v (true :: bs) (.node l r) n (.node l u) n'

/-- Every success of `insertCode` is such a walk. -/
theorem Inserts.of_insertCode {v : Sym} {code : List Bit} {T T' : TreeSlot} {n n' : Nat}
    (h : insertCode v code T n = .ok (T', n')) : Inserts v code T n T' n' := by
  induction code generalizing T n T' n' with
  | nil =>
    cases T with
    | absent =>
      simp only [insertCode] at h
      split at h
      · next hk =>
        obtain ⟨rfl, hcap⟩ := alloc_eq_ok.1 hk
        cases h
        exact .here hcap
      · cases h
    | leaf _ => simp [insertCode] at h
    | node _ _ => simp [insertCode] at h
  | cons b bs ih =>
    cases T with
    | absent =>
      simp only [insertCode] at h
      split at h
      · cases h
      · next hk =>
        obtain ⟨rfl, -⟩ := alloc_eq_ok.1 hk
        split at h
        · cases h
        · next hu =>
          cases h
          cases b
          · exact .grow (.left (ih hu))
          · exact .grow (.right (ih hu))
    | leaf _ => simp [insertCode] at h
    | node l r =>
      cases b
      · simp only [insertCode] at h
        split at h
        · cases h
        · next hu => cases h; exact .left (ih hu)
      · simp only [insertCode] at h
        split at h
        · cases h
        · next hu => cases h; exact .right (ih hu)

namespace Inserts

variable {v : Sym} {code : List Bit} {T T' : TreeSlot} {n n' : Nat}

theorem nodes_le (h : Inserts v code T n T' n') : n' ≤ Config.nodeCap := by
  induction h with
  | here room => exact room
  | grow _ ih => exact ih
  | left _ ih => exact ih
  | right _ ih => exact ih

/-- The count of nodes grows by the nodes the insertion makes. -/
theorem size_eq (h : Inserts v code T n T' n') : n' + T.size = n + T'.size := by
  induction h with
  | here _ => rfl
  | grow _ ih => simp only [TreeSlot.size] at ih ⊢; omega
  | left _ ih => simp only [TreeSlot.size]; omega
  | right _ ih => simp only [TreeSlot.size]; omega

theorem leafCount_eq (h : Inserts v code T n T' n') : T'.leafCount = T.leafCount + 1 := by
  induction h with
  | here _ => rfl
  | grow _ ih => exact ih
  | left _ ih => simp only [TreeSlot.leafCount]; omega
  | right _ ih => simp only [TreeSlot.leafCount]; omega

/-- The insertion adds the one code and keeps every other. -/
theorem codes_perm (h : Inserts v code T n T' n') : T'.codes.Perm ((v, code) :: T.codes) := by
  induction h with
  | here _ => exact .refl _
  | grow _ ih => exact ih
  | left _ ih => exact (ih.map _).append_right _
  | right _ ih => exact ((ih.map _).append_left _).trans List.perm_middle

theorem depth_le (h : Inserts v code T n T' n') : T'.depth ≤ max T.depth code.length := by
  induction h with
  | here _ => exact Nat.zero_le _
  | grow _ ih => simp only [TreeSlot.depth, List.length_cons] at ih ⊢; omega
  | left _ ih => simp only [TreeSlot.depth, List.length_cons]; omega
  | right _ ih => simp only [TreeSlot.depth, List.length_cons]; omega

theorem ne_absent (h : Inserts v code T n T' n') : T' ≠ .absent := by
  induction h with
  | here _ => nofun
  | grow _ ih => exact ih
  | left _ _ => nofun
  | right _ _ => nofun

/-- Below an inserted leaf every internal node has a child. The placeholder that `grow` makes has none yet, so only the
children of the slot are asked to be proper. -/
theorem proper (h : Inserts v code T n T' n') (hT : T.proper ∨ T = .node .absent .absent) : T'.proper := by
  induction h with
  | here _ => trivial
  | grow _ ih => exact ih (.inr rfl)
  | left go ih =>
    obtain ⟨hl, hr⟩ := hT.elim (·.2) (by rintro ⟨⟩; exact ⟨trivial, trivial⟩)
    exact ⟨fun h => go.ne_absent h.1, ih (.inl hl), hr⟩
  | right go ih =>
    obtain ⟨hl, hr⟩ := hT.elim (·.2) (by rintro ⟨⟩; exact ⟨trivial, trivial⟩)
    exact ⟨fun h => go.ne_absent h.2, hl, ih (.inl hr)⟩

/-- A nonempty code puts no leaf at the root. -/
theorem ne_leaf (h : Inserts v code T n T' n') (hc : code ≠ []) (w : Sym) : T' ≠ .leaf w := by
  induction h with
  | here _ => exact absurd rfl hc
  | grow _ ih => exact ih hc
  | left _ _ => nofun
  | right _ _ => nofun

end Inserts

/-! ### BUILD's merge loop -/

theorem GreedyMerge.perm {next : Nat} {q q' : List QEntry} {r : QEntry} (h : GreedyMerge next q r) (hq : q.Perm q') :
    GreedyMerge next q' r := by
  cases h with
  | done => rw [← List.singleton_perm.1 hq]; exact .done next r
  | merge _ _ rest a b _ split first second go =>
    exact .merge next q' rest a b r (hq.symm.trans split) first second go

/-- The merge loop, given as many rounds as there are entries, ends with the result of greedy merging, when the sequence
numbers are distinct and below the next one. -/
theorem greedyMerge_of_mergeLoop {k next : Nat} {q : List QEntry} {r : QEntry} (hk : q.length ≤ k)
    (hnd : (q.map QEntry.seq).Nodup) (hlt : ∀ x ∈ q, x.seq < next) (h : (mergeLoop k next q).head? = some r) :
    GreedyMerge next q r := by
  induction k generalizing next q with
  | zero => simp [mergeLoop, List.length_eq_zero_iff.1 (Nat.le_zero.1 hk)] at h
  | succ k ih =>
    by_cases hq : 2 ≤ q.length
    · obtain ⟨a, b, rest, hperm, ha, hb, hmerge⟩ := mergeOnce_spec (next := next) hq hnd
      have hlen := hperm.length_eq
      have hrest : ∀ x ∈ rest, x.seq < next := fun x hx => hlt x (hperm.mem_iff.2 (by simp [hx]))
      have hndr : (rest.map QEntry.seq).Nodup := by
        have := (hperm.map QEntry.seq).nodup_iff.1 hnd
        simp only [List.map_cons, List.nodup_cons] at this
        exact this.2.2
      simp only [mergeLoop, if_pos hq, hmerge] at h
      have hgo := ih (next := next + 1) (q := rest ++ [{ w := a.w + b.w, seq := next, t := .node a.t b.t }])
        (by simp at hlen ⊢; omega)
        (by
          rw [List.map_append, List.nodup_append]
          refine ⟨hndr, by simp, ?_⟩
          simp only [List.mem_map, List.map_cons, List.map_nil, List.mem_singleton]
          rintro _ ⟨x, hx, rfl⟩ _ rfl
          exact (hrest x hx).ne)
        (by
          intro x hx
          rcases List.mem_append.1 hx with hx | hx
          · exact (hrest x hx).trans (Nat.lt_succ_self _)
          · rw [List.mem_singleton.1 hx]; exact Nat.lt_succ_self _)
        h
      exact .merge next q rest a b r hperm (fun x hx => QEntry.before_iff.1 (ha x hx))
        (fun x hx => QEntry.before_iff.1 (hb x hx)) (hgo.perm List.perm_append_comm)
    · simp only [mergeLoop, if_neg hq] at h
      match q, hq, h with
      | [_], _, h => cases h; exact .done next r
      | _ :: _ :: _, hq, _ => simp at hq

/-- Merging full trees gives a full tree with all their leaves. -/
theorem GreedyMerge.full {next : Nat} {q : List QEntry} {r : QEntry} (h : GreedyMerge next q r)
    (hq : ∀ x ∈ q, x.t.full ∧ x.t ≠ .absent) :
    r.t.full ∧ r.t ≠ .absent ∧ r.t.leafCount = (q.map (fun x => x.t.leafCount)).sum := by
  induction h with
  | done next r => simpa using hq r (by simp)
  | merge next q rest a b r split _ _ _ ih =>
    have hq' : ∀ x ∈ a :: b :: rest, x.t.full ∧ x.t ≠ .absent := fun x hx => hq x (split.mem_iff.2 hx)
    obtain ⟨ha, hb, hrest⟩ := by simpa using hq'
    obtain ⟨hfull, hne, hcount⟩ := ih (by
      intro x hx
      rcases List.mem_cons.1 hx with rfl | hx
      · exact ⟨⟨ha.2, hb.2, ha.1, hb.1⟩, nofun⟩
      · exact hrest x hx)
    refine ⟨hfull, hne, ?_⟩
    rw [hcount, (split.map _).sum_eq]
    simp [TreeSlot.leafCount, Nat.add_assoc]

theorem leafQueue_length (m : Memory) : (leafQueue m).length = m.present.length := by simp [leafQueue]

theorem leafQueue_seqs (m : Memory) : (leafQueue m).map QEntry.seq = List.range m.present.length := by
  simp only [leafQueue, List.map_map]
  exact (List.zipIdx_map_snd 0 m.present).trans (List.range_eq_range' ..).symm

/-- What BUILD makes is a greedy merge of its leaves. -/
theorem greedyMerge_of_buildRoot {m : Memory} {r : QEntry} (h : buildRoot m = some r) :
    GreedyMerge m.present.length (leafQueue m) r := by
  rw [← leafQueue_length]
  refine greedyMerge_of_mergeLoop (Nat.le_refl _) ?_ ?_ h
  · rw [leafQueue_seqs]; exact List.nodup_range
  · intro x hx
    have : x.seq ∈ (leafQueue m).map QEntry.seq := List.mem_map_of_mem hx
    rw [leafQueue_seqs, List.mem_range] at this
    rwa [leafQueue_length]

/-- The tree BUILD makes is full and has one leaf for each present symbol. -/
theorem buildRoot_full {m : Memory} {r : QEntry} (h : buildRoot m = some r) :
    r.t.full ∧ r.t ≠ .absent ∧ r.t.leafCount = m.present.length := by
  have hleaf : ∀ x ∈ leafQueue m, ∃ v, x.t = .leaf v := by
    simp only [leafQueue, List.mem_map]
    rintro _ ⟨c, -, rfl⟩
    exact ⟨_, rfl⟩
  obtain ⟨hfull, hne, hcount⟩ := (greedyMerge_of_buildRoot h).full (fun x hx => by
    obtain ⟨v, hv⟩ := hleaf x hx
    rw [hv]
    exact ⟨trivial, nofun⟩)
  refine ⟨hfull, hne, ?_⟩
  have hone : ∀ x ∈ leafQueue m, x.t.leafCount = 1 := fun x hx => by
    obtain ⟨v, hv⟩ := hleaf x hx
    rw [hv]
    rfl
  rw [hcount, List.map_congr_left hone]
  simp [leafQueue_length]

end Sys2Proof.Machine
end

section
/-! SUPPORT. The text SAVE emits (spec 41_tree_builder.md R161, R163, R164; 00_scope.md R13). -/

namespace Sys2Proof.Machine

theorem pairsOf_append (ps qs : List (Sym × List Bit)) : pairsOf (ps ++ qs) = pairsOf ps ++ pairsOf qs :=
  List.flatMap_append

/-- The text below a path is that of the codes, each behind the path. -/
theorem TreeSlot.pairsText_eq_pairsOf (t : TreeSlot) (p : List Bit) :
    t.pairsText p = pairsOf (t.codes.map (fun c => (c.1, p ++ c.2))) := by
  induction t generalizing p with
  | absent => rfl
  | leaf v => simp [pairsText, codes, pairsOf]
  | node l r ihl ihr => simp [pairsText, codes, pairsOf_append, ihl, ihr, Function.comp_def]

theorem saveBytes_eq (t : TreeSlot) : saveBytes t = (pairsOf t.codes).map CbXfer.byte ++ [.endOfStream] := by
  simp [saveBytes, TreeSlot.pairsText_eq_pairsOf]

/-- `dec(s)` is the decimal text of `s` without leading zeros (R13): one, two or three digits. -/
theorem decText_digits (v : Sym) :
    ∃ ds : List Nat, ds ≠ [] ∧ (∀ d ∈ ds, d < 10) ∧ decText v = ds.map (fun d => BitVec.ofNat 8 (0x30 + d)) ∧
      ds.foldl (fun a d => a * 10 + d) 0 = v.toNat ∧ (2 ≤ ds.length → ds.head? ≠ some 0) := by
  have hv : v.toNat < 256 := v.isLt
  by_cases h1 : v.toNat < 10
  · refine ⟨[v.toNat], by simp, by simpa, ?_, by simp, by simp⟩
    simp [decText, h1, digitByte]
  · by_cases h2 : v.toNat < 100
    · refine ⟨[v.toNat / 10, v.toNat % 10], by simp, by simp; omega, ?_, by simp; omega, by simp; omega⟩
      simp [decText, h1, h2, digitByte]
    · refine ⟨[v.toNat / 100, v.toNat / 10 % 10, v.toNat % 10], by simp, by simp; omega, ?_, by simp; omega,
        by simp; omega⟩
      simp [decText, h1, h2, digitByte]

/-- Settles O30: the text is `pairsOf` of the codes (`saveBytes_eq`), by induction on the tree. -/
theorem saveTextIsTheCodebook : Obligations.SaveTextIsTheCodebook := by
  refine ⟨saveBytes_eq, fun v => ?_, decText_digits⟩
  simp [saveBytes_eq, TreeSlot.codes, pairsOf, byteLF]

end Sys2Proof.Machine
end

section
/-! SUPPORT. What a turn of an agent other than the Core can do (spec 20_memory.md R70-R75, 40_host_access.md R120-R127). -/

namespace Sys2Proof.Machine

/-! ### Host addresses -/

/-- An access that selects something is a whole word at an offset from HUFF_BASE (20_memory.md R61, R62). -/
theorem selectAccess_eq_ok {size : AccessSize} {addr : Nat} {t : Target} (h : selectAccess size addr = .ok t) :
    size = .word ∧ ∃ off, addr = Config.huffBase + off ∧ selectOffset off = .ok t := by
  unfold selectAccess at h
  split at h
  · cases h
  · next hw =>
    split at h
    · cases h
    · next hb => exact ⟨not_not.1 hw, addr - Config.huffBase, by omega, h⟩

/-- A register index below 0x400 selects a register at its own offset, and no FREQ entry. -/
theorem regOfIndex_cases (k : Nat) : (∃ r, regOfIndex k = .reg r ∧ offsetOf r = 4 * k) ∨ regOfIndex k = .reserved := by
  unfold regOfIndex
  split
  iterate 13 exact .inl ⟨_, rfl, rfl⟩
  exact .inr rfl

/-- What a selected target says about the offset: a register stands at its own, a FREQ entry is one of the 256. -/
theorem selectOffset_eq_ok {off : Nat} {t : Target} (h : selectOffset off = .ok t) :
    match t with
    | .reg r => off = offsetOf r
    | .reserved => True
    | .freq k => k < Config.nsym := by
  rcases selectOffset_cases off with ⟨-, he⟩ | ⟨-, -, he⟩ | ⟨h4, -, he⟩ | ⟨-, h0, h8, he⟩
  · rw [he] at h; cases h
  · rw [he] at h; cases h
  · rw [he] at h
    rcases regOfIndex_cases (off / 4) with ⟨r, hr, ho⟩ | hr
    · rw [hr] at h; cases h; simp only; omega
    · rw [hr] at h; cases h; trivial
  · rw [he] at h; cases h; unfold Config.nsym; simp only; omega

/-! ### Host writes -/

/-- Everything a host write does to the state: it sets or clears flags (never setting DONE), it resets the block, it starts
a command in an idle block, or it writes a FREQ entry in an idle block. -/
theorem writeTarget_cases (t : Target) (v : Word) (s : State) :
    (∃ e d o, (d = true → s.done = true) ∧ writeTarget t v s = { s with irqEn := e, done := d, ovr := o }) ∨
    (t = .reg .CTRL ∧ v.getLsbD 0 = true ∧ writeTarget t v s = resetBlock s) ∨
    (t = .reg .CMD ∧ s.op = .idle ∧ writeTarget t v s = acceptCommand v s) ∨
    (∃ k, t = .freq k ∧ s.op = .idle ∧ writeTarget t v s = { s with freq := Memory.write s.freq k v }) := by
  have hbusy : ¬ s.busy = true → s.op = .idle := by simp [State.busy]
  have hnothing : ∃ e d o, (d = true → s.done = true) ∧ s = { s with irqEn := e, done := d, ovr := o } :=
    ⟨_, _, _, id, rfl⟩
  cases t with
  | reserved => exact .inl hnothing
  | freq k =>
    by_cases hb : s.busy = true
    · exact .inl ⟨_, _, _, id, if_pos hb⟩
    · exact .inr (.inr (.inr ⟨k, rfl, hbusy hb, if_neg hb⟩))
  | reg r =>
    cases r with
    | CTRL =>
      by_cases hv : v.getLsbD 0 = true
      · exact .inr (.inl ⟨rfl, hv, if_pos hv⟩)
      · exact .inl ⟨_, _, _, id, if_neg hv⟩
    | CMD =>
      by_cases hb : s.busy = true
      · exact .inl ⟨_, _, _, id, if_pos hb⟩
      · exact .inr (.inr (.inl ⟨rfl, hbusy hb, if_neg hb⟩))
    | STATUS => exact .inl ⟨_, _, _, fun h => (Bool.and_eq_true_iff.1 h).1, rfl⟩
    | _ => exact .inl hnothing

/-- Everything a Host's turn does: a write to what its address selects, or else nothing to the block. -/
theorem hostStep_next_cases {s t : State} (h : hostStep s = .next t) :
    (∃ p rs n, t = { s with hostProg := p, hostReads := rs, draws := n }) ∨
    (∃ size addr v rest tgt, s.hostProg = .write size addr v :: rest ∧ selectAccess size addr = .ok tgt ∧
      t = { writeTarget tgt v s with hostProg := rest }) := by
  unfold hostStep at h
  split at h
  · cases h; exact .inl ⟨_, _, _, rfl⟩
  · split at h
    · cases h
    · next tgt _ =>
      obtain ⟨n, hn⟩ := readTarget_state tgt s
      rcases hr : readTarget tgt s with ⟨v, s'⟩
      rw [hr] at h hn
      obtain rfl : s' = { s with draws := n } := hn
      cases h
      exact .inl ⟨_, _, _, rfl⟩
  · next hp =>
    split at h
    · cases h
    · next hsel => cases h; exact .inr ⟨_, _, _, _, _, hp, hsel, rfl⟩
  · cases h; exact .inl ⟨_, _, _, rfl⟩
  · cases h
    split
    · exact .inl ⟨_, _, _, rfl⟩
    · exact .inl ⟨_, _, _, rfl⟩

/-! ### Sources and sinks -/

/-- A source's turn only pushes into bit_in or cb_in, at most one transfer and only while there is room; a sink's turn only
pops. -/
theorem streamStep_cases {a : Agent} {s t : State} (ha : a ≠ .core) (ha' : a ≠ .host) (h : agentStep a s = .next t) :
    ∃ bi bs ci cs so sg co cg,
      t = { s with
        bitIn := bi, bitSrc := bs, cbIn := ci, cbSrc := cs, symOut := so, symGot := sg, cbOut := co, cbGot := cg } ∧
      bi.length ≤ max s.bitIn.length Config.inDepth ∧ ci.length ≤ max s.cbIn.length Config.inDepth ∧
      so.length ≤ s.symOut.length ∧ co.length ≤ s.cbOut.length := by
  rcases agentStep_cases a s with ⟨h', -⟩ | ⟨h', -⟩ | ⟨-, he⟩ | ⟨-, he⟩ | ⟨-, he⟩ | ⟨-, he⟩
  · exact absurd h' ha'
  · exact absurd h' ha
  all_goals
    rw [he] at h
    cases h
  · unfold bitSourceStep
    split
    · exact ⟨_, _, _, _, _, _, _, _, rfl, by simp⟩
    · split
      · exact ⟨_, _, _, _, _, _, _, _, rfl, by simp; omega, by simp⟩
      · exact ⟨_, _, _, _, _, _, _, _, rfl, by simp⟩
  · unfold cbSourceStep
    split
    · exact ⟨_, _, _, _, _, _, _, _, rfl, by simp⟩
    · split
      · exact ⟨_, _, _, _, _, _, _, _, rfl, by simp, by simp; omega, by simp⟩
      · exact ⟨_, _, _, _, _, _, _, _, rfl, by simp⟩
  · unfold symSinkStep
    split
    · exact ⟨_, _, _, _, _, _, _, _, rfl, by simp⟩
    · next hs => exact ⟨_, _, _, _, _, _, _, _, rfl, by simp, by simp, by simp [hs], by simp⟩
  · unfold cbSinkStep
    split
    · exact ⟨_, _, _, _, _, _, _, _, rfl, by simp⟩
    · next hs => exact ⟨_, _, _, _, _, _, _, _, rfl, by simp, by simp, by simp, by simp [hs]⟩

/-! ### Noninterference (00_scope.md R8, 20_memory.md R75, R80) -/

/-- Nothing of the tree store, the decoder cursor, the Core's working state and the result registers differs; and if a
command runs, nothing of FREQ, the running operation and its error either. -/
def CoreStateKept (s t : State) : Prop :=
  t.tree = s.tree ∧ t.cur = s.cur ∧ t.out = s.out ∧ t.ld = s.ld ∧
  t.leaves = s.leaves ∧ t.nodes = s.nodes ∧ t.weight = s.weight ∧
  t.decBits = s.decBits ∧ t.decSyms = s.decSyms ∧ t.decDepth = s.decDepth ∧
  t.cbPairs = s.cbPairs ∧ t.cbLine = s.cbLine ∧
  (s.op ≠ .idle → t.freq = s.freq ∧ t.op = s.op ∧ t.started = s.started ∧ t.err = s.err ∧ t.cmdLast = s.cmdLast)

theorem writeTarget_coreStateKept {t : Target} {v : Word} (s : State) (h : ¬ (t = .reg .CTRL ∧ v.getLsbD 0 = true)) :
    CoreStateKept s (writeTarget t v s) := by
  rcases writeTarget_cases t v s with ⟨e, d, o, -, hw⟩ | ⟨ht, hv, -⟩ | ⟨-, hidle, hw⟩ | ⟨k, -, hidle, hw⟩
  · rw [hw]; simp [CoreStateKept]
  · exact absurd ⟨ht, hv⟩ h
  · rw [hw]; simp [CoreStateKept, hidle]
  · rw [hw]; simp [CoreStateKept, hidle]

/-- A Host's turn that is no soft reset keeps the Core's state. -/
theorem hostStep_coreStateKept {s t : State} (h : hostStep s = .next t)
    (hsrst : ∀ size addr v rest, s.hostProg = .write size addr v :: rest →
      ¬ (addr = Config.huffBase + 0x004 ∧ v.getLsbD 0 = true)) :
    CoreStateKept s t := by
  rcases hostStep_next_cases h with ⟨p, rs, n, rfl⟩ | ⟨size, addr, v, rest, tgt, hp, hsel, rfl⟩
  · simp [CoreStateKept]
  · refine writeTarget_coreStateKept s ?_
    rintro ⟨rfl, hv⟩
    obtain ⟨-, off, rfl, hoff⟩ := selectAccess_eq_ok hsel
    obtain rfl : off = offsetOf .CTRL := selectOffset_eq_ok hoff
    exact hsrst _ _ _ _ hp ⟨rfl, hv⟩

/-- Settles O48: of the host's writes only a soft reset reaches the Core's state, and one of CMD or FREQ takes effect only
in an idle block; a source or a sink moves only transfers. -/
theorem onlyTheCoreChangesTreeAndResults : Obligations.OnlyTheCoreChangesTreeAndResults := by
  intro s t a r hsched ha hstep hsrst
  rw [step_agent s a r hsched] at hstep
  by_cases hh : a = .host
  · subst hh
    exact hostStep_coreStateKept (s := { s with sched := r }) hstep fun size addr v rest => hsrst size addr v rest rfl
  · obtain ⟨bi, bs, ci, cs, so, sg, co, cg, rfl, -⟩ := streamStep_cases ha hh hstep
    simp

end Sys2Proof.Machine
end

section
/-! SUPPORT. Every step keeps the invariant (spec 10_state.md R27-R29, R38, R41-R43; 42_decoder.md R200): one lemma for each
way a command begins, goes on and ends, one for each command, one for each agent. -/

namespace Sys2Proof.Machine

/-! ### A command that ends -/

/-- The clauses of the invariant that do not speak of a running command: what is left to show when a command ends. -/
structure State.RestInv (s : State) : Prop where
  freq_wf      : Memory.wf s.freq
  tree_fits    : s.tree.Fits
  tree_results : s.leaves.toNat = s.tree.leafCount ∧ s.nodes.toNat = s.tree.size
  last_op      : s.lastOp = s.cmdLast.extractLsb 3 0
  bitIn_depth  : s.bitIn.length ≤ Config.inDepth
  cbIn_depth   : s.cbIn.length ≤ Config.inDepth
  symOut_depth : s.symOut.length ≤ Config.outDepth
  cbOut_depth  : s.cbOut.length ≤ Config.outDepth

theorem State.Inv.tree_fits {s : State} (h : s.Inv) : s.tree.Fits := ⟨h.tree_size, h.tree_depth, h.tree_proper⟩

/-- The clauses hold at any time but while LOAD builds its tree. -/
theorem State.Inv.rest {s : State} (h : s.Inv) (hl : s.op ≠ .run .load) : s.RestInv :=
  { h with tree_fits := h.tree_fits, tree_results := h.tree_results fun hls => hl hls.1 }

/-- In an idle state they are all that matters. -/
theorem State.RestInv.inv_of_idle {s : State} (h : s.RestInv) (hop : s.op = .idle) (hst : s.started = false)
    (hd : s.errDetail ≠ .none ↔ s.err = .malformedCodebook) : s.Inv where
  freq_wf := h.freq_wf
  tree_size := h.tree_fits.size
  tree_depth := h.tree_fits.depth
  tree_proper := h.tree_fits.proper
  tree_results := fun _ => h.tree_results
  busy_done := absurd hop
  busy_err := absurd hop
  detail_err := hd
  last_op := h.last_op
  op_word := .inl hop
  started_op := by simp [hst]
  bitIn_depth := h.bitIn_depth
  cbIn_depth := h.cbIn_depth
  symOut_depth := h.symOut_depth
  cbOut_depth := h.cbOut_depth
  save_out := by simp [hst]
  load_ld := by simp [hst]
  decode_cur := by simp [hst]

theorem finish_inv {s : State} (h : s.RestInv) (hd : s.errDetail ≠ .none ↔ s.err = .malformedCodebook) :
    (finish s).Inv :=
  State.RestInv.inv_of_idle { h with } rfl rfl hd

theorem raiseErr_inv {s : State} {e : ErrCode} {d : ErrDetail} (h : s.RestInv)
    (hd : d ≠ .none ↔ e = .malformedCodebook) : (raiseErr e d s).Inv :=
  State.RestInv.inv_of_idle { h with } rfl rfl hd

theorem dropTree_rest {s : State} (h : s.Inv) : (dropTree s).RestInv :=
  { h with tree_fits := TreeSlot.fits_absent, tree_results := ⟨rfl, rfl⟩ }

/-- LEAVES and NODES have room for the numbers of a tree that fits the tree store. -/
theorem installTree_rest {s : State} {t : TreeSlot} (h : s.Inv) (ht : t.Fits) (w : Nat) :
    (installTree t t.leafCount t.size w s).RestInv := by
  have hsize : t.size ≤ 511 := ht.size
  have hleaves := t.leafCount_le_size
  exact { h with tree_fits := ht, tree_results := ⟨by simp; omega, by simp; omega⟩ }

theorem reset_rest : State.reset.RestInv where
  freq_wf := Memory.wf_nil
  tree_fits := TreeSlot.fits_absent
  tree_results := ⟨rfl, rfl⟩
  last_op := by decide
  bitIn_depth := Nat.zero_le _
  cbIn_depth := Nat.zero_le _
  symOut_depth := Nat.zero_le _
  cbOut_depth := Nat.zero_le _

theorem resetBlock_inv (s : State) : (resetBlock s).Inv :=
  State.RestInv.inv_of_idle { reset_rest with } rfl rfl (by simp [State.reset])

/-! ### The steps of a command -/

/-- Where a Core's or a Host's step goes on, the invariant holds. -/
def KeepsInv (r : Result) : Prop := ∀ t, r = .next t → t.Inv

theorem keepsInv_next {t : State} (h : t.Inv) : KeepsInv (.next t) := fun _ ht => Host.Outcome.next.inj ht ▸ h

theorem keepsInv_fault (f : Fault) : KeepsInv (.fault f) := fun _ => nofun

/-! ### BUILD -/

theorem execBuild_keepsInv {s : State} (h : s.Inv) : KeepsInv (execBuild s) := by
  unfold execBuild
  split
  · exact keepsInv_next (raiseErr_inv (dropTree_rest h) (by decide))
  · next r hr =>
    obtain ⟨hfull, hne, hcount⟩ := buildRoot_full hr
    have hsize : 2 * r.t.leafCount - 1 = r.t.size := by
      have := TreeSlot.size_of_full hfull hne
      omega
    have hfits := TreeSlot.fits_of_full hfull hne (hcount ▸ s.freq.present_length_le)
    simp only [← hcount, hsize]
    exact keepsInv_next (finish_inv (installTree_rest h hfits r.w) h.detail_err)

/-! ### SAVE -/

/-- The last of the text, and only that, is END. -/
theorem eq_endOfStream_of_suffix {x : CbXfer} {t : TreeSlot} (h : [x] <:+ saveBytes t) : x = .endOfStream := by
  obtain ⟨l, hl⟩ := h
  exact (List.append_inj' hl rfl).2 |> List.singleton_inj.1

theorem saveStart_inv {s : State} (h : s.Inv) (hop : s.op = .run .save) : (saveStart s).Inv := by
  unfold saveStart
  split
  · exact raiseErr_inv (h.rest (by simp [hop])) (by decide)
  · next ht =>
    exact { h with
      tree_results := fun _ => h.tree_results (by simp [hop])
      started_op := fun _ => .inl hop
      save_out := fun _ _ => ⟨ht, by simp [saveBytes], List.suffix_refl _⟩
      load_ld := by simp [hop]
      decode_cur := by simp [hop] }

theorem saveTransfer_inv {s : State} (h : s.Inv) (hop : s.op = .run .save) (hst : s.started = true)
    (hroom : s.cbOut.length < Config.outDepth) {x : CbXfer} {rest : List CbXfer} (hout : s.out = x :: rest) :
    (saveTransfer x rest s).Inv := by
  have hdepth : (s.cbOut ++ [x]).length ≤ Config.outDepth := by simpa using hroom
  obtain ⟨htree, -, hsuffix⟩ := h.save_out hop hst
  rw [hout] at hsuffix
  unfold saveTransfer
  split
  · exact finish_inv { h.rest (by simp [hop]) with cbOut_depth := hdepth } h.detail_err
  · next hx =>
    have hrest : rest ≠ [] := by
      rintro rfl
      exact hx (eq_endOfStream_of_suffix hsuffix)
    exact { h with
      cbOut_depth := hdepth
      save_out := fun _ _ => ⟨htree, hrest, (List.suffix_cons x rest).trans hsuffix⟩ }

theorem execSave_keepsInv {s : State} (h : s.Inv) (hop : s.op = .run .save) : KeepsInv (execSave s) := by
  unfold execSave
  split
  · next hst =>
    split
    · next hroom =>
      split
      · exact keepsInv_fault _
      · next hout => exact keepsInv_next (saveTransfer_inv h hop hst hroom hout)
    · exact keepsInv_next h
  · exact keepsInv_next (saveStart_inv h hop)

/-! ### LOAD's parser -/

namespace LoadState

theorem init_inv : LoadState.init.Inv where
  code_length := Nat.zero_le _
  digit_read := nofun
  size_nodes := rfl
  nodes_cap := Nat.zero_le _
  leaves_pairs := rfl
  no_pairs := fun _ => rfl
  root_node := nofun
  T_depth := Nat.zero_le _
  T_proper := trivial
  seen_nodup := List.nodup_nil
  seen_leaves := fun _ => Iff.rfl
  line_number := rfl

namespace Inv

variable {ld : LoadState}

theorem T_fits (h : ld.Inv) : ld.T.Fits := ⟨h.size_nodes ▸ h.nodes_cap, h.T_depth, h.T_proper⟩

/-- There are no more pairs than nodes. -/
theorem pairs_le (h : ld.Inv) : ld.pairs ≤ 511 := by
  have hcap : ld.nodes ≤ 511 := h.nodes_cap
  rw [← h.leaves_pairs]
  exact ld.T.leafCount_le_size.trans (h.size_nodes ▸ hcap)

/-- The line number does not wrap. -/
theorem next_line (h : ld.Inv) : (ld.line + 1#32).toNat = ld.line.toNat + 1 := by
  have hp := h.pairs_le
  have hl := h.line_number
  have : ld.line.toNat ≤ 1024 := by split at hl <;> omega
  rw [BitVec.toNat_add]
  exact Nat.mod_eq_of_lt (by simp; omega)

/-- A digit of a symbol line (R191). -/
theorem read_digit (h : ld.Inv) (v : Sym) : LoadState.Inv { ld with acc := v, hasDigit := true } :=
  { h with digit_read := fun _ => rfl }

/-- The LF of a symbol line (R191). -/
theorem end_symbol_line (h : ld.Inv) (hp : ld.phase = .sym) (hd : ld.hasDigit = true) :
    LoadState.Inv { ld with phase := .code, code := [], line := ld.line + 1#32 } :=
  { h with
    code_length := Nat.zero_le _
    digit_read := fun _ => hd
    line_number := by rw [h.next_line, h.line_number, hp]; simp }

/-- A bit of a code line (R192). -/
theorem read_bit (h : ld.Inv) (hc : ld.code.length ≠ Config.maxCodeLen) (b : Bit) :
    LoadState.Inv { ld with code := ld.code ++ [b] } :=
  { h with code_length := by simpa using Nat.lt_of_le_of_ne h.code_length hc }

/-- The LF of a code line whose pair goes into the tree (R192, R194). -/
theorem add_pair (h : ld.Inv) (hp : ld.phase = .code) (hc : ld.code ≠ []) {t : TreeSlot} {n : Nat}
    (hins : insertCode ld.acc ld.code ld.T ld.nodes = .ok (t, n)) :
    LoadState.Inv { ld with
      T := t, nodes := n, seen := if ld.seen.contains ld.acc then ld.seen else ld.acc :: ld.seen,
      pairs := ld.pairs + 1, line := ld.line + 1#32, phase := .sym, acc := 0#8, hasDigit := false } := by
  have hi := Inserts.of_insertCode hins
  exact {
    code_length := h.code_length
    digit_read := nofun
    size_nodes := by
      have hsize := hi.size_eq
      have hnodes := h.size_nodes
      simp only
      omega
    nodes_cap := hi.nodes_le
    leaves_pairs := by rw [hi.leafCount_eq, h.leaves_pairs]
    no_pairs := nofun
    root_node := hi.ne_leaf hc
    T_depth := hi.depth_le.trans (max_le h.T_depth h.code_length)
    T_proper := hi.proper (.inl h.T_proper)
    seen_nodup := h.seen_nodup.insert
    seen_leaves := fun v => by
      change v ∈ ld.seen.insert ld.acc ↔ _
      rw [List.mem_insert_iff, (hi.codes_perm.map Prod.fst).mem_iff, List.map_cons, List.mem_cons, h.seen_leaves]
    line_number := by rw [h.next_line, h.line_number, hp]; simp; omega }

end Inv

end LoadState

/-! ### LOAD -/

theorem loadStart_inv {s : State} (h : s.Inv) (hop : s.op = .run .load) : (loadStart s).Inv :=
  { h with
    tree_size := TreeSlot.fits_absent.size
    tree_depth := TreeSlot.fits_absent.depth
    tree_proper := TreeSlot.fits_absent.proper
    tree_results := absurd ⟨hop, rfl⟩
    started_op := fun _ => .inr (.inl hop)
    save_out := by simp [loadStart, hop]
    load_ld := fun _ _ => ⟨rfl, LoadState.init_inv⟩
    decode_cur := by simp [loadStart, hop] }

theorem loadFail_inv {s : State} {e : ErrCode} {d : ErrDetail} (h : s.Inv)
    (hd : d ≠ .none ↔ e = .malformedCodebook) : (loadFail e d s).Inv :=
  raiseErr_inv { dropTree_rest h with } hd

theorem loadMalformed_inv {s : State} {d : ErrDetail} (h : s.Inv) (hd : d ≠ .none) : (loadMalformed d s).Inv :=
  loadFail_inv h (by simp [hd])

theorem loadSucceed_inv {s : State} (h : s.Inv) (hld : s.ld.Inv) : (loadSucceed s).Inv := by
  unfold loadSucceed
  rw [← hld.leaves_pairs, ← hld.size_nodes]
  exact finish_inv { installTree_rest h hld.T_fits 0 with } h.detail_err

section

variable {s : State} (h : s.Inv) (hop : s.op = .run .load) (hst : s.started = true)

include h hop hst

/-- While LOAD runs only its parser's state moves. -/
theorem setLd_inv {ld : LoadState} (hld : ld.Inv) (w : Bool) : State.Inv { s with wDupsym := w, ld := ld } :=
  { h with load_ld := fun _ _ => ⟨(h.load_ld hop hst).1, hld⟩ }

theorem symStep_inv (hph : s.ld.phase = .sym) (x : CbXfer) : (symStep x s).Inv := by
  have hld := (h.load_ld hop hst).2
  unfold symStep
  split
  · split
    · exact loadMalformed_inv h nofun
    · split
      · exact loadMalformed_inv h nofun
      · exact loadSucceed_inv h hld
  · split
    · dsimp only
      split
      · exact setLd_inv h hop hst (hld.read_digit _) _
      · exact loadMalformed_inv h nofun
    · split
      · split
        · next hd => exact setLd_inv h hop hst (hld.end_symbol_line hph hd) _
        · exact loadMalformed_inv h nofun
      · exact loadMalformed_inv h nofun

theorem loadPair_inv (hph : s.ld.phase = .code) (hc : s.ld.code ≠ []) : (loadPair s).Inv := by
  have hld := (h.load_ld hop hst).2
  unfold loadPair
  split
  · exact loadMalformed_inv h nofun
  · exact loadFail_inv h (by decide)
  · next hins => exact setLd_inv h hop hst (hld.add_pair hph hc hins) _

theorem codeStep_inv (hph : s.ld.phase = .code) (x : CbXfer) : (codeStep x s).Inv := by
  have hld := (h.load_ld hop hst).2
  unfold codeStep
  split
  · exact loadMalformed_inv h nofun
  · split
    · split
      · exact loadMalformed_inv h nofun
      · next hlen => exact setLd_inv h hop hst (hld.read_bit hlen _) _
    · split
      · split
        · exact loadMalformed_inv h nofun
        · next hc => exact loadPair_inv h hop hst hph hc
      · exact loadMalformed_inv h nofun

theorem loadTransfer_inv (x : CbXfer) : (loadTransfer x s).Inv := by
  unfold loadTransfer
  split
  · next hph => exact symStep_inv h hop hst hph x
  · next hph => exact codeStep_inv h hop hst hph x

end

theorem execLoad_keepsInv {s : State} (h : s.Inv) (hop : s.op = .run .load) : KeepsInv (execLoad s) := by
  unfold execLoad
  split
  · next hst =>
    split
    · exact keepsInv_next h
    · next x rest hin =>
      have hdepth : rest.length ≤ Config.inDepth := by
        have := h.cbIn_depth
        rw [hin, List.length_cons] at this
        omega
      have h' : State.Inv { s with cbIn := rest } := { h with cbIn_depth := hdepth }
      exact keepsInv_next (loadTransfer_inv h' hop hst x)
  · exact keepsInv_next (loadStart_inv h hop)

/-! ### DECODE -/

theorem decodeStart_inv {s : State} (h : s.Inv) (hop : s.op = .run .decode) : (decodeStart s).Inv := by
  unfold decodeStart
  dsimp only
  split
  · exact raiseErr_inv { h.rest (by simp [hop]) with } (by decide)
  · next ht =>
    exact { h with
      tree_results := fun _ => h.tree_results (by simp [hop])
      started_op := fun _ => .inr (.inr hop)
      save_out := by simp [hop]
      load_ld := by simp [hop]
      decode_cur := fun _ _ => ⟨ht, .inl rfl⟩ }

section

variable {s : State} (h : s.Inv) (hop : s.op = .run .decode) (hst : s.started = true)
  (hroom : s.symOut.length < Config.outDepth)

include h hop hst hroom

theorem decodeBit_inv (b : Bit) : (decodeBit b s).Inv := by
  have htree := (h.decode_cur hop hst).1
  unfold decodeBit
  dsimp only
  split
  · exact raiseErr_inv { h.rest (by simp [hop]) with } (by decide)
  · exact { h with
      symOut_depth := by simpa [emitSym] using hroom
      decode_cur := fun _ _ => ⟨htree, .inl rfl⟩ }
  · next l r hnode => exact { h with decode_cur := fun _ _ => ⟨htree, .inr ⟨l, r, hnode⟩⟩ }

theorem decodeTransfer_inv (x : BitXfer) : (decodeTransfer x s).Inv := by
  cases x with
  | endOfStream => exact finish_inv { h.rest (by simp [hop]) with } h.detail_err
  | bit b => exact decodeBit_inv h hop hst hroom b

end

theorem execDecode_keepsInv {s : State} (h : s.Inv) (hop : s.op = .run .decode) : KeepsInv (execDecode s) := by
  unfold execDecode
  split
  · next hst =>
    split
    · exact keepsInv_next h
    · next x rest hin =>
      have hdepth : rest.length ≤ Config.inDepth := by
        have := h.bitIn_depth
        rw [hin, List.length_cons] at this
        omega
      split
      · next hroom =>
        have h' : State.Inv { s with bitIn := rest } := { h with bitIn_depth := hdepth }
        exact keepsInv_next (decodeTransfer_inv h' hop hst hroom x)
      · exact keepsInv_next h
  · exact keepsInv_next (decodeStart_inv h hop)

/-! ### The Core -/

theorem exec_keepsInv {s : State} {i : Instr} (h : s.Inv) (hop : s.op = .run i) : KeepsInv (exec i s) := by
  have hrest : i ≠ .load → s.RestInv := fun hi => h.rest (by simpa [hop] using hi)
  cases i with
  | nop => exact keepsInv_next (finish_inv (hrest nofun) h.detail_err)
  | build => exact execBuild_keepsInv h
  | save => exact execSave_keepsInv h hop
  | load => exact execLoad_keepsInv h hop
  | decode => exact execDecode_keepsInv h hop
  | clearTree => exact keepsInv_next (finish_inv (dropTree_rest h) h.detail_err)
  | clearFreq => exact keepsInv_next (finish_inv { hrest nofun with freq_wf := Memory.wf_nil } h.detail_err)
  | flush =>
    exact keepsInv_next
      (finish_inv { hrest nofun with bitIn_depth := Nat.zero_le _, cbIn_depth := Nat.zero_le _ } h.detail_err)

theorem coreStep_keepsInv {s : State} (h : s.Inv) : KeepsInv (coreStep s) := by
  cases hop : s.op with
  | idle => rw [coreStep_idle hop]; exact keepsInv_next h
  | run i => rw [coreStep_run hop]; exact exec_keepsInv h hop
  | illegal =>
    rw [coreStep_illegal hop]
    exact keepsInv_next (raiseErr_inv (h.rest (by simp [hop])) (by decide))

/-! ### The other agents -/

theorem acceptCommand_inv {s : State} (h : s.Inv) (hop : s.op = .idle) (w : Word) : (acceptCommand w s).Inv :=
  { h with
    tree_results := fun _ => h.tree_results (by simp [hop])
    busy_done := fun _ => rfl
    busy_err := fun _ => rfl
    detail_err := by simp
    last_op := rfl
    op_word := .inr rfl
    started_op := nofun
    save_out := fun _ => nofun
    load_ld := fun _ => nofun
    decode_cur := fun _ => nofun }

theorem writeTarget_inv {s : State} {t : Target} (h : s.Inv) (ht : ∀ k, t = .freq k → k < Config.nsym) (v : Word) :
    (writeTarget t v s).Inv := by
  rcases writeTarget_cases t v s with ⟨e, d, o, hd, hw⟩ | ⟨-, -, hw⟩ | ⟨-, hidle, hw⟩ | ⟨k, hk, -, hw⟩
  · rw [hw]
    exact { h with busy_done := fun hb => by simpa [h.busy_done hb] using hd }
  · rw [hw]; exact resetBlock_inv s
  · rw [hw]; exact acceptCommand_inv h hidle v
  · rw [hw]; exact { h with freq_wf := Memory.wf_write h.freq_wf (ht k hk) }

theorem hostStep_keepsInv {s : State} (h : s.Inv) : KeepsInv (hostStep s) := by
  intro t ht
  rcases hostStep_next_cases ht with ⟨p, rs, n, rfl⟩ | ⟨size, addr, v, rest, tgt, -, hsel, rfl⟩
  · exact { h with }
  · obtain ⟨-, off, -, hoff⟩ := selectAccess_eq_ok hsel
    have hk : ∀ k, tgt = .freq k → k < Config.nsym := by
      rintro k rfl
      exact selectOffset_eq_ok hoff
    exact { writeTarget_inv h hk v with }

theorem agentStep_keepsInv {s : State} (h : s.Inv) (a : Agent) : KeepsInv (agentStep a s) := by
  by_cases hcore : a = .core
  · subst hcore
    exact coreStep_keepsInv h
  by_cases hhost : a = .host
  · subst hhost
    exact hostStep_keepsInv h
  intro t ht
  obtain ⟨bi, bs, ci, cs, so, sg, co, cg, rfl, hbi, hci, hso, hco⟩ := streamStep_cases hcore hhost ht
  exact { h with
    bitIn_depth := hbi.trans (max_le h.bitIn_depth (Nat.le_refl _))
    cbIn_depth := hci.trans (max_le h.cbIn_depth (Nat.le_refl _))
    symOut_depth := hso.trans h.symOut_depth
    cbOut_depth := hco.trans h.cbOut_depth }

/-- Settles O54: a step is an agent's turn, which keeps the invariant (`agentStep_keepsInv`), or a hardware reset. -/
theorem everyStepKeepsTheInvariant : Obligations.EveryStepKeepsTheInvariant := by
  intro s t h hstep
  rcases step_next_cases hstep with ⟨a, r, ht⟩ | ⟨r, rfl⟩
  · exact agentStep_keepsInv (s := { s with sched := r }) { h with } a t ht
  · exact resetBlock_inv _

end Sys2Proof.Machine
end

section
/-! SUPPORT. The words STATUS and CTRL read as, field by field (spec 10_state.md R23, R25, R26), and the interrupt
output (R44). Both words are concatenations, so a bit or a slice of one is the field that stands there. -/

namespace Sys2Proof.Machine

@[simp] theorem regValue_STATUS (s : State) : s.regValue .STATUS = s.statusWord := rfl
@[simp] theorem regValue_CTRL (s : State) : s.regValue .CTRL = s.ctrlWord := rfl

/-! ### The codes of the error tables (60_exceptions.md R240, R241) -/

/-- The number R240 gives an error. -/
theorem toNat_errCode (e : ErrCode) :
    (errCode e).toNat = (match e with
      | .none => 0 | .noSymbols => 1 | .malformedCodebook => 2 | .corruptTree => 3 | .capacity => 4 | .noTree => 5
      | .illegalCommand => 6) := by
  cases e <;> rfl

/-- The number R241 gives a detail. -/
theorem toNat_errDetailCode (d : ErrDetail) :
    (errDetailCode d).toNat = (match d with
      | .none => 0 | .badSymbolChar => 1 | .emptySymbol => 2 | .symbolRange => 3 | .badCodeChar => 4 | .emptyCode => 5
      | .codeTooLong => 6 | .prefixConflict => 7 | .incompletePair => 8 | .emptyCodebook => 9) := by
  cases d <;> rfl

/-! ### The one-bit fields -/

/-- The flags of STATUS by bit number (10_state.md R25). -/
def State.statusFlags (s : State) : List Bool := [s.busy, s.done, s.treeValid, s.wTrail, s.wDupsym, s.ovr]

section

variable (s : State)

theorem getLsbD_statusWord_flag {i : Nat} (hi : i < 6) : s.statusWord.getLsbD i = s.statusFlags.getD i false := by
  unfold State.statusWord
  repeat rw [BitVec.getLsbD_append]
  interval_cases i <;> simp [State.statusFlags]

theorem getLsbD_statusWord_busy : s.statusWord.getLsbD 0 = s.busy := getLsbD_statusWord_flag s (by decide)
theorem getLsbD_statusWord_done : s.statusWord.getLsbD 1 = s.done := getLsbD_statusWord_flag s (by decide)
theorem getLsbD_statusWord_treeValid : s.statusWord.getLsbD 2 = s.treeValid :=
  getLsbD_statusWord_flag s (by decide)
theorem getLsbD_statusWord_wTrail : s.statusWord.getLsbD 3 = s.wTrail := getLsbD_statusWord_flag s (by decide)
theorem getLsbD_statusWord_wDupsym : s.statusWord.getLsbD 4 = s.wDupsym :=
  getLsbD_statusWord_flag s (by decide)
theorem getLsbD_statusWord_ovr : s.statusWord.getLsbD 5 = s.ovr := getLsbD_statusWord_flag s (by decide)

theorem getLsbD_ctrlWord_irqEn : s.ctrlWord.getLsbD 1 = s.irqEn := by
  rw [State.ctrlWord, BitVec.getLsbD_append, BitVec.getLsbD_append]
  simp

/-! ### The wider fields

Each slice lies wholly in one part of the concatenation: first drop the parts below it
(`extractLsb'_append_eq_of_le`), then those above (`extractLsb'_append_eq_of_add_le`). The inner widths are evaluated
numerals, so `simp`'s index does not find these two; `rw` does. -/

theorem extractLsb_statusWord_reserved_low : s.statusWord.extractLsb 7 6 = 0#2 := by
  unfold State.statusWord BitVec.extractLsb
  repeat rw [BitVec.extractLsb'_append_eq_of_le (by decide)]
  rw [BitVec.extractLsb'_append_eq_of_add_le (by decide)]
  simp

theorem extractLsb_statusWord_err : s.statusWord.extractLsb 11 8 = errCode s.err := by
  unfold State.statusWord BitVec.extractLsb
  repeat rw [BitVec.extractLsb'_append_eq_of_le (by decide)]
  rw [BitVec.extractLsb'_append_eq_of_add_le (by decide)]
  simp

theorem extractLsb_statusWord_errDetail : s.statusWord.extractLsb 15 12 = errDetailCode s.errDetail := by
  unfold State.statusWord BitVec.extractLsb
  repeat rw [BitVec.extractLsb'_append_eq_of_le (by decide)]
  rw [BitVec.extractLsb'_append_eq_of_add_le (by decide)]
  simp

theorem extractLsb_statusWord_lastOp : s.statusWord.extractLsb 19 16 = s.lastOp := by
  unfold State.statusWord BitVec.extractLsb
  repeat rw [BitVec.extractLsb'_append_eq_of_le (by decide)]
  rw [BitVec.extractLsb'_append_eq_of_add_le (by decide)]
  simp

theorem extractLsb_statusWord_reserved_high : s.statusWord.extractLsb 31 20 = 0#12 := by
  unfold State.statusWord BitVec.extractLsb
  repeat rw [BitVec.extractLsb'_append_eq_of_le (by decide)]
  simp

end

/-! ### BUSY and TREE_VALID follow the state (10_state.md R25, R42) -/

theorem busy_eq_decide (s : State) : s.busy = decide (s.op ≠ .idle) := by
  by_cases h : s.op = .idle <;> simp [State.busy, h]

theorem treeValid_eq_decide (s : State) : s.treeValid = decide (s.tree ≠ .absent) := by
  by_cases h : s.tree = .absent <;> simp [State.treeValid, h]

/-! ### The obligations -/

/-- Settles O14: bit 1 of STATUS is DONE, bit 1 of CTRL is IRQ_EN, and both are 0 after reset. -/
theorem irqIsDoneAndEnable : Obligations.IrqIsDoneAndEnable := by
  refine ⟨fun s => ?_, rfl⟩
  rw [regValue_STATUS, regValue_CTRL, getLsbD_statusWord_done, getLsbD_ctrlWord_irqEn, State.irq]

/-- Settles O15: each field by its own law above. -/
theorem statusFieldsStandAtTheirBits : Obligations.StatusFieldsStandAtTheirBits := by
  intro s
  rw [regValue_STATUS]
  refine ⟨?busy, getLsbD_statusWord_done s, ?treeValid, getLsbD_statusWord_wTrail s, getLsbD_statusWord_wDupsym s,
    getLsbD_statusWord_ovr s, extractLsb_statusWord_reserved_low s, ?err, ?errDetail,
    extractLsb_statusWord_lastOp s, extractLsb_statusWord_reserved_high s⟩
  case busy => rw [getLsbD_statusWord_busy, busy_eq_decide]
  case treeValid => rw [getLsbD_statusWord_treeValid, treeValid_eq_decide]
  case err => rw [extractLsb_statusWord_err]; exact toNat_errCode s.err
  case errDetail => rw [extractLsb_statusWord_errDetail]; exact toNat_errDetailCode s.errDetail

end Sys2Proof.Machine
end

section
/-! SUPPORT. Which host accesses complete (spec 20_memory.md R61-R63, R68), and that nothing else stops a step. -/

namespace Sys2Proof.Machine

/-! ### The accesses that select something -/

theorem legalOffset_iff {off : Nat} : legalOffset off = true ↔ off % 4 = 0 ∧ off < 0x800 := by
  rw [legalOffset, Bool.and_eq_true, beq_iff_eq, decide_eq_true_iff, Config.windowSize]

theorem selectOffset_isOk_iff {off : Nat} : (∃ t, selectOffset off = .ok t) ↔ legalOffset off = true := by
  rw [legalOffset_iff]
  rcases selectOffset_cases off with ⟨h4, he⟩ | ⟨-, h8, he⟩ | ⟨h4, h0, he⟩ | ⟨h4, -, h8, he⟩
  · simp [he, h4]
  · simp [he, h8]
  · simp [he, h4]; omega
  · simp [he, h4, h8]

/-- An access selects something iff it is a whole word at a legal offset from HUFF_BASE. -/
theorem selectAccess_isOk_iff {size : AccessSize} {addr : Nat} :
    (∃ t, selectAccess size addr = .ok t) ↔
      size = .word ∧ ∃ off, legalOffset off = true ∧ addr = Config.huffBase + off := by
  constructor
  · rintro ⟨t, h⟩
    obtain ⟨hsize, off, haddr, hoff⟩ := selectAccess_eq_ok h
    exact ⟨hsize, off, selectOffset_isOk_iff.1 ⟨t, hoff⟩, haddr⟩
  · rintro ⟨rfl, off, hoff, rfl⟩
    rw [selectAccess_word]
    exact selectOffset_isOk_iff.2 hoff

/-- A refused access is no whole word at a legal offset. -/
theorem not_legal_of_selectAccess_error {size : AccessSize} {addr : Nat} {q : Refusal}
    (h : selectAccess size addr = .error q) :
    ¬ (size = .word ∧ ∃ off, legalOffset off = true ∧ addr = Config.huffBase + off) := by
  rw [← selectAccess_isOk_iff, h]
  simp

/-! ### The Host's turn -/

/-- The host's next operation is a read or a write of this size at this address. -/
def State.NextAccess (s : State) (size : AccessSize) (addr : Nat) : Prop :=
  ∃ rest, s.hostProg = .read size addr :: rest ∨ ∃ v, s.hostProg = .write size addr v :: rest

theorem hostStep_next_of_access {s : State} {size : AccessSize} {addr : Nat} {tgt : Target}
    (h : s.NextAccess size addr) (hsel : selectAccess size addr = .ok tgt) : ∃ t, hostStep s = .next t := by
  obtain ⟨rest, hp | ⟨v, hp⟩⟩ := h
  · exact ⟨_, by simp only [hostStep, hp, hsel]; rfl⟩
  · exact ⟨_, by simp only [hostStep, hp, hsel]; rfl⟩

theorem hostStep_refused_of_access {s : State} {size : AccessSize} {addr : Nat} {q : Refusal}
    (h : s.NextAccess size addr) (hsel : selectAccess size addr = .error q) : hostStep s = .refused q := by
  obtain ⟨rest, hp | ⟨v, hp⟩⟩ := h
  · simp only [hostStep, hp, hsel]
  · simp only [hostStep, hp, hsel]

/-- The answer is a refusal for the reason `q`, which the host's next access gives. -/
def RefusesAccess (s : State) (r : Result) : Prop :=
  ∃ size addr q, s.NextAccess size addr ∧ selectAccess size addr = .error q ∧ r = .refused q

theorem hostStep_next_or_refuses (s : State) : (∃ t, hostStep s = .next t) ∨ RefusesAccess s (hostStep s) := by
  have haccess {size : AccessSize} {addr : Nat} (h : s.NextAccess size addr) :
      (∃ t, hostStep s = .next t) ∨ RefusesAccess s (hostStep s) := by
    cases hsel : selectAccess size addr with
    | ok tgt => exact .inl (hostStep_next_of_access h hsel)
    | error q => exact .inr ⟨size, addr, q, h, hsel, hostStep_refused_of_access h hsel⟩
  cases hp : s.hostProg with
  | nil => exact .inl ⟨_, by simp only [hostStep, hp]; rfl⟩
  | cons x rest =>
    cases x with
    | read size addr => exact haccess ⟨rest, .inl hp⟩
    | write size addr v => exact haccess ⟨rest, .inr ⟨v, hp⟩⟩
    | wait => exact .inl ⟨_, by simp only [hostStep, hp]; rfl⟩
    | waitIrq => exact .inl ⟨_, by simp only [hostStep, hp]; rfl⟩

/-- Settles O8: an access completes iff it selects something (`selectAccess_isOk_iff`), a read and a write alike. -/
theorem badHostAccessIsRefused : Obligations.BadHostAccessIsRefused := by
  intro s size addr v rest good
  have hgood : good ↔ ∃ t, selectAccess size addr = .ok t := by
    simp [good, selectAccess_isOk_iff, legalOffset_iff, and_assoc]
  have hread : State.NextAccess { s with hostProg := .read size addr :: rest } size addr := ⟨rest, .inl rfl⟩
  have hwrite : State.NextAccess { s with hostProg := .write size addr v :: rest } size addr := ⟨rest, .inr ⟨v, rfl⟩⟩
  rw [hgood]
  cases hsel : selectAccess size addr with
  | ok tgt => exact ⟨fun _ => ⟨hostStep_next_of_access hread hsel, hostStep_next_of_access hwrite hsel⟩, by simp⟩
  | error q =>
    exact ⟨by simp, fun _ => ⟨⟨q, hostStep_refused_of_access hread hsel⟩, ⟨q, hostStep_refused_of_access hwrite hsel⟩⟩⟩

/-! ### The Core's turn -/

/-- Under the invariant a running SAVE has something left to push, so it does not fault. -/
theorem execSave_next {s : State} (h : s.Inv) (hop : s.op = .run .save) : ∃ t, execSave s = .next t := by
  unfold execSave
  split
  · next hst =>
    obtain ⟨-, hout, -⟩ := h.save_out hop hst
    obtain ⟨x, rest, hx⟩ := List.exists_cons_of_ne_nil hout
    rw [hx]
    split <;> exact ⟨_, rfl⟩
  · exact ⟨_, rfl⟩

theorem execBuild_next (s : State) : ∃ t, execBuild s = .next t := by
  unfold execBuild
  split <;> exact ⟨_, rfl⟩

theorem execLoad_next (s : State) : ∃ t, execLoad s = .next t := by
  unfold execLoad
  split
  · split <;> exact ⟨_, rfl⟩
  · exact ⟨_, rfl⟩

theorem execDecode_next (s : State) : ∃ t, execDecode s = .next t := by
  unfold execDecode
  split
  · split
    · exact ⟨_, rfl⟩
    · split <;> exact ⟨_, rfl⟩
  · exact ⟨_, rfl⟩

theorem coreStep_next {s : State} (h : s.Inv) : ∃ t, coreStep s = .next t := by
  cases hop : s.op with
  | idle => exact ⟨s, coreStep_idle hop⟩
  | illegal => exact ⟨_, coreStep_illegal hop⟩
  | run i =>
    rw [coreStep_run hop]
    cases i with
    | build => exact execBuild_next s
    | save => exact execSave_next h hop
    | load => exact execLoad_next s
    | decode => exact execDecode_next s
    | _ => exact ⟨_, rfl⟩

/-! ### One step -/

theorem agentStep_next_or_refuses {s : State} (h : s.Inv) (a : Agent) :
    (∃ t, agentStep a s = .next t) ∨ RefusesAccess s (agentStep a s) := by
  cases a with
  | host => exact hostStep_next_or_refuses s
  | core => exact .inl (coreStep_next h)
  | _ => exact .inl ⟨_, rfl⟩

theorem step_next_or_refuses {s : State} (h : s.Inv) : (∃ t, step s = .next t) ∨ RefusesAccess s (step s) := by
  cases hs : s.sched with
  | nil =>
    rw [step_unscheduled s hs]
    exact agentStep_next_or_refuses h _
  | cons x r =>
    cases x with
    | agent a =>
      rw [step_agent s a r hs]
      exact agentStep_next_or_refuses (s := { s with sched := r }) { h with } a
    | hardReset => exact .inl ⟨_, step_hardReset s r hs⟩

/-- Settles O55: a step answers a next state or refuses the host's next access (`step_next_or_refuses`). -/
theorem stepsStopOnlyOnBadHostAccess : Obligations.StepsStopOnlyOnBadHostAccess := by
  intro s hinv
  rcases step_next_or_refuses hinv with ⟨t, ht⟩ | ⟨size, addr, q, ⟨rest, hnext⟩, hsel, hq⟩
  · exact ⟨by simp [ht], by simp [ht]⟩
  · exact ⟨by simp [hq], fun _ _ => ⟨size, addr, rest, hnext, not_legal_of_selectAccess_error hsel⟩⟩

end Sys2Proof.Machine
end

section
/-! SUPPORT. What each turn does to the four streams (spec 20_memory.md R70-R77, 10_state.md R43). -/

namespace Sys2Proof.Machine

/-! ### The turns of the sources and the sinks -/

section

variable {s : State}

theorem bitSourceStep_push {w : BitVec 2} {rest : List (BitVec 2)} (hs : s.bitSrc = w :: rest)
    (hroom : s.bitIn.length < Config.inDepth) :
    bitSourceStep s = { s with bitIn := s.bitIn ++ [decodeBitXfer w], bitSrc := rest } := by
  simp only [bitSourceStep, hs, if_pos hroom]

theorem bitSourceStep_done (hs : s.bitSrc = []) : bitSourceStep s = s := by simp only [bitSourceStep, hs]

theorem bitSourceStep_full (hfull : Config.inDepth ≤ s.bitIn.length) : bitSourceStep s = s := by
  unfold bitSourceStep
  split
  · rfl
  · exact if_neg (Nat.not_lt.2 hfull)

theorem cbSourceStep_push {w : BitVec 9} {rest : List (BitVec 9)} (hs : s.cbSrc = w :: rest)
    (hroom : s.cbIn.length < Config.inDepth) :
    cbSourceStep s = { s with cbIn := s.cbIn ++ [decodeCbXfer w], cbSrc := rest } := by
  simp only [cbSourceStep, hs, if_pos hroom]

theorem cbSourceStep_done (hs : s.cbSrc = []) : cbSourceStep s = s := by simp only [cbSourceStep, hs]

theorem cbSourceStep_full (hfull : Config.inDepth ≤ s.cbIn.length) : cbSourceStep s = s := by
  unfold cbSourceStep
  split
  · rfl
  · exact if_neg (Nat.not_lt.2 hfull)

theorem symSinkStep_pop {v : Sym} {rest : List Sym} (hs : s.symOut = v :: rest) :
    symSinkStep s = { s with symOut := rest, symGot := s.symGot ++ [v] } := by
  simp only [symSinkStep, hs, encodeSym]

theorem symSinkStep_empty (hs : s.symOut = []) : symSinkStep s = s := by simp only [symSinkStep, hs]

theorem cbSinkStep_pop {x : CbXfer} {rest : List CbXfer} (hs : s.cbOut = x :: rest) :
    cbSinkStep s = { s with cbOut := rest, cbGot := s.cbGot ++ [encodeCbXfer x] } := by
  simp only [cbSinkStep, hs]

theorem cbSinkStep_empty (hs : s.cbOut = []) : cbSinkStep s = s := by simp only [cbSinkStep, hs]

end

/-- Settles O50: each agent's turn by its own laws above. -/
theorem streamAgentsPushAndPop : Obligations.StreamAgentsPushAndPop := fun _ =>
  ⟨fun _ _ hs hroom => congrArg _ (bitSourceStep_push hs hroom),
   fun _ _ hs hroom => congrArg _ (cbSourceStep_push hs hroom),
   fun _ _ hs => congrArg _ (symSinkStep_pop hs),
   fun _ _ hs => congrArg _ (cbSinkStep_pop hs),
   fun hfull => congrArg _ (bitSourceStep_full hfull),
   fun hfull => congrArg _ (cbSourceStep_full hfull),
   fun hs => congrArg _ (bitSourceStep_done hs),
   fun hs => congrArg _ (cbSourceStep_done hs),
   fun hs => congrArg _ (symSinkStep_empty hs),
   fun hs => congrArg _ (cbSinkStep_empty hs)⟩

/-! ### The transfers of a stream, in order -/

/-- The transfers of the four streams outside the Core, in order: of an output stream what its sink has got and then what
its FIFO holds, of an input stream what its FIFO holds and then what its source still has to push. -/
structure Streams where
  symSent   : List Sym
  cbSent    : List CbXfer
  bitsToGo  : List BitXfer
  cbToGo    : List CbXfer

def State.streams (s : State) : Streams where
  symSent := s.symGot ++ s.symOut
  cbSent := s.cbGot.map decodeCbXfer ++ s.cbOut
  bitsToGo := s.bitIn ++ s.bitSrc.map decodeBitXfer
  cbToGo := s.cbIn ++ s.cbSrc.map decodeCbXfer

theorem pushCb_streams (x : CbXfer) (s : State) :
    (pushCb x s).streams = { s.streams with cbSent := s.streams.cbSent ++ [x] } := by
  simp [State.streams]

theorem emitSym_streams (v : Sym) (s : State) :
    (emitSym v s).streams = { s.streams with symSent := s.streams.symSent ++ [v] } := by
  simp [State.streams, emitSym]

/-! ### Turns that only pass transfers on -/

/-- The wire word of a transfer means that transfer (30_encoding.md R96). -/
theorem decodeCbXfer_encodeCbXfer (x : CbXfer) : decodeCbXfer (encodeCbXfer x) = x := by
  cases x with
  | endOfStream => rfl
  | byte c =>
    have hend : ¬ (0#1 ++ c).getLsbD 8 = true := by rw [BitVec.getLsbD_append]; simp
    rw [encodeCbXfer, decodeCbXfer, if_neg hend, BitVec.extractLsb'_append_eq_right]

theorem bitSourceStep_streams (s : State) : (bitSourceStep s).streams = s.streams := by
  unfold bitSourceStep
  split
  · rfl
  · next hs => split <;> simp [State.streams, hs]

theorem cbSourceStep_streams (s : State) : (cbSourceStep s).streams = s.streams := by
  unfold cbSourceStep
  split
  · rfl
  · next hs => split <;> simp [State.streams, hs]

theorem symSinkStep_streams (s : State) : (symSinkStep s).streams = s.streams := by
  unfold symSinkStep
  split
  · rfl
  · next hs => simp [State.streams, hs, encodeSym]

theorem cbSinkStep_streams (s : State) : (cbSinkStep s).streams = s.streams := by
  unfold cbSinkStep
  split
  · rfl
  · next hs => simp [State.streams, hs, decodeCbXfer_encodeCbXfer]

theorem writeTarget_streams {t : Target} {v : Word} (s : State) (h : ¬ (t = .reg .CTRL ∧ v.getLsbD 0 = true)) :
    (writeTarget t v s).streams = s.streams := by
  rcases writeTarget_cases t v s with ⟨e, d, o, -, hw⟩ | ⟨ht, hv, -⟩ | ⟨-, -, hw⟩ | ⟨k, -, -, hw⟩
  · rw [hw]; rfl
  · exact absurd ⟨ht, hv⟩ h
  · rw [hw]; rfl
  · rw [hw]; rfl

/-- An access that selects a register is at that register's offset. -/
theorem addr_of_selectAccess_reg {size : AccessSize} {addr : Nat} {r : RegName}
    (h : selectAccess size addr = .ok (.reg r)) : addr = Config.huffBase + offsetOf r := by
  obtain ⟨-, off, rfl, hoff⟩ := selectAccess_eq_ok h
  exact congrArg _ (selectOffset_eq_ok hoff)

/-- A Host's turn that is no soft reset moves no transfer. -/
theorem hostStep_streams {s t : State} (h : hostStep s = .next t)
    (hsrst : ∀ size addr v rest, s.hostProg = .write size addr v :: rest →
      ¬ (addr = Config.huffBase + 0x004 ∧ v.getLsbD 0 = true)) :
    t.streams = s.streams := by
  rcases hostStep_next_cases h with ⟨p, rs, n, rfl⟩ | ⟨size, addr, v, rest, tgt, hp, hsel, rfl⟩
  · rfl
  · refine writeTarget_streams s ?_
    rintro ⟨rfl, hv⟩
    exact hsrst _ _ _ _ hp ⟨addr_of_selectAccess_reg hsel, hv⟩

/-! ### The Core's turns -/

theorem execBuild_streams {s t : State} (h : execBuild s = .next t) : t.streams = s.streams := by
  unfold execBuild at h
  split at h <;> cases h <;> rfl

theorem saveStart_streams (s : State) : (saveStart s).streams = s.streams := by
  unfold saveStart
  split <;> rfl

theorem saveTransfer_streams (x : CbXfer) (rest : List CbXfer) (s : State) :
    (saveTransfer x rest s).streams = { s.streams with cbSent := s.streams.cbSent ++ [x] } := by
  unfold saveTransfer
  split <;> exact pushCb_streams x s

/-- A step of SAVE puts at most one transfer behind those cb_out has taken. -/
theorem execSave_streams {s t : State} (h : execSave s = .next t) :
    t.streams = s.streams ∨ ∃ x, t.streams = { s.streams with cbSent := s.streams.cbSent ++ [x] } := by
  unfold execSave at h
  split at h
  · split at h
    · split at h
      · cases h
      · next x rest _ => cases h; exact .inr ⟨x, saveTransfer_streams x rest s⟩
    · cases h; exact .inl rfl
  · cases h; exact .inl (saveStart_streams s)

theorem symStep_streams (x : CbXfer) (s : State) : (symStep x s).streams = s.streams := by
  unfold symStep
  dsimp only
  split
  · split_ifs <;> rfl
  · split_ifs <;> rfl

theorem loadPair_streams (s : State) : (loadPair s).streams = s.streams := by
  unfold loadPair
  split <;> rfl

theorem codeStep_streams (x : CbXfer) (s : State) : (codeStep x s).streams = s.streams := by
  unfold codeStep
  split
  · rfl
  · split
    · split <;> rfl
    · split
      · split
        · rfl
        · exact loadPair_streams s
      · rfl

theorem loadTransfer_streams (x : CbXfer) (s : State) : (loadTransfer x s).streams = s.streams := by
  unfold loadTransfer
  split
  · exact symStep_streams x s
  · exact codeStep_streams x s

/-- A step of LOAD takes at most the first of the text still to come. -/
theorem execLoad_streams {s t : State} (h : execLoad s = .next t) :
    t.streams = s.streams ∨ ∃ x, s.streams = { t.streams with cbToGo := x :: t.streams.cbToGo } := by
  unfold execLoad at h
  split at h
  · split at h
    · cases h; exact .inl rfl
    · next x rest hin =>
      cases h
      rw [loadTransfer_streams]
      exact .inr ⟨x, by simp [State.streams, hin]⟩
  · cases h; exact .inl rfl

theorem decodeStart_streams (s : State) : (decodeStart s).streams = s.streams := by
  unfold decodeStart
  dsimp only
  split <;> rfl

/-- A transfer emits one symbol, when its bit completes a code, or none (42_decoder.md R212, R213). -/
theorem decodeTransfer_streams (x : BitXfer) (s : State) :
    ∃ new, new.length ≤ 1 ∧
      (decodeTransfer x s).streams = { s.streams with symSent := s.streams.symSent ++ new } := by
  have hnone {t : State} (h : t.streams = s.streams) :
      ∃ new, new.length ≤ 1 ∧ t.streams = { s.streams with symSent := s.streams.symSent ++ new } :=
    ⟨[], by simp, by simp [h]⟩
  cases x with
  | endOfStream => exact hnone rfl
  | bit b =>
    simp only [decodeTransfer, decodeBit]
    split
    · exact hnone rfl
    · next v _ => exact ⟨[v], by simp, emitSym_streams v _⟩
    · exact hnone rfl

/-- A step of DECODE moves nothing, or takes the first of the bits still to come and puts at most one symbol behind those
sym_out has taken. -/
theorem execDecode_streams {s t : State} (h : execDecode s = .next t) :
    t.streams = s.streams ∨ ∃ x new, new.length ≤ 1 ∧ t.streams.symSent = s.streams.symSent ++ new ∧
      s.streams.bitsToGo = x :: t.streams.bitsToGo ∧ t.streams.cbSent = s.streams.cbSent ∧
      t.streams.cbToGo = s.streams.cbToGo := by
  unfold execDecode at h
  split at h
  · split at h
    · cases h; exact .inl rfl
    · next x rest hin =>
      split at h
      · cases h
        obtain ⟨new, hnew, ht⟩ := decodeTransfer_streams x { s with bitIn := rest }
        rw [ht]
        exact .inr ⟨x, new, hnew, by simp [State.streams, hin]⟩
      · cases h; exact .inl rfl
  · cases h; exact .inl (decodeStart_streams s)

/-! ### Every turn delivers in order (20_memory.md R77) -/

/-- `ys` is `xs` with at most one entry more, at its tail, and with none unless `may` holds. -/
def GrowsAtTail {α : Type} (may : Prop) (xs ys : List α) : Prop :=
  ∃ new, new.length ≤ 1 ∧ (¬ may → new = []) ∧ ys = xs ++ new

/-- `ys` is `xs` with at most its head taken off, and with nothing taken off unless `may` holds. -/
def LosesHead {α : Type} (may : Prop) (xs ys : List α) : Prop :=
  ∃ gone, gone.length ≤ 1 ∧ (¬ may → gone = []) ∧ xs = gone ++ ys

section

variable {α : Type} {may : Prop} {xs ys : List α}

theorem GrowsAtTail.of_eq (h : ys = xs) : GrowsAtTail may xs ys := ⟨[], by simp [h]⟩

theorem GrowsAtTail.of_append (hmay : may) {new : List α} (hnew : new.length ≤ 1) (h : ys = xs ++ new) :
    GrowsAtTail may xs ys := ⟨new, hnew, absurd hmay, h⟩

theorem LosesHead.of_eq (h : ys = xs) : LosesHead may xs ys := ⟨[], by simp [h]⟩

theorem LosesHead.of_cons (hmay : may) {x : α} (h : xs = x :: ys) : LosesHead may xs ys :=
  ⟨[x], by simp, absurd hmay, h⟩

end

/-- What a turn of the agent `a` may do to the streams, from `s` to `t`. -/
def DeliversInOrder (a : Agent) (s t : State) : Prop :=
  GrowsAtTail (a = .core ∧ s.op = .run .decode) s.streams.symSent t.streams.symSent ∧
  GrowsAtTail (a = .core ∧ s.op = .run .save) s.streams.cbSent t.streams.cbSent ∧
  (¬ (a = .core ∧ s.op = .run .flush) →
    LosesHead (a = .core ∧ s.op = .run .decode) s.streams.bitsToGo t.streams.bitsToGo ∧
    LosesHead (a = .core ∧ s.op = .run .load) s.streams.cbToGo t.streams.cbToGo)

theorem deliversInOrder_of_streams_eq {a : Agent} {s t : State} (h : t.streams = s.streams) : DeliversInOrder a s t := by
  simp only [DeliversInOrder, h]
  exact ⟨.of_eq rfl, .of_eq rfl, fun _ => ⟨.of_eq rfl, .of_eq rfl⟩⟩

theorem exec_deliversInOrder {s t : State} {i : Instr} (hop : s.op = .run i) (h : exec i s = .next t) :
    DeliversInOrder .core s t := by
  cases i with
  | nop => cases h; exact deliversInOrder_of_streams_eq rfl
  | build => exact deliversInOrder_of_streams_eq (execBuild_streams h)
  | save =>
    rcases execSave_streams h with he | ⟨x, he⟩
    · exact deliversInOrder_of_streams_eq he
    · rw [DeliversInOrder, he]
      exact ⟨.of_eq rfl, .of_append ⟨rfl, hop⟩ (new := [x]) (by simp) rfl, fun _ => ⟨.of_eq rfl, .of_eq rfl⟩⟩
  | load =>
    rcases execLoad_streams h with he | ⟨x, he⟩
    · exact deliversInOrder_of_streams_eq he
    · rw [DeliversInOrder, he]
      exact ⟨.of_eq rfl, .of_eq rfl, fun _ => ⟨.of_eq rfl, .of_cons ⟨rfl, hop⟩ rfl⟩⟩
  | decode =>
    rcases execDecode_streams h with he | ⟨x, new, hnew, hsym, hbits, hcbSent, hcbToGo⟩
    · exact deliversInOrder_of_streams_eq he
    · exact ⟨.of_append ⟨rfl, hop⟩ hnew hsym, .of_eq hcbSent,
        fun _ => ⟨.of_cons ⟨rfl, hop⟩ hbits, .of_eq hcbToGo⟩⟩
  | clearTree => cases h; exact deliversInOrder_of_streams_eq rfl
  | clearFreq => cases h; exact deliversInOrder_of_streams_eq rfl
  | flush => cases h; exact ⟨.of_eq rfl, .of_eq rfl, fun hflush => absurd ⟨rfl, hop⟩ hflush⟩

theorem coreStep_deliversInOrder {s t : State} (h : coreStep s = .next t) : DeliversInOrder .core s t := by
  cases hop : s.op with
  | idle => rw [coreStep_idle hop] at h; cases h; exact deliversInOrder_of_streams_eq rfl
  | illegal => rw [coreStep_illegal hop] at h; cases h; exact deliversInOrder_of_streams_eq rfl
  | run i => exact exec_deliversInOrder hop (coreStep_run hop ▸ h)

/-- Settles O49: only the Core's turn moves a transfer into or out of the block (`coreStep_deliversInOrder`); a source's or
a sink's turn passes one on within its stream, and the Host's touches none. -/
theorem fifosDeliverInOrder : Obligations.FifosDeliverInOrder := by
  intro s t a r hsched hstep hsrst
  rw [step_agent s a r hsched] at hstep
  change DeliversInOrder a { s with sched := r } t
  cases a with
  | host => exact deliversInOrder_of_streams_eq (hostStep_streams hstep fun _ _ _ _ => hsrst _ _ _ _ rfl)
  | core => exact coreStep_deliversInOrder hstep
  | bitSource => cases hstep; exact deliversInOrder_of_streams_eq (bitSourceStep_streams _)
  | cbSource => cases hstep; exact deliversInOrder_of_streams_eq (cbSourceStep_streams _)
  | symSink => cases hstep; exact deliversInOrder_of_streams_eq (symSinkStep_streams _)
  | cbSink => cases hstep; exact deliversInOrder_of_streams_eq (cbSinkStep_streams _)

end Sys2Proof.Machine
end

section
/-! SUPPORT. Command words and stream words (spec 30_encoding.md R90-R98), and a waiting host (R105). -/

namespace Sys2Proof.Machine

/-! ### Command words -/

theorem decode_encode (i : Instr) : decode (encode i) = .ok i := by
  cases i <;> rfl

theorem decode_eq_ok {w : Word} {i : Instr} :
    decode w = .ok i ↔ w.extractLsb 31 4 = 0#28 ∧ decodeOpcode (w.extractLsb 3 0) = some i := by
  unfold decode
  split
  · next hrsvd => cases decodeOpcode (w.extractLsb 3 0) <;> simp [hrsvd]
  · next hrsvd => simp [hrsvd]

/-- The opcode map is one to one (R91). -/
theorem eq_opcode_of_decodeOpcode : ∀ {op : BitVec 4} {i : Instr}, decodeOpcode op = some i → op = opcode i := by
  decide

/-- The legal opcodes are 0 to 7 (R92). -/
theorem exists_decodeOpcode_iff : ∀ op : BitVec 4, (∃ i, decodeOpcode op = some i) ↔ op ≤ 7#4 := by
  simp only [← Option.isSome_iff_exists]
  decide

/-- A word is its RSVD field above its OPCODE field (R90). -/
theorem rsvd_append_opcode (w : Word) : w.extractLsb 31 4 ++ w.extractLsb 3 0 = w :=
  (BitVec.extractLsb'_append_extractLsb'_eq_extractLsb' (len₁ := 4) (len₂ := 28) rfl).trans BitVec.extractLsb'_eq_self

theorem decode_eq_ok_iff_eq_encode {w : Word} {i : Instr} : decode w = .ok i ↔ w = encode i := by
  constructor
  · intro h
    obtain ⟨hrsvd, hop⟩ := decode_eq_ok.1 h
    rw [← rsvd_append_opcode w, hrsvd, eq_opcode_of_decodeOpcode hop]
    rfl
  · rintro rfl
    exact decode_encode i

theorem exists_decode_eq_ok_iff {w : Word} :
    (∃ i, decode w = .ok i) ↔ w.extractLsb 31 4 = 0#28 ∧ w.extractLsb 3 0 ≤ 7#4 := by
  simp only [decode_eq_ok, exists_and_left, exists_decodeOpcode_iff]

theorem legalWord_iff {w : Word} : legalWord w = true ↔ w.extractLsb 31 4 = 0#28 ∧ w.extractLsb 3 0 ≤ 7#4 := by
  simp [legalWord]

/-- An accepted word that encodes no command runs as ILLEGAL (R92). -/
theorem opOfWord_illegal {w : Word} (h : ∀ i, w ≠ encode i) : opOfWord w = .illegal := by
  unfold opOfWord
  split
  · next i hi => exact absurd (decode_eq_ok_iff_eq_encode.1 hi) (h i)
  · rfl

/-- Settles O1: the eight words are the encodings of the eight commands; the other four evaluate. -/
theorem commandWordsDecode : Obligations.CommandWordsDecode :=
  ⟨decode_encode .nop, decode_encode .build, decode_encode .save, decode_encode .load, decode_encode .decode,
   decode_encode .clearTree, decode_encode .clearFreq, decode_encode .flush, rfl, rfl, rfl, rfl⟩

/-- Settles O2: a word is its two fields, and the opcode map is one to one; a word that is no encoding makes `op` ILLEGAL. -/
theorem decodeAcceptsExactlyLegalWords : Obligations.DecodeAcceptsExactlyLegalWords := by
  refine ⟨fun _ => exists_decode_eq_ok_iff, fun _ _ => decode_eq_ok_iff_eq_encode,
    fun _ => legalWord_iff.trans exists_decode_eq_ok_iff.symm, fun w s hw => ?_⟩
  exact coreStep_illegal (s := acceptCommand w s) (opOfWord_illegal hw)

/-! ### Stream words -/

theorem decodeBitXfer_encodeBitXfer (x : BitXfer) : decodeBitXfer (encodeBitXfer x) = x := by
  cases x with
  | endOfStream => rfl
  | bit b => cases b <;> rfl

/-- Settles O3: each word by its END bit, and the two round trips. -/
theorem streamWordsMeanTransfers : Obligations.StreamWordsMeanTransfers := by
  refine ⟨fun w h => if_pos h, fun w h => if_neg (ne_true_of_eq_false h), fun w h => if_pos h, fun w h => ?_,
    decodeBitXfer_encodeBitXfer, decodeCbXfer_encodeCbXfer⟩
  rw [decodeCbXfer, if_neg (ne_true_of_eq_false h), BitVec.setWidth_eq_extractLsb' (by decide)]

/-! ### A waiting host -/

/-- Settles O51: bit 0 of the word a wait reads is BUSY (`getLsbD_statusWord_busy`). -/
theorem hostWaitPollsStatus : Obligations.HostWaitPollsStatus := by
  intro s rest h
  simp only [agentStep, hostStep, h, regValue_STATUS, getLsbD_statusWord_busy]

end Sys2Proof.Machine
end

section
/-! SUPPORT. Runs in which the CbSource and the Core take turns (spec 20_memory.md R71, R74; 42_decoder.md R190): each round
gives LOAD the next transfer of the text still to come, whatever the depth of cb_in. -/

namespace Sys2Proof.Machine

/-! ### What a transfer does to a running LOAD (42_decoder.md R191, R192, R198, R199) -/

/-- What one byte that is no error does to the parser's state: a digit, the LF of a symbol line, a bit, the LF of a code
line. -/
inductive LoadState.ReadsByte (ld : LoadState) : Byte → LoadState → Prop where
  | digit {d : Nat} (phase : ld.phase = .sym) (hd : d < 10) (small : ld.acc.toNat * 10 + d < 256) :
      ReadsByte ld (digitByte d) { ld with acc := BitVec.ofNat 8 (ld.acc.toNat * 10 + d), hasDigit := true }
  | endSymbol (phase : ld.phase = .sym) (hasDigit : ld.hasDigit = true) :
      ReadsByte ld byteLF { ld with phase := .code, code := [], line := ld.line + 1#32 }
  | bit (b : Bit) (phase : ld.phase = .code) (room : ld.code.length < 255) :
      ReadsByte ld (bitChar b) { ld with code := ld.code ++ [b] }
  | endCode {T : TreeSlot} {n : Nat} (phase : ld.phase = .code) (code : ld.code ≠ [])
      (ins : Inserts ld.acc ld.code ld.T ld.nodes T n) :
      ReadsByte ld byteLF { ld with
        T := T, nodes := n, seen := ld.seen.insert ld.acc, pairs := ld.pairs + 1, line := ld.line + 1#32, phase := .sym,
        acc := 0#8, hasDigit := false }

/-- The step ended LOAD with an error (R199). -/
def LoadFails (s t : State) : Prop := ∃ e d, e ≠ .none ∧ t = loadFail e d s

/-- The step read the byte `c`, and LOAD goes on; the warning about a symbol seen before (R197) may be set or not. -/
def LoadGoesOn (c : Byte) (s t : State) : Prop :=
  ∃ w ld, s.ld.ReadsByte c ld ∧ t = { s with wDupsym := w, ld := ld }

section

variable {s : State}

theorem loadMalformed_fails (d : ErrDetail) : LoadFails s (loadMalformed d s) :=
  ⟨.malformedCodebook, d, nofun, rfl⟩

/-- A byte in the range of the digits is a digit. -/
theorem eq_digitByte {c : Byte} (h : 0x30#8 ≤ c ∧ c ≤ 0x39#8) :
    c.toNat - 0x30 < 10 ∧ c = digitByte (c.toNat - 0x30) := by
  obtain ⟨hlo, hhi⟩ := h
  rw [BitVec.le_def] at hlo hhi
  simp only [BitVec.toNat_ofNat, Nat.reducePow, Nat.reduceMod] at hlo hhi
  refine ⟨by omega, BitVec.eq_of_toNat_eq ?_⟩
  rw [digitByte, BitVec.toNat_ofNat]
  omega

theorem eq_bitChar {c : Byte} (h : c = 0x30#8 ∨ c = 0x31#8) : c = bitChar (c == 0x31#8) := by
  rcases h with rfl | rfl <;> rfl

theorem symStep_byte_cases (hph : s.ld.phase = .sym) (c : Byte) :
    LoadFails s (symStep (.byte c) s) ∨ LoadGoesOn c s (symStep (.byte c) s) := by
  simp only [symStep]
  split
  · next hc =>
    obtain ⟨hd, hdigit⟩ := eq_digitByte hc
    split
    · next hv =>
      have hread := LoadState.ReadsByte.digit hph hd hv
      rw [← hdigit] at hread
      exact .inr ⟨_, _, hread, rfl⟩
    · exact .inl (loadMalformed_fails _)
  · split
    · next hlf =>
      split
      · next hdig => exact .inr ⟨_, _, hlf ▸ .endSymbol hph hdig, rfl⟩
      · exact .inl (loadMalformed_fails _)
    · exact .inl (loadMalformed_fails _)

theorem loadPair_cases (hph : s.ld.phase = .code) (hc : s.ld.code ≠ []) :
    LoadFails s (loadPair s) ∨ LoadGoesOn byteLF s (loadPair s) := by
  unfold loadPair
  split
  · exact .inl (loadMalformed_fails _)
  · exact .inl ⟨.capacity, .none, nofun, rfl⟩
  · next hins => exact .inr ⟨_, _, .endCode hph hc (.of_insertCode hins), rfl⟩

theorem codeStep_byte_cases (hph : s.ld.phase = .code) (hlen : s.ld.code.length ≤ 255) (c : Byte) :
    LoadFails s (codeStep (.byte c) s) ∨ LoadGoesOn c s (codeStep (.byte c) s) := by
  simp only [codeStep]
  split
  · next hc =>
    split
    · exact .inl (loadMalformed_fails _)
    · next hne =>
      have hroom : s.ld.code.length < 255 := Nat.lt_of_le_of_ne hlen hne
      have hread := LoadState.ReadsByte.bit (c == 0x31#8) hph hroom
      rw [← eq_bitChar hc] at hread
      exact .inr ⟨_, _, hread, rfl⟩
  · split
    · next hlf =>
      split
      · exact .inl (loadMalformed_fails _)
      · next hc => exact hlf ▸ loadPair_cases hph hc
    · exact .inl (loadMalformed_fails _)

/-- A byte ends LOAD with an error or is read. -/
theorem loadTransfer_byte_cases (hlen : s.ld.code.length ≤ 255) (c : Byte) :
    LoadFails s (loadTransfer (.byte c) s) ∨ LoadGoesOn c s (loadTransfer (.byte c) s) := by
  unfold loadTransfer
  split
  · next hph => exact symStep_byte_cases hph c
  · next hph => exact codeStep_byte_cases hph hlen c

/-- END ends LOAD: with an error, or, between two pairs of which the first is read, without one. -/
theorem loadTransfer_end_cases :
    LoadFails s (loadTransfer .endOfStream s) ∨
    (s.ld.phase = .sym ∧ s.ld.hasDigit = false ∧ s.ld.pairs ≠ 0 ∧ loadTransfer .endOfStream s = loadSucceed s) := by
  unfold loadTransfer
  split
  · next hph =>
    simp only [symStep]
    split
    · exact .inl (loadMalformed_fails _)
    · next hdig =>
      split
      · exact .inl (loadMalformed_fails _)
      · next hp => exact .inr ⟨hph, eq_false_of_ne_true hdig, hp, rfl⟩
  · exact .inl (loadMalformed_fails _)

end

/-! ### A round of the CbSource and the Core -/

/-- `s` with other input on cb_in and in the CbSource's script, and another schedule. -/
def State.withCbInput (s : State) (sched : List Slot) (q : List CbXfer) (src : List (BitVec 9)) : State :=
  { s with sched := sched, cbIn := q, cbSrc := src }

/-- The CbSource's turn keeps the text still to come, and leaves cb_in empty only when nothing of it is left. -/
theorem cbSourceStep_eq (s : State) :
    ∃ q src, cbSourceStep s = s.withCbInput s.sched q src ∧ q ++ src.map decodeCbXfer = s.streams.cbToGo ∧
      (q = [] → src = []) := by
  unfold cbSourceStep
  split
  · exact ⟨s.cbIn, s.cbSrc, rfl, rfl, fun _ => ‹_›⟩
  · next w src hs =>
    split
    · exact ⟨s.cbIn ++ [decodeCbXfer w], src, rfl, by simp [State.streams, hs], by simp⟩
    · next hfull => exact ⟨s.cbIn, s.cbSrc, rfl, rfl, fun h => absurd (h ▸ Config_inDepth_pos) hfull⟩

/-- A turn of the CbSource and one of the Core: the Core finds the text still to come, and cb_in empty only when nothing is
to come. -/
theorem runUnder_round (xs : List Slot) (s : State) :
    ∃ q src, q ++ src.map decodeCbXfer = s.streams.cbToGo ∧ (q = [] → src = []) ∧
      runUnder ([Agent.cbSource, .core].map Slot.agent ++ xs) s =
        match coreStep (s.withCbInput [] q src) with
        | .next s' => runUnder xs s'
        | .fault r => .fault r
        | .refused r => .refused r := by
  obtain ⟨q, src, he, hkeep, hempty⟩ := cbSourceStep_eq { s with sched := [] }
  refine ⟨q, src, hkeep, hempty, ?_⟩
  rw [List.map_cons, List.cons_append, runUnder_agent]
  change runUnder (.agent .core :: xs) (cbSourceStep { s with sched := [] }) = _
  rw [he, runUnder_agent]
  rfl

theorem coreStep_loadStart {s : State} (hop : s.op = .run .load) (hst : s.started = false) :
    coreStep s = .next (loadStart s) := by
  rw [coreStep_run hop]
  exact if_neg (ne_true_of_eq_false hst)

theorem coreStep_loadTransfer {s : State} {x : CbXfer} {rest : List CbXfer} (hop : s.op = .run .load)
    (hst : s.started = true) (hin : s.cbIn = x :: rest) :
    coreStep s = .next (loadTransfer x { s with cbIn := rest }) := by
  rw [coreStep_run hop]
  simp only [exec, execLoad, if_pos hst, hin]

/-- LOAD's start round. -/
theorem runUnder_round_loadStart {s : State} (hop : s.op = .run .load) (hst : s.started = false) (xs : List Slot) :
    ∃ q src, q ++ src.map decodeCbXfer = s.streams.cbToGo ∧
      runUnder ([Agent.cbSource, .core].map Slot.agent ++ xs) s =
        runUnder xs (loadStart (s.withCbInput [] q src)) := by
  obtain ⟨q, src, hq, -, hround⟩ := runUnder_round xs s
  rw [coreStep_loadStart (s := s.withCbInput [] q src) hop hst] at hround
  exact ⟨q, src, hq, hround⟩

/-- A round of a running LOAD reads the next transfer. -/
theorem runUnder_round_load {s : State} {x : CbXfer} {rest : List CbXfer} (hop : s.op = .run .load)
    (hst : s.started = true) (hgo : s.streams.cbToGo = x :: rest) (xs : List Slot) :
    ∃ q src, q ++ src.map decodeCbXfer = rest ∧
      runUnder ([Agent.cbSource, .core].map Slot.agent ++ xs) s =
        runUnder xs (loadTransfer x (s.withCbInput [] q src)) := by
  obtain ⟨q, src, hq, hempty, hround⟩ := runUnder_round xs s
  rw [hgo] at hq
  cases q with
  | nil => simp [hempty rfl] at hq
  | cons y q =>
    obtain ⟨rfl, hrest⟩ := List.cons.inj hq
    rw [coreStep_loadTransfer (s := s.withCbInput [] (y :: q) src) hop hst rfl] at hround
    exact ⟨q, src, hrest, hround⟩

/-- Rounds after the command's end change nothing of the block but cb_in. -/
theorem runUnder_rounds_idle (k : Nat) {s : State} (hop : s.op = .idle) :
    ∃ sched q src, runUnder (rounds [.cbSource, .core] k) s = .next (s.withCbInput sched q src) := by
  induction k generalizing s with
  | zero => exact ⟨s.sched, s.cbIn, s.cbSrc, rfl⟩
  | succ k ih =>
    obtain ⟨q, src, -, -, hround⟩ := runUnder_round (rounds [.cbSource, .core] k) s
    rw [coreStep_idle (s := s.withCbInput [] q src) hop] at hround
    obtain ⟨sched, q', src', hrun⟩ := ih (s := s.withCbInput [] q src) hop
    exact ⟨sched, q', src', hround.trans hrun⟩

end Sys2Proof.Machine
end

section
/-! SUPPORT. The grammar of codebook text (spec 30_encoding.md R100-R102) and LOAD's parser: after each byte the text read so
far is whole pairs and the begun lines of one more. -/

namespace Sys2Proof.Machine

/-! ### Pairs of lines -/

/-- The number a line of digits stands for (R101). -/
def numberOf (ds : List Nat) : Nat := ds.foldl (fun a d => a * 10 + d) 0

theorem numberOf_append (ds : List Nat) (d : Nat) : numberOf (ds ++ [d]) = numberOf ds * 10 + d := by
  simp [numberOf]

/-- The two lines of a pair, its digits and its code (R100). -/
def pairLines (p : List Nat × List Bit) : List Byte :=
  p.1.map digitByte ++ [byteLF] ++ p.2.map bitChar ++ [byteLF]

/-- The digits and the code are those of a pair in the grammar (R100-R102). -/
def IsPair (p : List Nat × List Bit) : Prop :=
  p.1 ≠ [] ∧ (∀ d ∈ p.1, d < 10) ∧ numberOf p.1 < 256 ∧ p.2 ≠ [] ∧ p.2.length ≤ 255

/-- The symbol and the code a pair of lines stands for. -/
def codeOf (p : List Nat × List Bit) : Sym × List Bit := (BitVec.ofNat 8 (numberOf p.1), p.2)

/-- Of two entries of a tree's codebook neither code begins the other (42_decoder.md R195). -/
theorem TreeSlot.codes_pairwise (t : TreeSlot) :
    t.codes.Pairwise (fun c d => ¬ c.2 <+: d.2 ∧ ¬ d.2 <+: c.2) :=
  (List.pairwise_map.1 t.codes_nodup).imp_of_mem fun hc hd hne =>
    ⟨fun h => hne (congrArg _ (codes_prefix_free hc hd h)), fun h => hne (congrArg _ (codes_prefix_free hd hc h)).symm⟩

/-! ### The parser -/

namespace LoadState

/-- The begun lines of the next pair, `ds` being its digits so far. -/
def openLines (ld : LoadState) (ds : List Nat) : List Byte :=
  match ld.phase with
  | .sym => ds.map digitByte
  | .code => ds.map digitByte ++ [byteLF] ++ ld.code.map bitChar

/-- The parser has read `text`: the pairs `ps`, which are in its tree, and of the next pair the digits `ds` and, on its code
line, the bits `ld.code`. -/
structure HasRead (ld : LoadState) (text : List Byte) (ps : List (List Nat × List Bit)) (ds : List Nat) : Prop where
  text_eq     : text = ps.flatMap pairLines ++ ld.openLines ds
  pairs_valid : ∀ p ∈ ps, IsPair p
  pairs_count : ld.pairs = ps.length
  codes_perm  : ld.T.codes.Perm (ps.map codeOf)
  digits_lt   : ∀ d ∈ ds, d < 10
  acc_value   : ld.acc.toNat = numberOf ds
  digit_read  : ld.hasDigit = true ↔ ds ≠ []
  code_digits : ld.phase = .code → ds ≠ []
  code_length : ld.code.length ≤ 255

theorem init_hasRead : LoadState.init.HasRead [] [] [] where
  text_eq := rfl
  pairs_valid := nofun
  pairs_count := rfl
  codes_perm := .refl _
  digits_lt := nofun
  acc_value := rfl
  digit_read := by simp [init]
  code_digits := nofun
  code_length := Nat.zero_le _

/-- A byte read is one byte more of the text. -/
theorem HasRead.readsByte {ld ld' : LoadState} {text : List Byte} {ps : List (List Nat × List Bit)} {ds : List Nat}
    {c : Byte} (h : ld.HasRead text ps ds) (hc : ld.ReadsByte c ld') :
    ∃ ps' ds', ld'.HasRead (text ++ [c]) ps' ds' := by
  cases hc with
  | @digit d hph hd hsmall =>
    refine ⟨ps, ds ++ [d],
      { h with text_eq := ?_, digits_lt := ?_, acc_value := ?_, digit_read := by simp, code_digits := by simp }⟩
    · simp [h.text_eq, openLines, hph]
    · exact List.forall_mem_append.2 ⟨h.digits_lt, List.forall_mem_singleton.2 hd⟩
    · rw [numberOf_append, ← h.acc_value]
      exact Nat.mod_eq_of_lt hsmall
  | endSymbol hph hdig =>
    refine ⟨ps, ds, { h with text_eq := ?_, code_digits := fun _ => h.digit_read.1 hdig, code_length := Nat.zero_le _ }⟩
    simp [h.text_eq, openLines, hph]
  | bit b hph hroom =>
    refine ⟨ps, ds, { h with text_eq := ?_, code_length := by simpa using hroom }⟩
    simp [h.text_eq, openLines, hph]
  | endCode hph hcode hins =>
    have hacc : codeOf (ds, ld.code) = (ld.acc, ld.code) := by simp [codeOf, ← h.acc_value]
    have hpair : IsPair (ds, ld.code) :=
      ⟨h.code_digits hph, h.digits_lt, h.acc_value ▸ ld.acc.isLt, hcode, h.code_length⟩
    refine ⟨ps ++ [(ds, ld.code)], [], ?_⟩
    exact {
      text_eq := by simp [h.text_eq, openLines, hph, pairLines]
      pairs_valid := List.forall_mem_append.2 ⟨h.pairs_valid, List.forall_mem_singleton.2 hpair⟩
      pairs_count := by simp [h.pairs_count]
      codes_perm := by
        rw [List.map_append, List.map_singleton, hacc]
        exact hins.codes_perm.trans ((h.codes_perm.cons _).trans (List.perm_append_singleton _ _).symm)
      digits_lt := nofun
      acc_value := rfl
      digit_read := by simp
      code_digits := nofun
      code_length := h.code_length }

end LoadState

/-! ### LOAD of a text -/

/-- The text is in the grammar, and the tree's codebook is its pairs. -/
def LoadsText (text : List Byte) (t : TreeSlot) : Prop :=
  ∃ ps, ps ≠ [] ∧ text = ps.flatMap pairLines ∧ (∀ p ∈ ps, IsPair p) ∧ t.codes.Perm (ps.map codeOf)

/-- An end without error is between two pairs. -/
theorem LoadState.HasRead.loadsText {ld : LoadState} {text : List Byte} {ps : List (List Nat × List Bit)} {ds : List Nat}
    (h : ld.HasRead text ps ds) (hph : ld.phase = .sym) (hdig : ld.hasDigit = false) (hpairs : ld.pairs ≠ 0) :
    LoadsText text ld.T := by
  have hds : ds = [] := by simpa [hdig] using h.digit_read
  refine ⟨ps, ?_, ?_, h.pairs_valid, h.codes_perm⟩
  · rintro rfl
    exact hpairs h.pairs_count
  · simp [h.text_eq, LoadState.openLines, hph, hds]

/-- An error stays: the run after a failed step of LOAD does not end without one. -/
theorem LoadFails.err_ne_none {s s' t : State} {k : Nat} (h : LoadFails s s')
    (hrun : runUnder (rounds [.cbSource, .core] k) s' = .next t) : t.err ≠ .none := by
  obtain ⟨e, d, he, rfl⟩ := h
  obtain ⟨sched, q, src, hidle⟩ := runUnder_rounds_idle k (s := loadFail e d s) rfl
  rw [hidle] at hrun
  cases hrun
  exact he

/-- A running LOAD that has read `text` and reads on to END without error has read a text of the grammar. -/
theorem loadsText_of_run {s t : State} {text : List Byte} {ps : List (List Nat × List Bit)} {ds : List Nat}
    (more : List Byte) {tail : List CbXfer} (hop : s.op = .run .load) (hst : s.started = true)
    (hread : s.ld.HasRead text ps ds) (hgo : s.streams.cbToGo = more.map CbXfer.byte ++ .endOfStream :: tail)
    (hrun : runUnder (rounds [.cbSource, .core] (more.length + 1)) s = .next t) (herr : t.err = .none) :
    LoadsText (text ++ more) t.tree := by
  induction more generalizing s text ps ds with
  | nil =>
    obtain ⟨q, src, -, hround⟩ := runUnder_round_load hop hst hgo (rounds [.cbSource, .core] 0)
    rw [rounds, List.length_nil, hround] at hrun
    rcases loadTransfer_end_cases (s := s.withCbInput [] q src) with hfail | ⟨hph, hdig, hpairs, hend⟩
    · exact absurd herr (hfail.err_ne_none hrun)
    · rw [hend] at hrun
      cases hrun
      rw [List.append_nil]
      exact hread.loadsText hph hdig hpairs
  | cons c more ih =>
    obtain ⟨q, src, hrest, hround⟩ := runUnder_round_load hop hst hgo (rounds [.cbSource, .core] (more.length + 1))
    rw [rounds, List.length_cons, hround] at hrun
    rcases loadTransfer_byte_cases (s := s.withCbInput [] q src) hread.code_length c with hfail | ⟨w, ld, hbyte, hnext⟩
    · exact absurd herr (hfail.err_ne_none hrun)
    · rw [hnext] at hrun
      obtain ⟨ps', ds', hread'⟩ := hread.readsByte hbyte
      rw [List.append_cons]
      exact ih (s := { s.withCbInput [] q src with wDupsym := w, ld := ld }) hop hst hread' hrest hrun

/-- Settles O39: the start step's parser has read nothing (`init_hasRead`), each byte that is no error keeps the grammar
(`HasRead.readsByte`), and END is accepted only between two pairs. -/
theorem loadAcceptsOnlyTheGrammar : Obligations.LoadAcceptsOnlyTheGrammar := by
  intro s t text tail hop hst _ hgo hrun herr
  obtain ⟨q, src, hq, hround⟩ := runUnder_round_loadStart hop hst (rounds [.cbSource, .core] (text.length + 1))
  have hload : LoadsText ([] ++ text) t.tree := by
    refine loadsText_of_run (s := loadStart (s.withCbInput [] q src)) text hop rfl LoadState.init_hasRead
      (hq.trans hgo) ?_ herr
    rw [← hround, ← hrun, Nat.add_comm 2]
    rfl
  obtain ⟨ps, hne, htext, hvalid, hperm⟩ := hload
  refine ⟨ps, hne, htext, hvalid, ?_, hperm⟩
  have hpw := (hperm.pairwise_iff fun h => h.symm).1 t.tree.codes_pairwise
  exact List.pairwise_map.1 hpw

end Sys2Proof.Machine
end

section
/-! SUPPORT. What the host's reads and writes do at each offset (spec 40_host_access.md R120-R127), what NOP and ILLEGAL do
(R129, R130), and which command a Core's turn runs (R128). -/

namespace Sys2Proof.Machine

/-! ### Offsets (10_state.md R21, 20_memory.md R61) -/

theorem regOfIndex_ne_reserved : ∀ k < 13, regOfIndex k ≠ .reserved := by decide

/-- An offset the block decodes is a register's, a reserved one or a FREQ entry's. -/
theorem selectOffset_legal_cases {off : Nat} (h8 : off < 0x800) (h4 : off % 4 = 0) :
    (∃ r, off = offsetOf r) ∨
    (0x034 ≤ off ∧ off ≤ 0x3FC ∧ selectOffset off = .ok .reserved) ∨
    (0x400 ≤ off ∧ selectOffset off = .ok (.freq ((off - 0x400) / 4))) := by
  rcases selectOffset_cases off with ⟨hne, -⟩ | ⟨-, hge, -⟩ | ⟨-, hle, hsel⟩ | ⟨-, hge, -, hsel⟩
  · exact absurd h4 hne
  · omega
  · rcases regOfIndex_cases (off / 4) with ⟨r, -, hr⟩ | hr
    · exact .inl ⟨r, by omega⟩
    · have hk : ¬ off / 4 < 13 := fun hlt => regOfIndex_ne_reserved _ hlt hr
      exact .inr (.inl ⟨by omega, hle, by rw [hsel, hr]⟩)
  · exact .inr (.inr ⟨hge, hsel⟩)

/-! ### Reads (R120) -/

theorem busy_eq_true_iff {s : State} : s.busy = true ↔ s.op ≠ .idle := by
  rw [busy_eq_decide, decide_eq_true_iff]

/-- The word STATUS reads as, with BUSY and TREE_VALID read off the state. -/
theorem statusWord_eq (s : State) :
    s.statusWord = 0#12 ++ s.lastOp ++ errDetailCode s.errDetail ++ errCode s.err ++ 0#2 ++
      BitVec.ofBool s.ovr ++ BitVec.ofBool s.wDupsym ++ BitVec.ofBool s.wTrail ++
      BitVec.ofBool (decide (s.tree ≠ .absent)) ++ BitVec.ofBool s.done ++ BitVec.ofBool (decide (s.op ≠ .idle)) := by
  rw [State.statusWord, treeValid_eq_decide, busy_eq_decide]

theorem regValue_WEIGHT_LO (s : State) : s.regValue .WEIGHT_LO = s.weight.setWidth 32 :=
  (BitVec.setWidth_eq_extractLsb' (by decide)).symm

theorem regValue_WEIGHT_HI (s : State) : s.regValue .WEIGHT_HI = (s.weight >>> 32).setWidth 32 := by
  refine BitVec.eq_of_toNat_eq ?_
  have hw : s.weight.toNat < 2 ^ 40 := s.weight.isLt
  simp only [State.regValue, BitVec.toNat_setWidth, BitVec.extractLsb'_toNat, BitVec.toNat_ushiftRight,
    Nat.shiftRight_eq_div_pow]
  omega

section

variable (s : State) (rest : List HostOp)

/-- A result register read while a command runs gives the next free value. -/
theorem hostStep_rd_free {r : RegName} (hres : isResult r = true) (hop : s.op ≠ .idle) :
    hostStep { s with hostProg := rd (offsetOf r) :: rest } =
      .next { s with hostProg := rest, hostReads := s.hostReads ++ [Config.freeRead s.draws], draws := s.draws + 1 } := by
  have hfree : isResult r && State.busy { s with hostProg := rd (offsetOf r) :: rest } :=
    Bool.and_eq_true_iff.2 ⟨hres, busy_eq_true_iff.2 hop⟩
  rw [hostStep_read (selectOffset_offsetOf r), readTarget, if_pos hfree]

/-- Any other read of a register gives its value. -/
theorem hostStep_rd_reg {r : RegName} (h : isResult r = false ∨ s.op = .idle) :
    hostStep { s with hostProg := rd (offsetOf r) :: rest } =
      .next { s with hostProg := rest, hostReads := s.hostReads ++ [s.regValue r] } := by
  have hvalue : ¬ (isResult r && State.busy { s with hostProg := rd (offsetOf r) :: rest }) := by
    rw [Bool.and_eq_true_iff, busy_eq_true_iff]
    rintro ⟨hres, hop⟩
    rcases h with h | h
    · exact Bool.false_ne_true (h.symm.trans hres)
    · exact hop h
  rw [hostStep_read (selectOffset_offsetOf r), readTarget, if_neg hvalue]
  cases r <;> rfl

theorem hostStep_rd_reserved {off : Nat} (h : selectOffset off = .ok .reserved) :
    hostStep { s with hostProg := rd off :: rest } =
      .next { s with hostProg := rest, hostReads := s.hostReads ++ [0#32] } :=
  hostStep_read h

theorem hostStep_rd_freq {off k : Nat} (h : selectOffset off = .ok (.freq k)) :
    hostStep { s with hostProg := rd off :: rest } =
      .next { s with hostProg := rest, hostReads := s.hostReads ++ [Memory.read s.freq k] } :=
  hostStep_read h

theorem hostStep_rd_refused {off : Nat} {q : Refusal} (h : selectOffset off = .error q) :
    hostStep { s with hostProg := rd off :: rest } = .refused q :=
  hostStep_refused_of_access ⟨rest, .inl rfl⟩ ((selectAccess_word off).trans h)

end

/-- Settles O7: a legal offset is a register's, a reserved one or a FREQ entry's (`selectOffset_legal_cases`), and only a
result register reads differently while a command runs. -/
theorem hostReadReturnsTheStatedValue : Obligations.HostReadReturnsTheStatedValue := by
  intro s off rest
  refine ⟨fun h8 h4 => ?_, fun hbad => ?_⟩
  · rcases selectOffset_legal_cases h8 h4 with ⟨r, rfl⟩ | ⟨hlo, hhi, hsel⟩ | ⟨hlo, hsel⟩
    · cases hres : isResult r with
      | false =>
        refine ⟨_, s.draws, hostStep_rd_reg s rest (.inl hres), ?_⟩
        cases r with
        | PARAMS => simp [offsetOf, State.regValue, Config.params]
        | CTRL => simp [offsetOf, State.ctrlWord]
        | CMD => simp [offsetOf, State.regValue]
        | STATUS => simp [offsetOf, statusWord_eq]
        | _ => cases hres
      | true =>
        by_cases hop : s.op = .idle
        · refine ⟨_, s.draws, hostStep_rd_reg s rest (.inr hop), ?_⟩
          cases r with
          | PARAMS | CTRL | CMD | STATUS => cases hres
          | WEIGHT_LO => simp [offsetOf, hop, regValue_WEIGHT_LO]
          | WEIGHT_HI => simp [offsetOf, hop, regValue_WEIGHT_HI]
          | _ => simp [offsetOf, hop, State.regValue]
        · refine ⟨_, _, hostStep_rd_free s rest hres hop, ?_⟩
          cases r with
          | PARAMS | CTRL | CMD | STATUS => cases hres
          | _ => simp [offsetOf, hop]
    · refine ⟨_, s.draws, hostStep_rd_reserved s rest hsel, ?_⟩
      have hreg : ∀ n ≤ 0x030, off ≠ n := by omega
      simp [hreg, hhi, show ¬ off ≤ 0x030 by omega, show ¬ 0x400 ≤ off by omega]
    · refine ⟨_, s.draws, hostStep_rd_freq s rest hsel, ?_⟩
      have hreg : ∀ n ≤ 0x030, off ≠ n := by omega
      simp [hreg, show ¬ off ≤ 0x030 by omega, show ¬ off ≤ 0x3FC by omega]
  · cases hsel : selectOffset off with
    | ok t => exact absurd (legalOffset_iff.1 (selectOffset_isOk_iff.1 ⟨t, hsel⟩)).symm hbad
    | error q => exact ⟨q, hostStep_rd_refused s rest hsel⟩

/-! ### Writes (R121-R127) -/

section

variable (s : State) (v : Word) (rest : List HostOp)

theorem ctrlWrite_srst (h : v.getLsbD 0 = true) : ctrlWrite v s = resetBlock s := if_pos h

theorem ctrlWrite_irqEn (h : v.getLsbD 0 = false) : ctrlWrite v s = { s with irqEn := v.getLsbD 1 } :=
  if_neg (Bool.not_eq_true _ ▸ h)

theorem cmdWrite_idle (h : s.op = .idle) : cmdWrite v s = acceptCommand v s :=
  if_neg fun hb => busy_eq_true_iff.1 hb h

theorem cmdWrite_busy (h : s.op ≠ .idle) : cmdWrite v s = setOvr s := if_pos (busy_eq_true_iff.2 h)

theorem freqWrite_idle (k : Nat) (h : s.op = .idle) : freqWrite k v s = { s with freq := Memory.write s.freq k v } :=
  if_neg fun hb => busy_eq_true_iff.1 hb h

theorem freqWrite_busy (k : Nat) (h : s.op ≠ .idle) : freqWrite k v s = setOvr s := if_pos (busy_eq_true_iff.2 h)

/-- Only CTRL, CMD and STATUS can be written (R127). -/
theorem writeTarget_readOnly {r : RegName} (hctrl : r ≠ .CTRL) (hcmd : r ≠ .CMD) (hstatus : r ≠ .STATUS) :
    writeTarget (.reg r) v s = s := by
  cases r with
  | CTRL => exact absurd rfl hctrl
  | CMD => exact absurd rfl hcmd
  | STATUS => exact absurd rfl hstatus
  | _ => rfl

/-- No write looks at what the host has still to do. -/
theorem writeTarget_setHostProg (t : Target) (p : List HostOp) :
    writeTarget t v { s with hostProg := p } = { writeTarget t v s with hostProg := p } := by
  have hite (c : Prop) [Decidable c] (x y : State) :
      (if c then { x with hostProg := p } else { y with hostProg := p }) =
        { (if c then x else y) with hostProg := p } := by split <;> rfl
  cases t with
  | reserved => rfl
  | freq k => exact hite (s.busy = true) (setOvr s) { s with freq := Memory.write s.freq k v }
  | reg r =>
    cases r with
    | CTRL => exact hite (v.getLsbD 0 = true) (resetBlock s) { s with irqEn := v.getLsbD 1 }
    | CMD => exact hite (s.busy = true) (setOvr s) (acceptCommand v s)
    | _ => rfl

/-- A write is the write of the selected target to the state at hand; the operation is used up. -/
theorem hostStep_wr {off : Nat} {t : Target} (ht : selectOffset off = .ok t) :
    hostStep { s with hostProg := wr off v :: rest } = .next { writeTarget t v s with hostProg := rest } := by
  rw [hostStep_write ht, writeTarget_setHostProg]

theorem hostStep_wr_CTRL :
    hostStep { s with hostProg := wr 0x004 v :: rest } = .next { ctrlWrite v s with hostProg := rest } :=
  hostStep_wr s v rest (selectOffset_offsetOf .CTRL)

theorem hostStep_wr_CMD :
    hostStep { s with hostProg := wr 0x008 v :: rest } = .next { cmdWrite v s with hostProg := rest } :=
  hostStep_wr s v rest (selectOffset_offsetOf .CMD)

theorem hostStep_wr_STATUS :
    hostStep { s with hostProg := wr 0x00C v :: rest } = .next { statusWrite v s with hostProg := rest } :=
  hostStep_wr s v rest (selectOffset_offsetOf .STATUS)

theorem hostStep_hostFreq {k : Nat} (hk : k < 256) :
    hostStep { s with hostProg := hostFreq k v :: rest } = .next { freqWrite k v s with hostProg := rest } :=
  hostStep_wr s v rest (selectOffset_freq hk)

end

/-- Settles O5: SRST makes the write `resetBlock`, whatever runs; without it only IRQ_EN is written. -/
theorem softResetHasTheEffectOfReset : Obligations.SoftResetHasTheEffectOfReset := by
  intro s v rest
  rw [hostStep_wr_CTRL]
  refine ⟨fun hsrst => ?_, fun hsrst => ?_⟩
  · rw [ctrlWrite_srst s v hsrst]
    rfl
  · rw [ctrlWrite_irqEn s v hsrst]

/-- Settles O9: the write is `acceptCommand` (`cmdWrite_idle`), whose `op` is what the word decodes to. -/
theorem idleCommandWriteIsAccepted : Obligations.IdleCommandWriteIsAccepted := by
  intro s w rest hop
  rw [hostStep_wr_CMD, cmdWrite_idle s w hop]
  rfl

/-- Settles O10: while a command runs a write of CMD or of a FREQ entry is `setOvr`. -/
theorem busyWritesAreDiscardedWithOverrun : Obligations.BusyWritesAreDiscardedWithOverrun := by
  intro s v rest hop
  refine ⟨?_, fun k hk => ?_⟩
  · rw [hostStep_wr_CMD, cmdWrite_busy s v hop]
    rfl
  · rw [hostStep_hostFreq s v rest hk, freqWrite_busy s v k hop]
    rfl

/-- Settles O11: the new table is `Memory.write`, which has its reads and keeps the canonical form. -/
theorem idleFreqWriteSetsOneEntry : Obligations.IdleFreqWriteSetsOneEntry := by
  intro s k v rest hop hwf hk
  refine ⟨Memory.write s.freq k v, ?_, Memory.wf_write hwf hk, Memory.read_write_same hwf,
    fun j hj => Memory.read_write_other hj⟩
  rw [hostStep_hostFreq s v rest hk, freqWrite_idle s v k hop]

/-- Settles O12: each of the two flags is kept iff its bit of the word is 0. -/
theorem statusWriteClearsDoneAndOverrun : Obligations.StatusWriteClearsDoneAndOverrun := by
  have hclear (flag bit : Bool) : (flag && !bit) = if bit then false else flag := by cases bit <;> simp
  intro s v rest
  rw [hostStep_wr_STATUS, statusWrite, hclear, hclear]

/-- Settles O13: such an offset selects a register other than CTRL, CMD and STATUS, or nothing. -/
theorem readOnlyAndReservedWritesHaveNoEffect : Obligations.ReadOnlyAndReservedWritesHaveNoEffect := by
  intro s off v rest h4 hoff
  rcases selectOffset_legal_cases (by omega) h4 with ⟨r, rfl⟩ | ⟨-, -, hsel⟩ | ⟨hge, -⟩
  · have hne {q : RegName} (hq : ¬ (offsetOf q = 0 ∨ 0x010 ≤ offsetOf q)) : r ≠ q := by
      rintro rfl
      omega
    rw [hostStep_wr s v rest (selectOffset_offsetOf r),
      writeTarget_readOnly s v (hne (by decide)) (hne (by decide)) (hne (by decide))]
  · exact hostStep_wr s v rest hsel
  · omega

/-! ### NOP and ILLEGAL (R129, R130) -/

/-- Settles O16: NOP's arm is `finish`. -/
theorem nopOnlyFinishes : Obligations.NopOnlyFinishes := by
  intro s
  calc exec .nop s = .next (finish s) := rfl
    _ = .next { s with op := .idle, started := false, done := true } := rfl

/-- Settles O17: a word with such a field decodes to no command (`exists_decode_eq_ok_iff`). -/
theorem illegalReportsIllegalCommand : Obligations.IllegalReportsIllegalCommand := by
  refine ⟨fun s w hbad => ⟨?_, rfl, rfl⟩, fun s hop => ?_⟩
  · refine opOfWord_illegal fun i hi => ?_
    obtain ⟨hrsvd, hopcode⟩ := exists_decode_eq_ok_iff.1 ⟨i, decode_eq_ok_iff_eq_encode.2 hi⟩
    rcases hbad with hbad | hbad
    · exact hbad hrsvd
    · exact absurd (BitVec.le_trans hbad hopcode) (by decide)
  · rw [coreStep_illegal hop]
    rfl

/-! ### The Core's turn (R128) -/

theorem opOfWord_run {w : Word} {i : Instr} (h : decode w = .ok i) : opOfWord w = .run i := by
  rw [opOfWord, h]

theorem step_core {s : State} {r : List Slot} (h : s.sched = .agent .core :: r) :
    step s = coreStep { s with sched := r } :=
  step_agent s .core r h

theorem step_core_run {s : State} {i : Instr} {r : List Slot} (hop : s.op = .run i) (h : s.sched = .agent .core :: r) :
    step s = exec i { s with sched := r } := by
  rw [step_core h]
  exact coreStep_run hop

theorem defaultAgent_core {s : State} (h : coreReady s = true) : defaultAgent s = .core := if_pos h

theorem withFetchWord_eq (s : State) (w : Word) : s.withFetchWord 32 w.toNat = placeCommand w s := by
  rw [State.withFetchWord, Nat.mod_eq_of_lt w.isLt, BitVec.ofNat_toNat, BitVec.setWidth_eq]

/-- Settles O46: on its turn the Core runs `op` (`step_core_run`), which an accepted word sets to what it decodes to. -/
theorem stepRunsTheDecodedCommand : Obligations.StepRunsTheDecodedCommand := by
  refine ⟨fun s i r hop hsched => step_core_run hop hsched, fun s i hop hsched hready => ?_, fun s i w hw => ?_,
    fun s i w rest r hw hop hprog hsched => ?_⟩
  · rw [step_unscheduled s hsched, defaultAgent_core hready]
    exact coreStep_run hop
  · rw [withFetchWord_eq]
    exact step_core_run (opOfWord_run hw) rfl
  · refine ⟨{ acceptCommand w s with hostProg := rest, sched := .agent .core :: r }, ?_, opOfWord_run hw, rfl,
      step_core_run (opOfWord_run hw) rfl⟩
    have hwrite : { s with sched := .agent .core :: r, hostProg := wr 0x008 w :: rest } =
        { s with sched := .agent .core :: r } := by rw [← hprog]
    rw [step_agent s .host _ hsched, ← hwrite]
    refine (hostStep_wr_CMD { s with sched := .agent .core :: r } w rest).trans ?_
    rw [cmdWrite_idle { s with sched := .agent .core :: r } w hop]
    rfl

/-- Settles O47: with `op` IDLE the Core's turn is `coreStep_idle`. -/
theorem idleCoreTakesNoStep : Obligations.IdleCoreTakesNoStep := by
  intro s r hop hsched
  rw [step_core hsched]
  exact coreStep_idle hop

end Sys2Proof.Machine
end

section
/-! SUPPORT. BUILD's queue and its merges (spec 41_tree_builder.md R150-R158): the leaves, what every merge keeps, that
the greedy merge has one result, and what BUILD writes. -/

namespace Sys2Proof.Machine

/-! ### The leaves of the queue -/

/-- The entries of the queue, one for each present symbol. -/
theorem mem_leafQueue {m : Memory} {x : QEntry} (h : x ∈ leafQueue m) :
    ∃ k ∈ m.present, x.w = freqOf m k ∧ x.t = .leaf (BitVec.ofNat 8 k) := by
  obtain ⟨⟨k, i⟩, hk, rfl⟩ := List.mem_map.1 h
  exact ⟨k, List.fst_mem_of_mem_zipIdx hk, rfl, rfl⟩

theorem map_zipIdx_fst {α β : Type} (f : α → β) (l : List α) : l.zipIdx.map (fun p => f p.1) = l.map f :=
  calc l.zipIdx.map (fun p => f p.1) = (l.zipIdx.map Prod.fst).map f := (List.map_map ..).symm
    _ = l.map f := by rw [List.zipIdx_map_fst]

theorem leafQueue_trees (m : Memory) :
    (leafQueue m).map QEntry.t = m.present.map (fun k => .leaf (BitVec.ofNat 8 k)) := by
  rw [leafQueue, List.map_map]
  exact map_zipIdx_fst (fun k => TreeSlot.leaf (BitVec.ofNat 8 k)) m.present

/-- A present symbol fits its 8 bits. -/
theorem toNat_ofNat_present {m : Memory} {k : Nat} (hk : k ∈ m.present) : (BitVec.ofNat 8 k).toNat = k :=
  Nat.mod_eq_of_lt (Memory.mem_present.1 hk).1

/-- Only the 256 counts matter (R158). -/
theorem leafQueue_congr {m m' : Memory} (h : ∀ k, k < Config.nsym → Memory.read m k = Memory.read m' k) :
    m.present = m'.present ∧ leafQueue m = leafQueue m' := by
  have hpresent : m.present = m'.present :=
    List.filter_congr fun k hk => by rw [h k (List.mem_range.1 hk)]
  refine ⟨hpresent, ?_⟩
  rw [leafQueue, leafQueue, ← hpresent]
  refine List.map_congr_left fun ⟨k, _⟩ hk => ?_
  simp only [h k (Memory.mem_present.1 (List.fst_mem_of_mem_zipIdx hk)).1]

/-! ### The merge loop answers a root iff a symbol is present -/

theorem mergeOnce_ne_nil {next : Nat} {q : List QEntry} (hq : q ≠ []) : mergeOnce next q ≠ [] := by
  unfold mergeOnce
  split
  · dsimp only
    split <;> simp
  · exact hq

theorem mergeLoop_ne_nil {k next : Nat} {q : List QEntry} (hq : q ≠ []) : mergeLoop k next q ≠ [] := by
  induction k generalizing next q with
  | zero => exact hq
  | succ k ih =>
    unfold mergeLoop
    split
    · exact ih (mergeOnce_ne_nil hq)
    · exact hq

theorem buildRoot_of_present_nil {m : Memory} (h : m.present = []) : buildRoot m = none := by
  have hq : leafQueue m = [] := List.length_eq_zero_iff.1 (by rw [leafQueue_length, h, List.length_nil])
  simp only [buildRoot, hq]
  rfl

theorem exists_buildRoot {m : Memory} (h : m.present ≠ []) : ∃ r, buildRoot m = some r := by
  have hq : leafQueue m ≠ [] := by
    rw [← List.length_pos_iff, leafQueue_length]
    exact List.length_pos_iff.2 h
  exact Option.isSome_iff_exists.1 (List.isSome_head?.2 (mergeLoop_ne_nil hq))

/-! ### The greedy merge has one result (R151) -/

/-- Two permuted lists whose heads each come before the rest have the same head. -/
theorem QEntry.eq_of_least {x y : QEntry} {xs ys : List QEntry} (hp : (x :: xs).Perm (y :: ys))
    (hx : ∀ z ∈ xs, x.w < z.w ∨ (x.w = z.w ∧ x.seq < z.seq))
    (hy : ∀ z ∈ ys, y.w < z.w ∨ (y.w = z.w ∧ y.seq < z.seq)) : x = y := by
  by_contra hne
  have hmem : x ∈ ys := (List.mem_cons.1 (hp.mem_iff.1 (List.mem_cons_self ..))).resolve_left hne
  have hmem' : y ∈ xs := (List.mem_cons.1 (hp.mem_iff.2 (List.mem_cons_self ..))).resolve_left (Ne.symm hne)
  have := hx y hmem'
  have := hy x hmem
  omega

theorem GreedyMerge.unique {next : Nat} {q q' : List QEntry} {r r' : QEntry} (h : GreedyMerge next q r)
    (h' : GreedyMerge next q' r') (hq : q.Perm q') : r = r' := by
  induction h generalizing q' with
  | done next r =>
    cases h' with
    | done => exact List.singleton_inj.1 (List.perm_singleton.1 hq.symm).symm
    | merge _ _ _ _ _ _ split => exact absurd (hq.trans split).length_eq (by simp)
  | merge next q rest a b r split first second go ih =>
    cases h' with
    | done => exact absurd (split.symm.trans hq).length_eq (by simp)
    | merge _ _ rest' a' b' _ split' first' second' go' =>
      have hperm := split.symm.trans (hq.trans split')
      obtain rfl := QEntry.eq_of_least hperm first first'
      have hperm := hperm.cons_inv
      obtain rfl := QEntry.eq_of_least hperm second second'
      exact ih go' (hperm.cons_inv.cons _)

/-- Settles O24: BUILD's root is a greedy merge of the leaves (`greedyMerge_of_buildRoot`), and there is no other. -/
theorem buildMergesGreedily : Obligations.BuildMergesGreedily := by
  intro m r
  change buildRoot m = some r ↔ GreedyMerge (leafQueue m).length (leafQueue m) r
  rw [leafQueue_length]
  refine ⟨greedyMerge_of_buildRoot, fun h => ?_⟩
  have hpresent : m.present ≠ [] := by
    rw [← List.length_pos_iff, ← leafQueue_length, List.length_pos_iff]
    rintro hnil
    rw [hnil] at h
    cases h with
    | merge _ _ _ _ _ _ split => exact absurd split.length_eq (by simp)
  obtain ⟨r', hr'⟩ := exists_buildRoot hpresent
  rw [hr', (greedyMerge_of_buildRoot hr').unique h (.refl _)]

/-! ### What every merge keeps -/

/-- What holds of every leaf and of the merge of two entries, the first not heavier, holds of the root. -/
theorem GreedyMerge.root_of_merge {P : QEntry → Prop}
    (hmerge : ∀ a b n, P a → P b → a.w ≤ b.w → P { w := a.w + b.w, seq := n, t := .node a.t b.t })
    {next : Nat} {q : List QEntry} {r : QEntry} (h : GreedyMerge next q r) (hq : ∀ x ∈ q, P x) : P r := by
  induction h with
  | done next r => exact hq r (List.mem_singleton_self r)
  | merge next q rest a b r split first second go ih =>
    have hq' : ∀ x ∈ a :: b :: rest, P x := fun x hx => hq x (split.mem_iff.2 hx)
    simp only [List.forall_mem_cons] at hq' first
    obtain ⟨ha, hb, hrest⟩ := hq'
    exact ih (List.forall_mem_cons.2 ⟨hmerge a b next ha hb (by omega), hrest⟩)

/-- The root has the leaves of all the entries. -/
theorem GreedyMerge.symbols_perm {next : Nat} {q : List QEntry} {r : QEntry} (h : GreedyMerge next q r) :
    (r.t.codes.map Prod.fst).Perm ((q.map QEntry.t).flatMap (fun t => t.codes.map Prod.fst)) := by
  induction h with
  | done next r => simp
  | merge next q rest a b r split first second go ih =>
    refine ih.trans (.trans (.of_eq ?_) ((split.map QEntry.t).flatMap_right _).symm)
    simp [TreeSlot.codes, Function.comp_def]

/-! ### Weights and costs of trees -/

@[simp] theorem TreeSlot.weightIn_leaf (m : Memory) (v : Sym) : (TreeSlot.leaf v).weightIn m = freqOf m v.toNat := by
  simp [weightIn, codes]

@[simp] theorem TreeSlot.weightIn_node (m : Memory) (l r : TreeSlot) :
    (TreeSlot.node l r).weightIn m = l.weightIn m + r.weightIn m := by
  simp [weightIn, codes, Function.comp_def]

@[simp] theorem TreeSlot.costIn_leaf (m : Memory) (v : Sym) : (TreeSlot.leaf v).costIn m = 0 := by
  simp [costIn, codes]

/-- Below a node every code is one bit longer. -/
@[simp] theorem TreeSlot.costIn_node (m : Memory) (l r : TreeSlot) :
    (TreeSlot.node l r).costIn m = l.costIn m + r.costIn m + (l.weightIn m + r.weightIn m) := by
  simp only [costIn, weightIn, codes, List.map_append, List.map_map, List.sum_append, Function.comp_def,
    List.length_cons, Nat.mul_succ, List.sum_map_add]
  omega

/-- No left subtree weighs more than its right sibling (R152). -/
def TreeSlot.LeftLight (m : Memory) (t : TreeSlot) : Prop :=
  ∀ p a b, t.subtree p = .node a b → a.weightIn m ≤ b.weightIn m

theorem TreeSlot.leftLight_leaf (m : Memory) (v : Sym) : (TreeSlot.leaf v).LeftLight m := by
  intro p a b h
  cases p <;> simp at h

theorem TreeSlot.LeftLight.node {m : Memory} {l r : TreeSlot} (hl : l.LeftLight m) (hr : r.LeftLight m)
    (h : l.weightIn m ≤ r.weightIn m) : (TreeSlot.node l r).LeftLight m := by
  intro p a b hp
  match p with
  | [] => cases hp; exact h
  | false :: p => exact hl p a b hp
  | true :: p => exact hr p a b hp

/-- An entry's weight is that of its tree, in which no left subtree is the heavier. -/
def QEntry.Weighs (m : Memory) (x : QEntry) : Prop := x.w = x.t.weightIn m ∧ x.t.LeftLight m

theorem leafQueue_weighs {m : Memory} {x : QEntry} (hx : x ∈ leafQueue m) : x.Weighs m := by
  obtain ⟨k, hk, hw, ht⟩ := mem_leafQueue hx
  rw [QEntry.Weighs, hw, ht, TreeSlot.weightIn_leaf, toNat_ofNat_present hk]
  exact ⟨rfl, TreeSlot.leftLight_leaf m _⟩

theorem QEntry.Weighs.merge {m : Memory} {a b : QEntry} (n : Nat) (ha : a.Weighs m) (hb : b.Weighs m)
    (h : a.w ≤ b.w) : QEntry.Weighs m { w := a.w + b.w, seq := n, t := .node a.t b.t } := by
  obtain ⟨haw, hal⟩ := ha
  obtain ⟨hbw, hbl⟩ := hb
  refine ⟨?_, hal.node hbl (haw ▸ hbw ▸ h)⟩
  rw [TreeSlot.weightIn_node, haw, hbw]

theorem buildRoot_weighs {m : Memory} {r : QEntry} (h : buildRoot m = some r) : r.Weighs m :=
  (greedyMerge_of_buildRoot h).root_of_merge (fun _ _ n => .merge n) fun _ => leafQueue_weighs

/-- Settles O26: a merge takes the lighter entry first, and an entry's weight is its tree's (`QEntry.Weighs.merge`). -/
theorem buildLeftChildIsNeverHeavier : Obligations.BuildLeftChildIsNeverHeavier :=
  fun _ _ h => (buildRoot_weighs h).2

/-! ### The shape of the tree (R156) -/

theorem buildRoot_symbols_perm {m : Memory} {r : QEntry} (h : buildRoot m = some r) :
    (r.t.codes.map (fun c => c.1.toNat)).Perm m.present := by
  have hleaves : (r.t.codes.map Prod.fst).Perm (m.present.map (BitVec.ofNat 8)) := by
    refine (greedyMerge_of_buildRoot h).symbols_perm.trans (.of_eq ?_)
    rw [leafQueue_trees, List.flatMap_map]
    exact (List.map_eq_flatMap ..).symm
  have hvalues := hleaves.map BitVec.toNat
  rw [List.map_map, List.map_map] at hvalues
  exact hvalues.trans
    (.of_eq ((List.map_congr_left fun k hk => toNat_ofNat_present hk).trans (List.map_id _)))

theorem TreeSlot.code_length_le_depth {t : TreeSlot} {c : Sym × List Bit} (hc : c ∈ t.codes) :
    c.2.length ≤ t.depth := by
  refine length_le_depth ?_
  rw [mem_codes.1 hc]
  nofun

/-- Settles O25: BUILD's tree is full (`buildRoot_full`), and so are its size and its depth; its codes are paths. -/
theorem buildTreeShape : Obligations.BuildTreeShape := by
  intro m r h
  obtain ⟨hfull, hne, hcount⟩ := buildRoot_full h
  have hsize := TreeSlot.size_of_full hfull hne
  have hdepth := TreeSlot.depth_lt_leafCount_of_full hfull hne
  have hfits := TreeSlot.fits_of_full hfull hne (hcount ▸ m.present_length_le)
  refine ⟨hne, hfull, buildRoot_symbols_perm h, by omega, fun c hc => ?_,
    fun _ hc _ hd => TreeSlot.codes_prefix_free hc hd⟩
  have hlen := TreeSlot.code_length_le_depth hc
  exact ⟨by omega, hlen.trans hfits.depth⟩

/-! ### BUILD (R150, R153-R155, R158) and CLEAR_FREQ (R170) -/

theorem exec_build_some {s : State} {r : QEntry} (h : buildRoot s.freq = some r) :
    exec .build s = .next (finish (installTree r.t s.freq.present.length (2 * s.freq.present.length - 1) r.w s)) := by
  simp only [exec, execBuild, h]

theorem exec_build_none {s : State} (h : buildRoot s.freq = none) :
    exec .build s = .next (raiseErr .noSymbols .none (dropTree s)) := by
  simp only [exec, execBuild, h]

theorem freqOf_lt (m : Memory) (k : Nat) : freqOf m k < 2 ^ 32 := (Memory.read m k).isLt

/-- An absent symbol adds nothing to the sum of all counts. -/
theorem sum_present (m : Memory) : (m.present.map (freqOf m)).sum = ((List.range Config.nsym).map (freqOf m)).sum := by
  unfold Memory.present
  induction List.range Config.nsym with
  | nil => rfl
  | cons k ks ih =>
    by_cases hk : Memory.read m k = 0#32
    · simp [hk, ih, freqOf]
    · simp [hk, ih]

/-- The sum of all counts is exact in 40 bits (00_scope.md R15). -/
theorem sum_freqOf_lt (m : Memory) : ((List.range Config.nsym).map (freqOf m)).sum < 2 ^ 40 := by
  have hle := List.sum_le_card_nsmul ((List.range Config.nsym).map (freqOf m)) (2 ^ 32 - 1) (by
    intro x hx
    obtain ⟨k, -, rfl⟩ := List.mem_map.1 hx
    exact Nat.le_sub_one_of_lt (freqOf_lt m k))
  rw [List.length_map, List.length_range, Config.nsym, smul_eq_mul] at hle
  exact hle.trans_lt (by decide)

/-- The root weighs as much as all counts together (R155). -/
theorem buildRoot_weight {m : Memory} {r : QEntry} (h : buildRoot m = some r) :
    r.w = ((List.range Config.nsym).map (freqOf m)).sum := by
  rw [(buildRoot_weighs h).1, ← sum_present, ← ((buildRoot_symbols_perm h).map (freqOf m)).sum_eq, List.map_map]
  rfl

/-- Settles O21: a present symbol gives a root (`exists_buildRoot`), whose weight is the sum of all counts. -/
theorem buildInstallsTheMergedTree : Obligations.BuildInstallsTheMergedTree := by
  rintro s ⟨k, hk, hpos⟩
  obtain ⟨r, hr⟩ := exists_buildRoot (List.ne_nil_of_mem (Memory.mem_present.2 ⟨hk, hpos⟩))
  refine ⟨r, s.freq.present.length, hr, rfl, buildRoot_weight hr, ?_, exec_build_some hr⟩
  rw [buildRoot_weight hr]
  exact sum_freqOf_lt s.freq

theorem present_eq_nil {m : Memory} (h : ∀ k, k < Config.nsym → Memory.read m k = 0#32) : m.present = [] :=
  List.eq_nil_iff_forall_not_mem.2 fun k hk => (Memory.mem_present.1 hk).2 (h k (Memory.mem_present.1 hk).1)

theorem exec_build_zero {s : State} (h : ∀ k, k < Config.nsym → Memory.read s.freq k = 0#32) :
    exec .build s = .next (raiseErr .noSymbols .none (dropTree s)) :=
  exec_build_none (buildRoot_of_present_nil (present_eq_nil h))

/-- Settles O22: without a present symbol there is no root. -/
theorem buildWithoutSymbolsFails : Obligations.BuildWithoutSymbolsFails := fun _ h => exec_build_zero h

/-- Settles O19: the empty table has no cell, so every count reads 0, and a BUILD from it finds no symbol. -/
theorem clearFreqZeroesEveryEntry : Obligations.ClearFreqZeroesEveryEntry := fun _ =>
  ⟨[], rfl, Memory.wf_nil, Memory.read_nil, fun _ => ⟨_, exec_build_zero fun k _ => Memory.read_nil k, rfl, rfl⟩⟩

theorem present_eq_singleton {m : Memory} {k : Nat} (hk : k < Config.nsym) (hpos : Memory.read m k ≠ 0#32)
    (hzero : ∀ j, j < Config.nsym → j ≠ k → Memory.read m j = 0#32) : m.present = [k] := by
  refine List.perm_singleton.1 ((List.perm_ext_iff_of_nodup m.present_nodup (List.nodup_singleton k)).2 fun j => ?_)
  rw [Memory.mem_present, List.mem_singleton]
  refine ⟨fun ⟨hj, hne⟩ => ?_, ?_⟩
  · by_contra hjk
    exact hne (hzero j hj hjk)
  · rintro rfl
    exact ⟨hk, hpos⟩

theorem buildRoot_of_present_singleton {m : Memory} {k : Nat} (h : m.present = [k]) :
    buildRoot m = some { w := freqOf m k, seq := 0, t := .leaf (BitVec.ofNat 8 k) } := by
  simp only [buildRoot, leafQueue, h]
  rfl

/-- Settles O23: the queue is the one leaf, and no merge is made. -/
theorem buildOfOneSymbolIsALeaf : Obligations.BuildOfOneSymbolIsALeaf := by
  intro s k hk hpos hzero
  have hpresent := present_eq_singleton hk hpos hzero
  rw [exec_build_some (buildRoot_of_present_singleton hpresent), hpresent, freqOf]
  simp only [installTree, BitVec.ofNat_toNat]
  rfl

/-- Settles O28: both BUILDs have the same queue (`leafQueue_congr`), and so the same root. -/
theorem buildDependsOnCountsAlone : Obligations.BuildDependsOnCountsAlone := by
  intro s s' t t' hread ht ht'
  obtain ⟨hpresent, hqueue⟩ := leafQueue_congr hread
  have hroot : buildRoot s.freq = buildRoot s'.freq := by rw [buildRoot, buildRoot, hqueue]
  cases hr : buildRoot s.freq with
  | none =>
    rw [exec_build_none hr] at ht
    rw [exec_build_none (hroot ▸ hr)] at ht'
    cases ht
    cases ht'
    exact ⟨rfl, rfl, rfl, rfl⟩
  | some r =>
    rw [exec_build_some hr] at ht
    rw [exec_build_some (hroot ▸ hr), ← hpresent] at ht'
    cases ht
    cases ht'
    exact ⟨rfl, rfl, rfl, rfl⟩

end Sys2Proof.Machine
end

section
/-! SUPPORT. SAVE (spec 41_tree_builder.md R160-R162): its steps, what it has sent under every interleaving, and that it
ends while the CbSink pops. -/

namespace Sys2Proof.Machine

/-! ### The steps (R160) -/

section

variable {s : State}

theorem saveStart_noTree (h : s.tree = .absent) : saveStart s = raiseErr .noTree .none s := if_pos h

theorem saveStart_tree (h : s.tree ≠ .absent) : saveStart s = { s with out := saveBytes s.tree, started := true } :=
  if_neg h

theorem saveTransfer_byte (c : Byte) (rest : List CbXfer) (s : State) :
    saveTransfer (.byte c) rest s = pushCb (.byte c) { s with out := rest } := rfl

theorem saveTransfer_end (rest : List CbXfer) (s : State) :
    saveTransfer .endOfStream rest s =
      finish { pushCb .endOfStream { s with out := rest } with cbPairs := BitVec.ofNat 16 s.tree.leafCount } := rfl

theorem exec_save_start (hst : s.started = false) : exec .save s = .next (saveStart s) :=
  if_neg (ne_true_of_eq_false hst)

theorem exec_save_push (hst : s.started = true) (hroom : s.cbOut.length < Config.outDepth) {x : CbXfer}
    {rest : List CbXfer} (hout : s.out = x :: rest) : exec .save s = .next (saveTransfer x rest s) := by
  simp only [exec, execSave, if_pos hst, if_pos hroom, hout]

theorem exec_save_hold (hst : s.started = true) (hfull : ¬ s.cbOut.length < Config.outDepth) :
    exec .save s = .next s := by
  simp only [exec, execSave, if_pos hst, if_neg hfull]

theorem coreStep_save_start (hop : s.op = .run .save) (hst : s.started = false) :
    coreStep s = .next (saveStart s) :=
  (coreStep_run hop).trans (exec_save_start hst)

theorem coreStep_save_push (hop : s.op = .run .save) (hst : s.started = true)
    (hroom : s.cbOut.length < Config.outDepth) {x : CbXfer} {rest : List CbXfer} (hout : s.out = x :: rest) :
    coreStep s = .next (saveTransfer x rest s) :=
  (coreStep_run hop).trans (exec_save_push hst hroom hout)

end

/-- Settles O29: each clause is one of the steps above. -/
theorem savePushesOneTransferAStep : Obligations.SavePushesOneTransferAStep := by
  intro s
  refine ⟨fun hst htree => ?_, fun hst htree => ?_, fun hst hroom c rest hout => exec_save_push hst hroom hout,
    fun hst hroom rest hout => exec_save_push hst hroom hout, exec_save_hold⟩
  · rw [exec_save_start hst, saveStart_noTree htree]
    rfl
  · rw [exec_save_start hst, saveStart_tree htree]

/-! ### Runs without a reset -/

/-- What every agent's turn keeps holds after every run without a hardware reset, and the run does not stop. -/
theorem runUnder_of_agentStep {P : State → Prop} (hsched : ∀ s, P s → P { s with sched := [] })
    (hstep : ∀ a s, P s → ∃ t, agentStep a s = .next t ∧ P t) {sl : List Slot} (hsl : .hardReset ∉ sl) {s : State}
    (h : P s) : ∃ t, runUnder sl s = .next t ∧ P t := by
  induction sl generalizing s with
  | nil => exact ⟨s, rfl, h⟩
  | cons x xs ih =>
    obtain ⟨hx, hxs⟩ := not_or.1 (List.mem_cons.not.1 hsl)
    cases x with
    | hardReset => exact absurd rfl hx
    | agent a =>
      obtain ⟨s', hs', h'⟩ := hstep a _ (hsched s h)
      obtain ⟨t, ht, hP⟩ := ih hxs h'
      exact ⟨t, by rw [runUnder_agent, hs']; exact ht, hP⟩

/-! ### What SAVE has sent (R161, R162) -/

/-- The words of cb_out's transfers in order: what the CbSink has got, and then what cb_out holds. -/
def State.cbWords (s : State) : List (BitVec 9) := s.cbGot ++ s.cbOut.map encodeCbXfer

theorem saveTransfer_cbWords (x : CbXfer) (rest : List CbXfer) (s : State) :
    (saveTransfer x rest s).cbWords = s.cbWords ++ [encodeCbXfer x] := by
  unfold saveTransfer
  split <;> simp [State.cbWords]

theorem cbSinkStep_cbWords (s : State) : (cbSinkStep s).cbWords = s.cbWords := by
  unfold cbSinkStep
  split
  · rfl
  · next hs => simp [State.cbWords, hs]

theorem cbSourceStep_cbWords (s : State) : (cbSourceStep s).cbWords = s.cbWords := by
  obtain ⟨q, src, he, -⟩ := cbSourceStep_eq s
  rw [he]
  rfl

theorem bitSourceStep_cbWords (s : State) : (bitSourceStep s).cbWords = s.cbWords := by
  unfold bitSourceStep
  split
  · rfl
  · split <;> rfl

theorem symSinkStep_cbWords (s : State) : (symSinkStep s).cbWords = s.cbWords := by
  unfold symSinkStep
  split <;> rfl

/-- A source's or a sink's turn keeps the words of cb_out. -/
theorem streamStep_cbWords {a : Agent} {s t : State} (ha : a ≠ .core) (ha' : a ≠ .host) (h : agentStep a s = .next t) :
    t.cbWords = s.cbWords := by
  cases a with
  | core => exact absurd rfl ha
  | host => exact absurd rfl ha'
  | bitSource => cases h; exact bitSourceStep_cbWords s
  | cbSource => cases h; exact cbSourceStep_cbWords s
  | symSink => cases h; exact symSinkStep_cbWords s
  | cbSink => cases h; exact cbSinkStep_cbWords s

/-- How far a SAVE of the tree `T` has come, `base` being the words sent before it. -/
inductive SavePhase (T : TreeSlot) (base : List (BitVec 9)) (s : State) : Prop where
  | accepted (op : s.op = .run .save) (started : s.started = false) (err : s.err = .none) (words : s.cbWords = base)
  | running (op : s.op = .run .save) (started : s.started = true) (err : s.err = .none) (sent left : List Byte)
      (text : T.pairsText [] = sent ++ left) (out : s.out = left.map CbXfer.byte ++ [.endOfStream])
      (words : s.cbWords = base ++ (sent.map CbXfer.byte).map encodeCbXfer)
  | ended (op : s.op = .idle) (done : s.done = true) (err : s.err = .none)
      (pairs : s.cbPairs = BitVec.ofNat 16 T.leafCount) (words : s.cbWords = base ++ (saveBytes T).map encodeCbXfer)

/-- A SAVE of `T` that no host disturbs. -/
structure Saving (T : TreeSlot) (base : List (BitVec 9)) (s : State) : Prop where
  tree     : s.tree = T
  present  : T ≠ .absent
  hostProg : s.hostProg = []
  phase    : SavePhase T base s

section

variable {T : TreeSlot} {base : List (BitVec 9)} {s : State}

/-- A turn that leaves the Core, the tree, the host's program and the words of cb_out alone keeps all of it. -/
theorem Saving.of_stream {bi bs ci cs so sg co cg sc} (h : Saving T base s)
    (hwords : cg ++ co.map encodeCbXfer = s.cbWords) :
    Saving T base { s with
      bitIn := bi, bitSrc := bs, cbIn := ci, cbSrc := cs, symOut := so, symGot := sg, cbOut := co, cbGot := cg,
      sched := sc } := by
  refine { h with phase := ?_ }
  cases h.phase with
  | accepted op started err words => exact .accepted op started err (hwords.trans words)
  | running op started err sent left text out words =>
    exact .running op started err sent left text out (hwords.trans words)
  | ended op done err pairs words => exact .ended op done err pairs (hwords.trans words)

/-- The Core's turn: SAVE's start, the next byte, END, a hold on a full cb_out, or nothing when SAVE has ended. -/
theorem Saving.coreStep (h : Saving T base s) : ∃ t, coreStep s = .next t ∧ Saving T base t := by
  obtain ⟨htree, hpresent, hprog, hphase⟩ := h
  cases hphase with
  | accepted op started err words =>
    refine ⟨_, coreStep_save_start op started, ?_⟩
    rw [saveStart_tree (htree ▸ hpresent)]
    refine ⟨htree, hpresent, hprog, .running op rfl err [] (T.pairsText []) rfl ?_ ?_⟩
    · simp [htree, saveBytes]
    · simpa [State.cbWords] using words
  | running op started err sent left text out words =>
    by_cases hroom : s.cbOut.length < Config.outDepth
    · cases left with
      | nil =>
        refine ⟨_, coreStep_save_push op started hroom out, htree, hpresent, hprog, ?_⟩
        refine .ended rfl rfl err (by rw [saveTransfer_end, ← htree]; rfl) ?_
        rw [saveTransfer_cbWords, words]
        simp [saveBytes, text]
      | cons c left =>
        refine ⟨_, coreStep_save_push op started hroom out, htree, hpresent, hprog, ?_⟩
        refine .running op started err (sent ++ [c]) left (by simp [text]) rfl ?_
        rw [saveTransfer_cbWords, words]
        simp
    · exact ⟨s, (coreStep_run op).trans (exec_save_hold started hroom), htree, hpresent, hprog,
        .running op started err sent left text out words⟩
  | ended op done err pairs words =>
    exact ⟨s, coreStep_idle op, htree, hpresent, hprog, .ended op done err pairs words⟩

/-- A source's or a sink's turn. -/
theorem Saving.streamStep {t : State} {a : Agent} (h : Saving T base s) (ha : a ≠ .core) (ha' : a ≠ .host)
    (ht : agentStep a s = .next t) : Saving T base t := by
  have hwords := streamStep_cbWords ha ha' ht
  obtain ⟨bi, bs, ci, cs, so, sg, co, cg, rfl, -⟩ := streamStep_cases ha ha' ht
  exact h.of_stream hwords

theorem Saving.agentStep (h : Saving T base s) (a : Agent) : ∃ t, agentStep a s = .next t ∧ Saving T base t := by
  cases a with
  | core => exact h.coreStep
  | host => exact ⟨s, by simp only [Machine.agentStep, hostStep, h.hostProg], h⟩
  | bitSource => exact ⟨_, rfl, h.streamStep (a := .bitSource) nofun nofun rfl⟩
  | cbSource => exact ⟨_, rfl, h.streamStep (a := .cbSource) nofun nofun rfl⟩
  | symSink => exact ⟨_, rfl, h.streamStep (a := .symSink) nofun nofun rfl⟩
  | cbSink => exact ⟨_, rfl, h.streamStep (a := .cbSink) nofun nofun rfl⟩

end

/-- Settles O31: every turn keeps `Saving`, which pins what is sent in each phase. -/
theorem saveDeliversExactlyTheText : Obligations.SaveDeliversExactlyTheText := by
  intro s sl hop hst herr htree hprog hsl
  have hstart : Saving s.tree s.cbWords s := ⟨rfl, htree, hprog, .accepted hop hst herr rfl⟩
  obtain ⟨t, hrun, hsaving⟩ :=
    runUnder_of_agentStep (fun _ h => h.of_stream rfl) (fun a _ h => h.agentStep a) hsl hstart
  refine ⟨t, hrun, hsaving.tree, ?_⟩
  change (∃ k, t.cbWords = s.cbWords ++ _) ∧ (t.op = .idle → t.cbWords = s.cbWords ++ _ ∧ _)
  cases hsaving.phase with
  | accepted op started err words => exact ⟨⟨0, by simpa using words⟩, by simp [op]⟩
  | running op started err sent left text out words =>
    exact ⟨⟨sent.length, by simpa [saveBytes, text] using words⟩, by simp [op]⟩
  | ended op done err pairs words =>
    exact ⟨⟨(saveBytes s.tree).length, by rw [List.take_length]; exact words⟩, fun _ => ⟨words, pairs, err, done⟩⟩

/-! ### SAVE ends while the CbSink pops (R162, 70_reset_and_hazards.md R281) -/

/-- A CbSink's turn leaves room in cb_out. -/
theorem cbSinkStep_room {s : State} (h : s.cbOut.length ≤ Config.outDepth) :
    ∃ co cg, cbSinkStep s = { s with cbOut := co, cbGot := cg } ∧ co.length < Config.outDepth := by
  unfold cbSinkStep
  split
  · next hs => exact ⟨s.cbOut, s.cbGot, rfl, by simpa [hs] using Config_outDepth_pos⟩
  · next x rest hs =>
    refine ⟨rest, _, rfl, ?_⟩
    rw [hs, List.length_cons] at h
    omega

/-- A round in which the Core goes to `t` goes on from `t` with room in cb_out. -/
theorem runUnder_round_cbSink {s t : State} (hcore : coreStep { s with sched := [] } = .next t)
    (hdepth : t.cbOut.length ≤ Config.outDepth) (xs : List Slot) :
    ∃ co cg, co.length < Config.outDepth ∧
      runUnder ([Agent.core, .cbSink].map Slot.agent ++ xs) s =
        runUnder xs { t with sched := [], cbOut := co, cbGot := cg } := by
  obtain ⟨co, cg, he, hroom⟩ := cbSinkStep_room (s := { t with sched := [] }) hdepth
  refine ⟨co, cg, hroom, ?_⟩
  rw [List.map_cons, List.cons_append, runUnder_agent]
  simp only [agentStep, hcore]
  rw [List.map_cons, List.cons_append, runUnder_agent, ← he]
  rfl

/-- A round of a running SAVE with room in cb_out pushes the next transfer and makes room again. -/
theorem runUnder_round_save {s : State} {x : CbXfer} {rest : List CbXfer} (hop : s.op = .run .save)
    (hst : s.started = true) (hroom : s.cbOut.length < Config.outDepth) (hout : s.out = x :: rest) (xs : List Slot) :
    ∃ co cg, co.length < Config.outDepth ∧
      runUnder ([Agent.core, .cbSink].map Slot.agent ++ xs) s =
        runUnder xs { saveTransfer x rest { s with sched := [] } with sched := [], cbOut := co, cbGot := cg } := by
  refine runUnder_round_cbSink (coreStep_save_push (s := { s with sched := [] }) hop hst hroom hout) ?_ xs
  unfold saveTransfer
  split <;> simpa using hroom

/-- A running SAVE with room in cb_out ends after a round for each transfer it has still to push. -/
theorem save_ends_of_rounds (left : List Byte) {s : State} (hop : s.op = .run .save) (hst : s.started = true)
    (hroom : s.cbOut.length < Config.outDepth) (hout : s.out = left.map CbXfer.byte ++ [.endOfStream]) :
    ∃ t, runUnder (rounds [.core, .cbSink] (left.length + 1)) s = .next t ∧ t.op = .idle ∧ t.done = true := by
  induction left generalizing s with
  | nil =>
    obtain ⟨co, cg, -, hround⟩ := runUnder_round_save hop hst hroom hout []
    exact ⟨_, hround, rfl, rfl⟩
  | cons c left ih =>
    obtain ⟨co, cg, hroom', hround⟩ :=
      runUnder_round_save hop hst hroom hout (rounds [.core, .cbSink] (left.length + 1))
    rw [List.length_cons, rounds, hround]
    exact ih hop hst hroom' rfl

/-- Settles O32: the start round makes room, and each further one pushes a transfer (`save_ends_of_rounds`). -/
theorem saveEndsWhileTheSinkPops : Obligations.SaveEndsWhileTheSinkPops := by
  intro s hop hst htree hdepth
  have hlen : (saveBytes s.tree).length = (s.tree.pairsText []).length + 1 := by simp [saveBytes]
  have hstart := coreStep_save_start (s := { s with sched := [] }) hop hst
  rw [saveStart_tree (s := { s with sched := [] }) htree] at hstart
  obtain ⟨co, cg, hroom, hround⟩ :=
    runUnder_round_cbSink hstart hdepth (rounds [.core, .cbSink] (saveBytes s.tree).length)
  rw [Nat.add_comm, rounds, hround, hlen]
  exact save_ends_of_rounds (s.tree.pairsText []) hop rfl hroom rfl

end Sys2Proof.Machine
end

section
/-! SUPPORT. BUILD's tree is optimal (spec 41_tree_builder.md R157): the lengths of codes none of which begins another
meet Kraft's inequality, and the greedy merge costs no more than any lengths that meet it. -/

namespace Sys2Proof.Machine

open InformationTheory

/-! ### Kraft's inequality -/

/-- Kraft's sum of a list of code lengths. -/
noncomputable def kraftSum (ls : List Nat) : ℝ := (ls.map (fun l => (1 / 2 : ℝ) ^ l)).sum

@[simp] theorem kraftSum_cons (l : Nat) (ls : List Nat) : kraftSum (l :: ls) = (1 / 2 : ℝ) ^ l + kraftSum ls := rfl

theorem kraftSum_perm {ls ls' : List Nat} (h : ls.Perm ls') : kraftSum ls = kraftSum ls' := (h.map _).sum_eq

theorem uniquelyDecodable_of_prefixFree {S : Set (List Bit)} (hnil : [] ∉ S)
    (h : ∀ x ∈ S, ∀ y ∈ S, x <+: y → x = y) : UniquelyDecodable S := by
  intro ws
  induction ws with
  | nil =>
    intro vs _ hv he
    cases vs with
    | nil => rfl
    | cons v vs =>
      obtain ⟨rfl, -⟩ := List.append_eq_nil_iff.1 he.symm
      exact absurd (hv [] (List.mem_cons_self ..)) hnil
  | cons w ws ih =>
    intro vs hw hv he
    obtain ⟨hw, hws⟩ := List.forall_mem_cons.1 hw
    cases vs with
    | nil =>
      obtain ⟨rfl, -⟩ := List.append_eq_nil_iff.1 he
      exact absurd hw hnil
    | cons v vs =>
      obtain ⟨hv, hvs⟩ := List.forall_mem_cons.1 hv
      have hwv : w = v := by
        rcases List.prefix_or_prefix_of_prefix ⟨ws.flatten, he⟩ (List.prefix_append v vs.flatten) with hp | hp
        · exact h w hw v hv hp
        · exact (h v hv w hw hp).symm
      subst hwv
      rw [ih vs hws hvs (List.append_cancel_left he)]

/-- The lengths of codes none of which begins another meet Kraft's inequality. -/
theorem kraftSum_le_one {cs : List (List Bit)} (hnd : cs.Nodup) (h : ∀ x ∈ cs, ∀ y ∈ cs, x <+: y → x = y) :
    kraftSum (cs.map List.length) ≤ 1 := by
  by_cases hnil : [] ∈ cs
  · have hall : ∀ x ∈ cs, x = [] := fun x hx => (h [] hnil x hx List.nil_prefix).symm
    have : cs.length ≤ 1 := by
      rw [List.eq_replicate_of_mem hall] at hnd
      exact List.nodup_replicate.1 hnd
    match cs, this with
    | [], _ => simp [kraftSum]
    | [x], _ => simp [kraftSum, hall x]
  · have hud : UniquelyDecodable (cs.toFinset : Set (List Bit)) :=
      uniquelyDecodable_of_prefixFree (by simpa using hnil) (by simpa using h)
    have hk := kraft_mcmillan_inequality hud
    rw [List.sum_toFinset _ hnd] at hk
    simpa [kraftSum, Function.comp_def] using hk

/-! ### The two lightest entries can have the two longest codes, of the same length -/

/-- Entries of the queue, each with the length of its code. -/
abbrev Lengths := List (QEntry × Nat)

/-- What the codes down to the entries cost. -/
def Lengths.cost (ps : Lengths) : Nat := (ps.map (fun p => p.1.w * p.2)).sum

@[simp] theorem Lengths.cost_cons (p : QEntry × Nat) (ps : Lengths) :
    Lengths.cost (p :: ps) = p.1.w * p.2 + Lengths.cost ps := rfl

/-- An entry not heavier than the others can have the longest of the codes: exchanging two codes so costs no more. -/
theorem Lengths.exists_longest (x : QEntry) (l : Nat) (ps : Lengths) (hx : ∀ p ∈ ps, x.w ≤ p.1.w) :
    ∃ (l' : Nat) (ps' : Lengths), ps'.map Prod.fst = ps.map Prod.fst ∧
      (l' :: ps'.map Prod.snd).Perm (l :: ps.map Prod.snd) ∧ (∀ p ∈ ps', p.2 ≤ l') ∧
      Lengths.cost ((x, l') :: ps') ≤ Lengths.cost ((x, l) :: ps) := by
  induction ps with
  | nil => exact ⟨l, [], rfl, .refl _, by simp, Nat.le_refl _⟩
  | cons p ps ih =>
    obtain ⟨y, k⟩ := p
    simp only [List.forall_mem_cons] at hx
    obtain ⟨hy, hx⟩ := hx
    obtain ⟨l', ps', hfst, hsnd, hlong, hcost⟩ := ih hx
    simp only [cost_cons] at hcost ⊢
    by_cases hk : k ≤ l'
    · refine ⟨l', (y, k) :: ps', by simp [hfst], ?_, by simpa [hk] using hlong, ?_⟩
      · exact (List.Perm.swap _ _ _).trans ((hsnd.cons k).trans (List.Perm.swap _ _ _))
      · simp only [cost_cons]; omega
    · refine ⟨k, (y, l') :: ps', by simp [hfst], ?_, ?_, ?_⟩
      · exact (hsnd.cons k).trans (List.Perm.swap _ _ _)
      · simp only [List.forall_mem_cons]
        exact ⟨by omega, fun q hq => (hlong q hq).trans (by omega)⟩
      · have hswap : x.w * k + y.w * l' ≤ x.w * l' + y.w * k := by
          obtain ⟨d, rfl⟩ := Nat.exists_eq_add_of_le (Nat.le_of_not_le hk)
          nlinarith
        simp only [cost_cons]
        omega

theorem half_pow_eq (k d : Nat) : (1 / 2 : ℝ) ^ k = (2 ^ d : Nat) * (1 / 2) ^ (k + d) := by
  push_cast
  rw [pow_add, mul_left_comm, ← mul_pow]
  norm_num

/-- Kraft's sum of lengths up to `l` is a multiple of the term of `l`. -/
theorem kraftSum_eq_mul {l : Nat} {ls : List Nat} (h : ∀ k ∈ ls, k ≤ l) :
    ∃ n : Nat, kraftSum ls = n * (1 / 2) ^ l := by
  induction ls with
  | nil => exact ⟨0, by simp [kraftSum]⟩
  | cons k ls ih =>
    obtain ⟨hk, hls⟩ := List.forall_mem_cons.1 h
    obtain ⟨n, hn⟩ := ih hls
    obtain ⟨d, rfl⟩ := Nat.exists_eq_add_of_le hk
    exact ⟨2 ^ d + n, by rw [kraftSum_cons, hn, half_pow_eq k d, Nat.cast_add, add_mul]⟩

/-- A code can be cut to the length of the longest other: the sum of the others is a multiple of that one's term, so
with a further such term it does not pass 1. -/
theorem kraft_cut {l l' : Nat} {ls : List Nat} (hls : ∀ k ∈ ls, k ≤ l) (h : kraftSum (l' :: l :: ls) ≤ 1) :
    kraftSum (l :: l :: ls) ≤ 1 := by
  obtain ⟨n, hn⟩ := kraftSum_eq_mul (l := l) (ls := l :: ls) (by simpa using hls)
  have hpos : ∀ k : Nat, (0 : ℝ) < (1 / 2) ^ k := fun k => by positivity
  have hone : (1 : ℝ) = (2 ^ l : Nat) * (1 / 2) ^ l := by simpa only [pow_zero, Nat.zero_add] using half_pow_eq 0 l
  rw [kraftSum_cons, hn] at h ⊢
  have hlt : n < 2 ^ l := by
    have : (n : ℝ) * (1 / 2) ^ l < (2 ^ l : Nat) * (1 / 2) ^ l := by linarith [hpos l']
    exact_mod_cast lt_of_mul_lt_mul_right this (hpos l).le
  have hle : ((n + 1 : Nat) : ℝ) * (1 / 2) ^ l ≤ (2 ^ l : Nat) * (1 / 2) ^ l :=
    mul_le_mul_of_nonneg_right (by exact_mod_cast hlt) (hpos l).le
  rw [Nat.cast_succ, add_mul] at hle
  linarith

/-- Two codes of the same length give way to one that is a bit shorter. -/
theorem kraft_merge {l : Nat} {ls : List Nat} (h : kraftSum (l :: l :: ls) ≤ 1) :
    ∃ k, l = k + 1 ∧ kraftSum (k :: ls) ≤ 1 := by
  cases l with
  | zero =>
    have hnonneg : 0 ≤ kraftSum ls := List.sum_nonneg (by simp)
    simp only [kraftSum_cons, pow_zero] at h
    linarith
  | succ k =>
    refine ⟨k, rfl, ?_⟩
    simp only [kraftSum_cons, pow_succ] at h ⊢
    linarith

/-! ### The greedy merge costs no more than any lengths -/

/-- What the codes inside the entries' trees cost. -/
def treesCost (m : Memory) (q : List QEntry) : Nat := (q.map (fun x => x.t.costIn m)).sum

theorem treesCost_perm {m : Memory} {q q' : List QEntry} (h : q.Perm q') : treesCost m q = treesCost m q' :=
  (h.map _).sum_eq

/-- The two lightest entries' codes can be replaced by one code for both that is a bit shorter than each of them. -/
theorem Lengths.exists_merge {a b : QEntry} {la lb : Nat} {ps : Lengths} (hab : a.w ≤ b.w)
    (hb : ∀ p ∈ ps, b.w ≤ p.1.w) (h : kraftSum (la :: lb :: ps.map Prod.snd) ≤ 1) :
    ∃ (k : Nat) (ps' : Lengths), ps'.map Prod.fst = ps.map Prod.fst ∧ kraftSum (k :: ps'.map Prod.snd) ≤ 1 ∧
      (a.w + b.w) * (k + 1) + Lengths.cost ps' ≤ Lengths.cost ((a, la) :: (b, lb) :: ps) := by
  have ha : ∀ p ∈ (b, lb) :: ps, a.w ≤ p.1.w :=
    List.forall_mem_cons.2 ⟨hab, fun p hp => hab.trans (hb p hp)⟩
  obtain ⟨l, ps₁, hmap, hsnd₁, hlong₁, hcost₁⟩ := exists_longest a la ((b, lb) :: ps) ha
  obtain ⟨⟨b', l₁⟩, ps₁, rfl, hb', hfst₁⟩ := List.map_eq_cons_iff.1 hmap
  obtain rfl : b = b' := hb'.symm
  have hb₁ : ∀ p ∈ ps₁, b.w ≤ p.1.w := by
    rw [← List.forall_mem_map (f := Prod.fst) (P := (b.w ≤ QEntry.w ·)), hfst₁]
    exact List.forall_mem_map.2 hb
  obtain ⟨l₂, ps₂, hfst₂, hsnd₂, hlong₂, hcost₂⟩ := exists_longest b l₁ ps₁ hb₁
  have hl : l₂ ≤ l := by
    rw [← List.forall_mem_map (f := Prod.snd) (P := (· ≤ l))] at hlong₁
    exact hlong₁ l₂ (hsnd₂.mem_iff.1 (List.mem_cons_self ..))
  have hkraft : kraftSum (l :: l₂ :: ps₂.map Prod.snd) ≤ 1 := by
    rw [kraftSum_perm ((hsnd₂.cons l).trans hsnd₁)]
    exact h
  obtain ⟨k, rfl, hk⟩ := kraft_merge (kraft_cut (List.forall_mem_map.2 hlong₂) hkraft)
  refine ⟨k, ps₂, hfst₂.trans hfst₁, hk, ?_⟩
  have hal : a.w * (k + 1) ≤ a.w * l := Nat.mul_le_mul_left _ hl
  simp only [cost_cons, Nat.add_mul] at hcost₁ hcost₂ ⊢
  omega

/-- The length of an entry's code, and the other lengths. -/
theorem Lengths.exists_of_perm_cons {ps : Lengths} {x : QEntry} {q : List QEntry}
    (h : (ps.map Prod.fst).Perm (x :: q)) : ∃ l ps', ps.Perm ((x, l) :: ps') ∧ (ps'.map Prod.fst).Perm q := by
  obtain ⟨⟨y, l⟩, hp, rfl⟩ := List.mem_map.1 (h.mem_iff.2 (List.mem_cons_self ..))
  have hperm := List.perm_cons_erase hp
  exact ⟨l, ps.erase (y, l), hperm, ((hperm.map Prod.fst).symm.trans h).cons_inv⟩

theorem GreedyMerge.costIn_le {m : Memory} {next : Nat} {q : List QEntry} {r : QEntry} (h : GreedyMerge next q r)
    (hq : ∀ x ∈ q, x.w = x.t.weightIn m) {ps : Lengths} (hps : (ps.map Prod.fst).Perm q)
    (hkraft : kraftSum (ps.map Prod.snd) ≤ 1) : r.t.costIn m ≤ treesCost m q + ps.cost := by
  induction h generalizing ps with
  | done next r => simp [treesCost]
  | merge next q rest a b r split first second go ih =>
    obtain ⟨la, ps1, hp1, hps1⟩ := Lengths.exists_of_perm_cons (hps.trans split)
    obtain ⟨lb, ps2, hp2, hps2⟩ := Lengths.exists_of_perm_cons hps1
    have hperm : ps.Perm ((a, la) :: (b, lb) :: ps2) := hp1.trans (hp2.cons _)
    have hcost : ps.cost = Lengths.cost ((a, la) :: (b, lb) :: ps2) := (hperm.map _).sum_eq
    rw [kraftSum_perm (hperm.map Prod.snd)] at hkraft
    have hb : ∀ p ∈ ps2, b.w ≤ p.1.w := fun p hp => by
      have := second p.1 (hps2.mem_iff.1 (List.mem_map_of_mem hp))
      omega
    have hab : a.w ≤ b.w := by
      have := first b (List.mem_cons_self ..)
      omega
    obtain ⟨k, ps', hfst, hk, hle⟩ := Lengths.exists_merge hab hb hkraft
    have hq' : ∀ x ∈ a :: b :: rest, x.w = x.t.weightIn m := fun x hx => hq x (split.mem_iff.2 hx)
    simp only [List.forall_mem_cons] at hq'
    obtain ⟨haw, hbw, hrest⟩ := hq'
    have hcut := ih (ps := ({ w := a.w + b.w, seq := next, t := .node a.t b.t }, k) :: ps')
      (List.forall_mem_cons.2 ⟨by simp [haw, hbw], hrest⟩) (by simpa [hfst] using hps2) hk
    rw [treesCost_perm split, hcost]
    simp only [treesCost, List.map_cons, List.sum_cons, TreeSlot.costIn_node, Lengths.cost_cons, ← haw, ← hbw,
      Nat.mul_succ] at hcut hle ⊢
    omega

/-! ### BUILD's tree -/

/-- The leaves of the queue, each with the length of its symbol's code. -/
def codeLengths (m : Memory) (code : Nat → List Bit) : Lengths :=
  m.present.zipIdx.map (fun (k, i) => ({ w := freqOf m k, seq := i, t := .leaf (BitVec.ofNat 8 k) }, (code k).length))

section

variable (m : Memory) (code : Nat → List Bit)

theorem codeLengths_entries : (codeLengths m code).map Prod.fst = leafQueue m := List.map_map ..

theorem codeLengths_lengths : (codeLengths m code).map Prod.snd = (m.present.map code).map List.length := by
  rw [codeLengths, List.map_map, List.map_map]
  exact map_zipIdx_fst (fun k => (code k).length) m.present

theorem codeLengths_cost :
    (codeLengths m code).cost = (m.present.map (fun k => freqOf m k * (code k).length)).sum := by
  rw [Lengths.cost, codeLengths, List.map_map]
  exact congrArg List.sum (map_zipIdx_fst (fun k => freqOf m k * (code k).length) m.present)

theorem treesCost_leafQueue : treesCost m (leafQueue m) = 0 := by
  refine List.sum_eq_zero fun c hc => ?_
  obtain ⟨x, hx, rfl⟩ := List.mem_map.1 hc
  obtain ⟨k, -, -, ht⟩ := mem_leafQueue hx
  rw [ht, TreeSlot.costIn_leaf]

end

/-- Settles O27: the lengths of the given codes meet Kraft's inequality (`kraftSum_le_one`), and the greedy merge of the
leaves costs no more than they do (`GreedyMerge.costIn_le`). -/
theorem buildTreeIsOptimal : Obligations.BuildTreeIsOptimal := by
  intro m r hr code hcode
  have hnd : (m.present.map code).Nodup :=
    m.present_nodup.map_on fun j hj k hk he => hcode j hj k hk (he ▸ List.prefix_rfl)
  have hfree : ∀ x ∈ m.present.map code, ∀ y ∈ m.present.map code, x <+: y → x = y := by
    simp only [List.forall_mem_map]
    exact fun j hj k hk hp => congrArg code (hcode j hj k hk hp)
  have hcost := (greedyMerge_of_buildRoot hr).costIn_le (fun _ hx => (leafQueue_weighs hx).1)
    (.of_eq (codeLengths_entries m code)) (by rw [codeLengths_lengths]; exact kraftSum_le_one hnd hfree)
  rwa [treesCost_leafQueue, Nat.zero_add, codeLengths_cost] at hcost

end Sys2Proof.Machine
end

section
/-! SUPPORT. LOAD of the text SAVE emits (spec 41_tree_builder.md R165; 42_decoder.md R190-R198): a byte that LOAD can
read it reads, so the pairs of a tree go in one after the other until the tree is back. -/

namespace Sys2Proof.Machine

/-! ### Parts of a tree -/

/-- `T.Within U`: `T` is `U` with some subtrees missing. -/
inductive TreeSlot.Within : TreeSlot → TreeSlot → Prop where
  | absent (U : TreeSlot) : Within .absent U
  | leaf (v : Sym) : Within (.leaf v) (.leaf v)
  | node {l r l' r' : TreeSlot} (left : Within l l') (right : Within r r') : Within (.node l r) (.node l' r')

namespace TreeSlot.Within

variable {T U : TreeSlot}

theorem size_le (h : T.Within U) : T.size ≤ U.size := by
  induction h with
  | absent _ => exact Nat.zero_le _
  | leaf _ => exact Nat.le_refl _
  | node _ _ ihl ihr => simp only [size]; omega

theorem leafCount_le (h : T.Within U) : T.leafCount ≤ U.leafCount := by
  induction h with
  | absent _ => exact Nat.zero_le _
  | leaf _ => exact Nat.le_refl _
  | node _ _ ihl ihr => simp only [leafCount]; omega

/-- A part with all the leaves of a proper tree is the whole tree. -/
theorem eq_of_leafCount (h : T.Within U) (hU : U.proper) (hc : T.leafCount = U.leafCount) : T = U := by
  induction h with
  | absent U =>
    by_contra hne
    exact (leafCount_pos hU (Ne.symm hne)).ne hc
  | leaf _ => rfl
  | node hl hr ihl ihr =>
    obtain ⟨-, hpl, hpr⟩ := hU
    have := hl.leafCount_le
    have := hr.leafCount_le
    simp only [leafCount] at hc
    rw [ihl hpl (by omega), ihr hpr (by omega)]

/-- A leaf of `U` that its part `T` misses can be inserted into `T` if the tree store has room for `U`. -/
theorem exists_inserts {v : Sym} {code : List Bit} {n : Nat} (h : T.Within U) (hU : (v, code) ∈ U.codes)
    (hT : (v, code) ∉ T.codes) (hroom : n + U.size ≤ T.size + Config.nodeCap) :
    ∃ T' n', Inserts v code T n T' n' ∧ T'.Within U := by
  rw [mem_codes] at hU hT
  induction code generalizing T U n with
  | nil =>
    obtain rfl : U = .leaf v := by simpa using hU
    cases h with
    | leaf _ => simp at hT
    | absent _ => exact ⟨_, _, .here (by simpa [size] using hroom), .leaf v⟩
  | cons b bs ih =>
    cases U with
    | absent => simp at hU
    | leaf _ => simp at hU
    | node l r =>
      cases h with
      | absent _ =>
        simp only [size, Nat.zero_add] at hroom
        cases b
        · obtain ⟨u, n', hins, hu⟩ := ih (n := n + 1) (absent l) hU (by simp) (by simp only [size]; omega)
          exact ⟨_, _, .grow (.left hins), hu.node (absent r)⟩
        · obtain ⟨u, n', hins, hu⟩ := ih (n := n + 1) (absent r) hU (by simp) (by simp only [size]; omega)
          exact ⟨_, _, .grow (.right hins), (absent l).node hu⟩
      | node hl hr =>
        have := hl.size_le
        have := hr.size_le
        simp only [size] at hroom
        cases b
        · obtain ⟨u, n', hins, hu⟩ := ih (n := n) hl hU hT (by omega)
          exact ⟨_, _, .left hins, hu.node hr⟩
        · obtain ⟨u, n', hins, hu⟩ := ih (n := n) hr hU hT (by omega)
          exact ⟨_, _, .right hins, hl.node hu⟩

end TreeSlot.Within

/-! ### A byte that LOAD can read it reads -/

theorem alloc_of_room {n : Nat} (h : n + 1 ≤ Config.nodeCap) : alloc n = .ok (n + 1) := alloc_eq_ok.2 ⟨rfl, h⟩

/-- A placeholder is made and the walk goes on below it. -/
theorem insertCode_grow {v : Sym} {b : Bit} {bs : List Bit} {n : Nat} (h : n + 1 ≤ Config.nodeCap) :
    insertCode v (b :: bs) .absent n = insertCode v (b :: bs) (.node .absent .absent) (n + 1) := by
  cases b <;> simp only [insertCode, alloc_of_room h] <;> rfl

theorem Inserts.nodes_lt {v : Sym} {code : List Bit} {T T' : TreeSlot} {n n' : Nat} (h : Inserts v code T n T' n') :
    n < n' := by
  induction h with
  | here _ => exact Nat.lt_succ_self _
  | grow _ ih => omega
  | left _ ih => exact ih
  | right _ ih => exact ih

/-- `insertCode` finds every walk (R194). -/
theorem Inserts.insertCode_eq {v : Sym} {code : List Bit} {T T' : TreeSlot} {n n' : Nat}
    (h : Inserts v code T n T' n') : insertCode v code T n = .ok (T', n') := by
  induction h with
  | here room => simp only [insertCode, alloc_of_room room]
  | grow go ih => rw [insertCode_grow (go.nodes_lt.le.trans go.nodes_le), ih]
  | left _ ih => simp only [insertCode, ih]
  | right _ ih => simp only [insertCode, ih]

/-- Reading the byte sets W_DUPSYM: it ends a pair whose symbol has been seen before (R197). -/
def LoadState.warns (ld : LoadState) (c : Byte) : Bool := ld.phase == .code && c == byteLF && ld.seen.contains ld.acc

theorem digitByte_toNat {d : Nat} (hd : d < 10) : (digitByte d).toNat = 0x30 + d := by
  rw [digitByte, BitVec.toNat_ofNat]
  omega

theorem LoadState.ReadsByte.loadTransfer_eq {s : State} {c : Byte} {ld : LoadState} (h : s.ld.ReadsByte c ld) :
    loadTransfer (.byte c) s = { s with wDupsym := s.wDupsym || s.ld.warns c, ld := ld } := by
  cases h with
  | @digit d phase hd small =>
    have hrange : 0x30#8 ≤ digitByte d ∧ digitByte d ≤ 0x39#8 := by
      simp only [BitVec.le_def, digitByte_toNat hd, BitVec.toNat_ofNat]
      omega
    have hvalue : (digitByte d).toNat - 0x30 = d := by rw [digitByte_toNat hd]; omega
    simp only [loadTransfer, phase, symStep, if_pos hrange, hvalue, Config.nsym, if_pos small, warns]
    simp
  | endSymbol phase hasDigit =>
    simp [loadTransfer, phase, symStep, hasDigit, warns, byteLF]
  | bit b phase room =>
    have hlf : bitChar b ≠ byteLF := by cases b <;> decide
    have hbit : bitChar b = 0x30#8 ∨ bitChar b = 0x31#8 := by cases b <;> decide
    have hvalue : (bitChar b == 0x31#8) = b := by cases b <;> rfl
    simp [loadTransfer, phase, codeStep, if_pos hbit, Config.maxCodeLen, room.ne, hvalue, warns, hlf]
  | endCode phase code ins =>
    simp [loadTransfer, phase, codeStep, code, loadPair, ins.insertCode_eq, warns, byteLF, List.insert]

/-! ### Reading a text -/

/-- The bytes of `text` are read one after the other, which takes the parser's state from `ld` to `ld'` and W_DUPSYM
from `w` to `w'`. -/
inductive LoadState.ReadsText : Bool → LoadState → List Byte → Bool → LoadState → Prop where
  | nil {w ld} : ReadsText w ld [] w ld
  | cons {w w' ld ld₁ ld' c cs} (head : ld.ReadsByte c ld₁) (tail : ReadsText (w || ld.warns c) ld₁ cs w' ld') :
      ReadsText w ld (c :: cs) w' ld'

namespace LoadState

theorem ReadsText.append {w w₁ w' : Bool} {ld ld₁ ld' : LoadState} {text more : List Byte}
    (h : ReadsText w ld text w₁ ld₁) (h' : ReadsText w₁ ld₁ more w' ld') : ReadsText w ld (text ++ more) w' ld' := by
  induction h with
  | nil => exact h'
  | cons head _ ih => exact .cons head (ih h')

/-- Only the LF of a code line warns. -/
theorem warns_sym {ld : LoadState} (h : ld.phase = .sym) (c : Byte) : ld.warns c = false := by simp [warns, h]

theorem warns_bitChar (ld : LoadState) (b : Bit) : ld.warns (bitChar b) = false := by
  cases b <;> simp [warns, bitChar, byteLF]

theorem ReadsText.cons_quiet {w w' : Bool} {ld ld₁ ld' : LoadState} {c : Byte} {cs : List Byte}
    (head : ld.ReadsByte c ld₁) (hq : ld.warns c = false) (tail : ReadsText w ld₁ cs w' ld') :
    ReadsText w ld (c :: cs) w' ld' :=
  .cons head (by rwa [hq, Bool.or_false])

theorem le_foldl_digits (ds : List Nat) (a : Nat) : a ≤ ds.foldl (fun a d => a * 10 + d) a := by
  induction ds generalizing a with
  | nil => exact Nat.le_refl _
  | cons d ds ih => exact le_trans (by omega) (ih (a * 10 + d))

/-- The digits of a symbol line (42_decoder.md R191). -/
theorem reads_digits {w : Bool} {ld : LoadState} (hph : ld.phase = .sym) {ds : List Nat} (hds : ∀ d ∈ ds, d < 10)
    (hsmall : ds.foldl (fun a d => a * 10 + d) ld.acc.toNat < 256) :
    ReadsText w ld (ds.map digitByte) w
      { ld with
        acc := BitVec.ofNat 8 (ds.foldl (fun a d => a * 10 + d) ld.acc.toNat)
        hasDigit := ld.hasDigit || !ds.isEmpty } := by
  induction ds generalizing ld with
  | nil => simpa using ReadsText.nil
  | cons d ds ih =>
    obtain ⟨hd, hds⟩ := List.forall_mem_cons.1 hds
    have hnext : ld.acc.toNat * 10 + d < 256 := (le_foldl_digits ds _).trans_lt hsmall
    have hacc : (BitVec.ofNat 8 (ld.acc.toNat * 10 + d)).toNat = ld.acc.toNat * 10 + d := Nat.mod_eq_of_lt hnext
    refine .cons_quiet (.digit hph hd hnext) (warns_sym hph _) ?_
    simpa [hacc] using
      ih (ld := { ld with acc := BitVec.ofNat 8 (ld.acc.toNat * 10 + d), hasDigit := true }) hph hds (by rwa [hacc])

/-- The bits of a code line (42_decoder.md R192). -/
theorem reads_bits {w : Bool} {ld : LoadState} (hph : ld.phase = .code) {bs : List Bit}
    (hlen : ld.code.length + bs.length ≤ 255) :
    ReadsText w ld (bs.map bitChar) w { ld with code := ld.code ++ bs } := by
  induction bs generalizing ld with
  | nil => simpa using ReadsText.nil
  | cons b bs ih =>
    rw [List.length_cons] at hlen
    refine .cons_quiet (.bit b hph (by omega)) (warns_bitChar ld b) ?_
    simpa using ih (ld := { ld with code := ld.code ++ [b] }) hph (by simp; omega)

/-- The parser at the begin of a symbol line. -/
structure AtPair (ld : LoadState) : Prop where
  phase    : ld.phase = .sym
  acc      : ld.acc = 0#8
  hasDigit : ld.hasDigit = false

/-- The parser's state at the begin of the code line of `v`. -/
def atCode (ld : LoadState) (v : Sym) : LoadState :=
  { ld with acc := v, hasDigit := true, phase := .code, code := [], line := ld.line + 1#32 }

/-- A symbol line, with its LF. -/
theorem AtPair.reads_symbol {w : Bool} {ld : LoadState} (h : ld.AtPair) (v : Sym) :
    ReadsText w ld (decText v ++ [byteLF]) w (ld.atCode v) := by
  obtain ⟨ds, hne, hds, htext, hvalue, -⟩ := decText_digits v
  have hacc : ds.foldl (fun a d => a * 10 + d) ld.acc.toNat = v.toNat := by rw [h.acc]; exact hvalue
  have hdig : (ld.hasDigit || !ds.isEmpty) = true := by simp [hne]
  have hread := reads_digits (w := w) h.phase hds (hacc ▸ v.isLt)
  rw [hacc, hdig, BitVec.ofNat_toNat, BitVec.setWidth_eq] at hread
  rw [htext]
  exact hread.append (.cons_quiet (.endSymbol h.phase rfl) (warns_sym (by exact h.phase) _) .nil)

/-- A pair whose insertion succeeds (42_decoder.md R194, R197). -/
theorem AtPair.reads_pair {w : Bool} {ld : LoadState} (h : ld.AtPair) {v : Sym} {code : List Bit} {T : TreeSlot}
    {n : Nat} (hcode : code ≠ []) (hlen : code.length ≤ 255) (hins : Inserts v code ld.T ld.nodes T n) :
    ReadsText w ld (pairsOf [(v, code)]) (w || ld.seen.contains v)
      { ld with
        code := code, T := T, nodes := n, seen := ld.seen.insert v, pairs := ld.pairs + 1,
        line := ld.line + 1#32 + 1#32, phase := .sym, acc := 0#8, hasDigit := false } := by
  have hbits := (h.reads_symbol (w := w) v).append (reads_bits rfl (bs := code) (by simpa [atCode] using hlen))
  have hpair := hbits.append (.cons (.endCode rfl hcode hins) .nil)
  simpa [pairsOf, warns, atCode] using hpair

end LoadState

/-! ### Reading the codebook of a tree -/

namespace LoadState

/-- The parser stands between two pairs and has read the pairs `ps` of the tree `U`. -/
structure HasPairs (U : TreeSlot) (ps : List (Sym × List Bit)) (ld : LoadState) : Prop extends ld.AtPair where
  within : ld.T.Within U
  nodes  : ld.nodes = ld.T.size
  codes  : ld.T.codes.Perm ps
  pairs  : ld.pairs = ps.length
  seen   : ∀ v ∈ ld.seen, v ∈ ps.map Prod.fst

theorem init_hasPairs (U : TreeSlot) : init.HasPairs U [] where
  phase := rfl
  acc := rfl
  hasDigit := rfl
  within := .absent U
  nodes := rfl
  codes := .refl _
  pairs := rfl
  seen := nofun

/-- The next pair of the tree goes in, without a warning. -/
theorem HasPairs.reads_pair {U : TreeSlot} {ps : List (Sym × List Bit)} {c : Sym × List Bit} {w : Bool} {ld : LoadState}
    (h : ld.HasPairs U ps) (hU : U.Fits) (hc : c ∈ U.codes) (hnew : c.1 ∉ ps.map Prod.fst) (hne : c.2 ≠ []) :
    ∃ ld', ReadsText w ld (pairsOf [c]) w ld' ∧ ld'.HasPairs U (ps ++ [c]) := by
  obtain ⟨v, code⟩ := c
  have hfresh : (v, code) ∉ ld.T.codes := fun hm => hnew (List.mem_map_of_mem (h.codes.mem_iff.1 hm))
  have hlen : code.length ≤ 255 := (TreeSlot.code_length_le_depth hc).trans hU.depth
  have hroom : ld.nodes + U.size ≤ ld.T.size + Config.nodeCap := by
    rw [h.nodes]
    exact Nat.add_le_add_left hU.size _
  obtain ⟨T, n, hins, hT⟩ := h.within.exists_inserts hc hfresh hroom
  have hseen : ld.seen.contains v = false := by simpa using fun hv => hnew (h.seen v hv)
  have hread := h.toAtPair.reads_pair (w := w) hne hlen hins
  rw [hseen, Bool.or_false] at hread
  refine ⟨_, hread, {
    phase := rfl, acc := rfl, hasDigit := rfl, within := hT, nodes := ?nodes, codes := ?codes,
    pairs := by simp [h.pairs], seen := ?seen }⟩
  case nodes =>
    have := hins.size_eq
    have := h.nodes
    dsimp only
    omega
  case codes => exact hins.codes_perm.trans ((h.codes.cons _).trans (List.perm_append_singleton _ _).symm)
  case seen =>
    intro x hx
    rw [List.map_append, List.mem_append]
    rcases List.mem_insert_iff.1 hx with rfl | hx
    · exact .inr (List.mem_singleton_self x)
    · exact .inl (h.seen x hx)

/-- All the pairs of the tree that are still missing go in. -/
theorem HasPairs.reads_pairs {U : TreeSlot} (hU : U.Fits) (hnd : (U.codes.map Prod.fst).Nodup)
    (hne : ∀ c ∈ U.codes, c.2 ≠ []) {w : Bool} (todo : List (Sym × List Bit)) {ps : List (Sym × List Bit)}
    {ld : LoadState} (h : ld.HasPairs U ps) (hall : U.codes = ps ++ todo) :
    ∃ ld', ReadsText w ld (pairsOf todo) w ld' ∧ ld'.HasPairs U U.codes := by
  induction todo generalizing ps ld with
  | nil =>
    rw [List.append_nil] at hall
    exact ⟨ld, .nil, hall ▸ h⟩
  | cons c todo ih =>
    have hc : c ∈ U.codes := by simp [hall]
    have hnew : c.1 ∉ ps.map Prod.fst := by
      rw [hall, List.map_append, List.map_cons] at hnd
      exact fun hm => (List.nodup_append.1 hnd).2.2 _ hm _ (List.mem_cons_self ..) rfl
    obtain ⟨ld₁, hread, h₁⟩ := h.reads_pair (w := w) hU hc hnew (hne c hc)
    obtain ⟨ld', hrest, h'⟩ := ih h₁ (by rw [hall, List.append_cons])
    refine ⟨ld', ?_, h'⟩
    rw [← List.singleton_append, pairsOf_append]
    exact hread.append hrest

/-- Between two pairs all of whose tree is read, the parser's tree is that tree. -/
theorem HasPairs.tree_eq {U : TreeSlot} {ld : LoadState} (h : ld.HasPairs U U.codes) (hU : U.proper) : ld.T = U := by
  refine h.within.eq_of_leafCount hU ?_
  rw [← TreeSlot.length_codes, ← TreeSlot.length_codes]
  exact h.codes.length_eq

end LoadState

/-! ### Runs -/

theorem rounds_add (as : List Agent) (j k : Nat) : rounds as (j + k) = rounds as j ++ rounds as k := by
  induction j with
  | zero => rw [Nat.zero_add]; rfl
  | succ j ih => rw [Nat.succ_add, rounds, rounds, ih, List.append_assoc]

/-- A running LOAD reads a text it can read, one byte a round, and reads on from the state it is then in. -/
theorem runUnder_rounds_readsText {s : State} {w : Bool} {ld : LoadState} {text : List Byte} {rest : List CbXfer}
    (h : s.ld.ReadsText s.wDupsym text w ld) (hop : s.op = .run .load) (hst : s.started = true)
    (hgo : s.streams.cbToGo = text.map CbXfer.byte ++ rest) (xs : List Slot) :
    ∃ sched q src, q ++ src.map decodeCbXfer = rest ∧
      runUnder (rounds [.cbSource, .core] text.length ++ xs) s =
        runUnder xs (State.withCbInput { s with wDupsym := w, ld := ld } sched q src) := by
  generalize hw : s.wDupsym = w₀ at h
  generalize hld : s.ld = ld₀ at h
  induction h generalizing s with
  | nil =>
    subst hw hld
    exact ⟨s.sched, s.cbIn, s.cbSrc, hgo, rfl⟩
  | @cons w₁ w ld₁ ld₂ ld c cs head tail ih =>
    subst hw hld
    obtain ⟨q, src, hq, hround⟩ := runUnder_round_load hop hst hgo (rounds [.cbSource, .core] cs.length ++ xs)
    rw [head.loadTransfer_eq (s := s.withCbInput [] q src)] at hround
    obtain ⟨sched, q', src', hq', hrun⟩ := ih (s := State.withCbInput
      { s with wDupsym := s.wDupsym || s.ld.warns c, ld := ld₂ } [] q src) hop hst hq rfl rfl
    refine ⟨sched, q', src', hq', ?_⟩
    rw [List.length_cons, rounds, List.append_assoc, hround]
    exact hrun

/-- From its start step on LOAD reads a text it can read. -/
theorem runUnder_load_readsText {s : State} {w : Bool} {ld : LoadState} {text : List Byte} {rest : List CbXfer}
    (h : LoadState.init.ReadsText s.wDupsym text w ld) (hop : s.op = .run .load) (hst : s.started = false)
    (hgo : s.streams.cbToGo = text.map CbXfer.byte ++ rest) (xs : List Slot) :
    ∃ sched q src, q ++ src.map decodeCbXfer = rest ∧
      runUnder (rounds [.cbSource, .core] (text.length + 1) ++ xs) s =
        runUnder xs
          (State.withCbInput { s with tree := .absent, started := true, wDupsym := w, ld := ld } sched q src) := by
  obtain ⟨q, src, hq, hround⟩ := runUnder_round_loadStart hop hst (rounds [.cbSource, .core] text.length ++ xs)
  obtain ⟨sched, q', src', hq', hrun⟩ :=
    runUnder_rounds_readsText (s := loadStart (s.withCbInput [] q src)) h hop rfl (hq.trans hgo) xs
  refine ⟨sched, q', src', hq', ?_⟩
  rw [rounds, List.append_assoc, hround]
  exact hrun

section

variable {s : State}

/-- END between two pairs of which the first is read (42_decoder.md R191, R198). -/
theorem loadTransfer_end (hph : s.ld.phase = .sym) (hdig : s.ld.hasDigit = false) (hpairs : s.ld.pairs ≠ 0) :
    loadTransfer .endOfStream s = loadSucceed s := by
  simp [loadTransfer, hph, symStep, hdig, hpairs]

/-- An empty code line (42_decoder.md R192). -/
theorem loadTransfer_emptyCode (hph : s.ld.phase = .code) (hcode : s.ld.code = []) :
    loadTransfer (.byte byteLF) s = loadMalformed .emptyCode s := by
  simp [loadTransfer, hph, codeStep, hcode, byteLF]

/-- What a malformed codebook leaves, any number of rounds after LOAD has stopped at it. -/
theorem runUnder_rounds_loadMalformed (d : ErrDetail) (s : State) (k : Nat) :
    ∃ t, runUnder (rounds [.cbSource, .core] k) (loadMalformed d s) = .next t ∧ t.op = .idle ∧ t.done = true ∧
      t.tree = .absent ∧ t.err = .malformedCodebook ∧ t.errDetail = d := by
  obtain ⟨sched, q, src, hidle⟩ := runUnder_rounds_idle k (s := loadMalformed d s) rfl
  exact ⟨_, hidle, rfl, rfl, rfl, rfl, rfl⟩

/-- LOAD of the text of a tree gives the tree. -/
theorem load_saveBytes {U : TreeSlot} (hop : s.op = .run .load) (hst : s.started = false)
    (hgo : s.streams.cbToGo = saveBytes U) (hU : U.Fits) (hnd : (U.codes.map Prod.fst).Nodup)
    (hcodes : U.codes ≠ []) (hne : ∀ c ∈ U.codes, c.2 ≠ []) :
    ∃ t, runUnder (rounds [.cbSource, .core] (1 + (saveBytes U).length)) s = .next t ∧ t.op = .idle ∧ t.done = true ∧
      t.tree = U ∧ t.err = s.err ∧ t.errDetail = s.errDetail ∧ t.wDupsym = s.wDupsym := by
  obtain ⟨ld, hread, hld⟩ := (LoadState.init_hasPairs U).reads_pairs (w := s.wDupsym) hU hnd hne U.codes rfl
  rw [saveBytes_eq] at hgo ⊢
  obtain ⟨sched, q, src, hq, hrun⟩ := runUnder_load_readsText hread hop hst hgo (rounds [.cbSource, .core] 1)
  obtain ⟨q', src', -, hround⟩ := runUnder_round_load (s := State.withCbInput
    { s with tree := .absent, started := true, ld := ld } sched q src) hop rfl hq []
  have hpairs : ld.pairs ≠ 0 := by rw [hld.pairs]; exact List.length_eq_zero_iff.not.2 hcodes
  rw [loadTransfer_end hld.phase hld.hasDigit hpairs] at hround
  rw [List.length_append, List.length_map, List.length_singleton, Nat.add_comm 1, rounds_add, hrun]
  exact ⟨_, hround, rfl, rfl, hld.tree_eq hU.proper, rfl, rfl, rfl⟩

/-- LOAD of the text of a leaf root stops at the empty code line. -/
theorem load_saveBytes_leaf {v : Sym} (hop : s.op = .run .load) (hst : s.started = false)
    (hgo : s.streams.cbToGo = saveBytes (.leaf v)) :
    ∃ t, runUnder (rounds [.cbSource, .core] (1 + (saveBytes (.leaf v)).length)) s = .next t ∧ t.op = .idle ∧
      t.done = true ∧ t.tree = .absent ∧ t.err = .malformedCodebook ∧ t.errDetail = .emptyCode := by
  have htext : saveBytes (.leaf v) = (decText v ++ [byteLF]).map CbXfer.byte ++ [.byte byteLF, .endOfStream] := by
    simp [saveBytes, TreeSlot.pairsText]
  have hread := (LoadState.init_hasPairs (.leaf v)).toAtPair.reads_symbol (w := s.wDupsym) v
  have hlen : 1 + (saveBytes (.leaf v)).length = ((decText v ++ [byteLF]).length + 1) + (1 + 1) := by
    rw [htext, List.length_append, List.length_map, Nat.add_comm 1]
    rfl
  rw [htext] at hgo
  obtain ⟨sched, q, src, hq, hrun⟩ := runUnder_load_readsText hread hop hst hgo (rounds [.cbSource, .core] (1 + 1))
  obtain ⟨q', src', -, hround⟩ := runUnder_round_load (s := State.withCbInput
    { s with tree := .absent, started := true, ld := LoadState.init.atCode v } sched q src) hop rfl hq
    (rounds [.cbSource, .core] 1)
  rw [loadTransfer_emptyCode rfl rfl] at hround
  rw [hlen, rounds_add, hrun, rounds, hround]
  exact runUnder_rounds_loadMalformed .emptyCode _ 1

end

/-- Settles O40: the symbols of BUILD's tree differ, its codes are nonempty unless it is a leaf, and it fits the tree
store, so LOAD reads each pair of its text (`load_saveBytes`). -/
theorem savedTreeLoadsBack : Obligations.SavedTreeLoadsBack := by
  intro m r s hr hop hst herr hdetail hdup hgo
  obtain ⟨hfull, hpresent, hcount⟩ := buildRoot_full hr
  cases hroot : r.t with
  | absent => exact absurd hroot hpresent
  | leaf v =>
    rw [hroot] at hgo
    obtain ⟨t, hrun, hidle, hdone, hleaf⟩ := load_saveBytes_leaf hop hst hgo
    exact ⟨t, hrun, hidle, hdone, by simp [TreeSlot.leafCount], fun _ => hleaf⟩
  | node a b =>
    have hfits := TreeSlot.fits_of_full hfull hpresent (hcount ▸ m.present_length_le)
    have hnd : (r.t.codes.map Prod.fst).Nodup := by
      have hvalues := (buildRoot_symbols_perm hr).nodup_iff.2 m.present_nodup
      exact .of_map BitVec.toNat (by rwa [List.map_map])
    have hne : ∀ c ∈ r.t.codes, c.2 ≠ [] := by
      rintro ⟨v, _⟩ hc rfl
      rw [TreeSlot.mem_codes, hroot] at hc
      cases hc
    have hcodes : r.t.codes ≠ [] := by
      rw [← List.length_pos_iff, TreeSlot.length_codes]
      exact TreeSlot.leafCount_pos hfits.proper hpresent
    have htwo : r.t.leafCount ≠ 1 := by
      obtain ⟨ha, hb, hfa, hfb⟩ : (TreeSlot.node a b).full := hroot ▸ hfull
      have := TreeSlot.leafCount_pos (TreeSlot.full_proper hfa) ha
      have := TreeSlot.leafCount_pos (TreeSlot.full_proper hfb) hb
      rw [hroot, TreeSlot.leafCount]
      omega
    obtain ⟨t, hrun, hidle, hdone, htree, herr', hdetail', hdup'⟩ := load_saveBytes hop hst hgo hfits hnd hcodes hne
    rw [← hroot]
    exact ⟨t, hrun, hidle, hdone, fun _ => ⟨htree, herr'.trans herr, hdetail'.trans hdetail, hdup'.trans hdup⟩,
      fun h => absurd h htwo⟩

end Sys2Proof.Machine
end

section
/-! SUPPORT. The single steps of LOAD, DECODE, CLEAR_TREE and FLUSH (spec 42_decoder.md R190-R221). -/

namespace Sys2Proof.Machine

/-! ### CLEAR_TREE and FLUSH (R220, R221) -/

/-- Settles O18: CLEAR_TREE drops the tree and finishes, by definition. -/
theorem clearTreeDiscardsTheTree : Obligations.ClearTreeDiscardsTheTree := fun _ => rfl

/-- Settles O20: FLUSH empties the two FIFOs and finishes, by definition. -/
theorem flushEmptiesTheInputFifos : Obligations.FlushEmptiesTheInputFifos := fun _ => rfl

section

variable {s : State}

/-! ### LOAD (R190) -/

theorem exec_load_start (hst : s.started = false) : exec .load s = .next (loadStart s) :=
  if_neg (ne_true_of_eq_false hst)

theorem exec_load_hold (hst : s.started = true) (hin : s.cbIn = []) : exec .load s = .next s := by
  simp only [exec, execLoad, if_pos hst, hin]

theorem exec_load_sym {x : CbXfer} {rest : List CbXfer} (hst : s.started = true) (hph : s.ld.phase = .sym)
    (hin : s.cbIn = x :: rest) : exec .load s = .next (symStep x { s with cbIn := rest }) := by
  simp only [exec, execLoad, if_pos hst, hin, loadTransfer, hph]

theorem exec_load_code {x : CbXfer} {rest : List CbXfer} (hst : s.started = true) (hph : s.ld.phase = .code)
    (hin : s.cbIn = x :: rest) : exec .load s = .next (codeStep x { s with cbIn := rest }) := by
  simp only [exec, execLoad, if_pos hst, hin, loadTransfer, hph]

/-! ### A symbol line (R191) -/

theorem symStep_end : symStep .endOfStream s =
    if s.ld.hasDigit then loadMalformed .incompletePair s
    else if s.ld.pairs = 0 then loadMalformed .emptyCodebook s else loadSucceed s := rfl

theorem symStep_digit {d : Nat} (hd : d < 10) : symStep (.byte (digitByte d)) s =
    if s.ld.acc.toNat * 10 + d < 256 then
      { s with ld := { s.ld with acc := BitVec.ofNat 8 (s.ld.acc.toNat * 10 + d), hasDigit := true } }
    else loadMalformed .symbolRange s := by
  have hrange : 0x30#8 ≤ digitByte d ∧ digitByte d ≤ 0x39#8 := by
    simp only [BitVec.le_def, digitByte_toNat hd, BitVec.toNat_ofNat]
    omega
  have hvalue : (digitByte d).toNat - 0x30 = d := by rw [digitByte_toNat hd]; omega
  simp only [symStep, if_pos hrange, hvalue, Config.nsym]

theorem symStep_LF : symStep (.byte byteLF) s =
    if s.ld.hasDigit then { s with ld := { s.ld with phase := .code, code := [], line := s.ld.line + 1#32 } }
    else loadMalformed .emptySymbol s := rfl

theorem symStep_other {c : Byte} (hlf : c ≠ byteLF) (hdigit : ∀ d, d < 10 → c ≠ digitByte d) :
    symStep (.byte c) s = loadMalformed .badSymbolChar s := by
  have hrange : ¬ (0x30#8 ≤ c ∧ c ≤ 0x39#8) := fun h => hdigit _ (eq_digitByte h).1 (eq_digitByte h).2
  simp only [symStep, if_neg hrange, if_neg hlf]

/-! ### A code line (R192, R197) -/

theorem codeStep_bit (b : Bit) : codeStep (.byte (bitChar b)) s =
    if s.ld.code.length = 255 then loadMalformed .codeTooLong s
    else { s with ld := { s.ld with code := s.ld.code ++ [b] } } := by
  cases b <;> rfl

theorem codeStep_LF : codeStep (.byte byteLF) s =
    if s.ld.code = [] then loadMalformed .emptyCode s else loadPair s := rfl

theorem codeStep_pair (hcode : s.ld.code ≠ []) : codeStep (.byte byteLF) s = loadPair s :=
  codeStep_LF.trans (if_neg hcode)

theorem loadPair_conflict (hins : insertCode s.ld.acc s.ld.code s.ld.T s.ld.nodes = .error .prefixConflict) :
    loadPair s = loadMalformed .prefixConflict s := by
  simp only [loadPair, hins]

theorem loadPair_capacity (hins : insertCode s.ld.acc s.ld.code s.ld.T s.ld.nodes = .error .capacity) :
    loadPair s = loadFail .capacity .none s := by
  simp only [loadPair, hins]

theorem loadPair_inserted {T : TreeSlot} {n : Nat}
    (hins : insertCode s.ld.acc s.ld.code s.ld.T s.ld.nodes = .ok (T, n)) :
    loadPair s = { s with
      wDupsym := s.wDupsym || decide (s.ld.acc ∈ s.ld.seen)
      ld := { s.ld with
        T := T, nodes := n, seen := s.ld.seen.insert s.ld.acc, pairs := s.ld.pairs + 1, line := s.ld.line + 1#32,
        phase := .sym, acc := 0#8, hasDigit := false } } := by
  simp only [loadPair, hins, List.contains_eq_mem, List.insert]

theorem codeStep_other {c : Byte} (h0 : c ≠ 0x30#8) (h1 : c ≠ 0x31#8) (hlf : c ≠ byteLF) :
    codeStep (.byte c) s = loadMalformed .badCodeChar s := by
  simp only [codeStep, h0, h1, or_self, if_false, if_neg hlf]

/-! ### DECODE (R211-R215) -/

theorem exec_decode_start (hst : s.started = false) : exec .decode s = .next (decodeStart s) :=
  if_neg (ne_true_of_eq_false hst)

theorem decodeStart_noTree (h : s.tree = .absent) :
    decodeStart s = raiseErr .noTree .none { s with decBits := 0#32, decSyms := 0#32, decDepth := 0#8 } := if_pos h

theorem decodeStart_tree (h : s.tree ≠ .absent) :
    decodeStart s = { s with decBits := 0#32, decSyms := 0#32, decDepth := 0#8, cur := [], started := true } := if_neg h

theorem exec_decode_hold (hst : s.started = true) (h : s.bitIn = [] ∨ ¬ s.symOut.length < Config.outDepth) :
    exec .decode s = .next s := by
  simp only [exec, execDecode, if_pos hst]
  split
  · rfl
  · next hin => exact if_neg (h.resolve_left (by simp [hin]))

theorem exec_decode_transfer {x : BitXfer} {rest : List BitXfer} (hst : s.started = true) (hin : s.bitIn = x :: rest)
    (hroom : s.symOut.length < Config.outDepth) :
    exec .decode s = .next (decodeTransfer x { s with bitIn := rest }) := by
  simp only [exec, execDecode, if_pos hst, hin, if_pos hroom]

theorem coreStep_decode_start (hop : s.op = .run .decode) (hst : s.started = false) :
    coreStep s = .next (decodeStart s) :=
  (coreStep_run hop).trans (exec_decode_start hst)

theorem coreStep_decode_transfer {x : BitXfer} {rest : List BitXfer} (hop : s.op = .run .decode)
    (hst : s.started = true) (hin : s.bitIn = x :: rest) (hroom : s.symOut.length < Config.outDepth) :
    coreStep s = .next (decodeTransfer x { s with bitIn := rest }) :=
  (coreStep_run hop).trans (exec_decode_transfer hst hin hroom)

theorem decodeTransfer_leaf {b : Bit} {v : Sym} (h : s.tree.subtree (s.cur ++ [b]) = .leaf v) :
    decodeTransfer (.bit b) s = emitSym v { s with decBits := s.decBits + 1#32 } := by
  simp only [decodeTransfer, decodeBit, h]

theorem decodeTransfer_node {b : Bit} {l r : TreeSlot} (h : s.tree.subtree (s.cur ++ [b]) = .node l r) :
    decodeTransfer (.bit b) s = { s with decBits := s.decBits + 1#32, cur := s.cur ++ [b] } := by
  simp only [decodeTransfer, decodeBit, h]

theorem decodeTransfer_absent {b : Bit} (h : s.tree.subtree (s.cur ++ [b]) = .absent) :
    decodeTransfer (.bit b) s = raiseErr .corruptTree .none
      { s with decBits := s.decBits + 1#32, decDepth := BitVec.ofNat 8 s.cur.length } := by
  simp only [decodeTransfer, decodeBit, h]

/-- DECODE ends on END or at an absent child, and puts the length of the cursor into DEC_DEPTH. -/
theorem decodeTransfer_decDepth {x : BitXfer} (hop : s.op = .run .decode) (hidle : (decodeTransfer x s).op = .idle) :
    (decodeTransfer x s).decDepth = BitVec.ofNat 8 s.cur.length := by
  cases x with
  | endOfStream => rfl
  | bit b =>
    cases hsub : s.tree.subtree (s.cur ++ [b]) with
    | absent => rw [decodeTransfer_absent hsub]; rfl
    | leaf v =>
      rw [decodeTransfer_leaf hsub] at hidle
      exact absurd (hop.symm.trans hidle) nofun
    | node l r =>
      rw [decodeTransfer_node hsub] at hidle
      exact absurd (hop.symm.trans hidle) nofun

theorem exec_decode_decDepth {t : State} (hop : s.op = .run .decode) (hst : s.started = true)
    (h : exec .decode s = .next t) (hidle : t.op = .idle) : t.decDepth = BitVec.ofNat 8 s.cur.length := by
  by_cases hhold : s.bitIn = [] ∨ ¬ s.symOut.length < Config.outDepth
  · rw [exec_decode_hold hst hhold] at h
    cases h
    exact absurd (hop.symm.trans hidle) nofun
  · obtain ⟨hne, hroom⟩ := not_or.1 hhold
    obtain ⟨x, rest, hin⟩ := List.exists_cons_of_ne_nil hne
    rw [exec_decode_transfer hst hin (not_not.1 hroom)] at h
    cases h
    exact decodeTransfer_decDepth (s := { s with bitIn := rest }) hop hidle

end

/-- Settles O33: the two clauses are two steps of LOAD. -/
theorem loadStartDiscardsTheTree : Obligations.LoadStartDiscardsTheTree :=
  fun _ => ⟨exec_load_start, exec_load_hold⟩

/-- Settles O34: each clause is a branch of `symStep`. -/
theorem loadSymbolLineStep : Obligations.LoadSymbolLineStep := by
  intro s x rest hst hph hin failed
  rw [exec_load_sym hst hph hin]
  refine ⟨?endDigit, ?endEmpty, ?endPairs, ?digit, ?digitRange, ?lfEmpty, ?lf, ?other⟩
  case endDigit =>
    rintro rfl hdig
    rw [symStep_end, if_pos hdig]
    rfl
  case endEmpty =>
    rintro rfl hdig hpairs
    rw [symStep_end, if_neg (ne_true_of_eq_false hdig), if_pos hpairs]
    rfl
  case endPairs =>
    rintro rfl hdig hpairs
    rw [symStep_end, if_neg (ne_true_of_eq_false hdig), if_neg hpairs]
    rfl
  case digit =>
    rintro d hd rfl hsmall
    exact congrArg _ ((symStep_digit hd).trans (if_pos hsmall))
  case digitRange =>
    rintro d hd rfl hlarge
    exact congrArg _ ((symStep_digit hd).trans (if_neg (Nat.not_lt.2 hlarge)))
  case lfEmpty =>
    rintro rfl hdig
    exact congrArg _ (symStep_LF.trans (if_neg (ne_true_of_eq_false hdig)))
  case lf =>
    rintro rfl hdig
    exact congrArg _ (symStep_LF.trans (if_pos hdig))
  case other =>
    rintro c rfl hlf hdigit
    exact congrArg _ (symStep_other hlf hdigit)

/-- Settles O35: each clause is a branch of `codeStep` or, for the insertion, of `loadPair`. -/
theorem loadCodeLineStep : Obligations.LoadCodeLineStep := by
  intro s x rest hst hph hin failed
  rw [exec_load_code hst hph hin]
  refine ⟨?endOfStream, ?bit, ?bitTooMany, ?lfEmpty, ?conflict, ?capacity, ?inserted, ?other⟩
  case endOfStream =>
    rintro rfl
    rfl
  case bit =>
    rintro b rfl hlen
    exact congrArg _ ((codeStep_bit b).trans (if_neg hlen))
  case bitTooMany =>
    rintro b rfl hlen
    exact congrArg _ ((codeStep_bit b).trans (if_pos hlen))
  case lfEmpty =>
    rintro rfl hcode
    exact congrArg _ (codeStep_LF.trans (if_pos hcode))
  case conflict =>
    rintro rfl hcode hins
    exact congrArg _ ((codeStep_pair (s := { s with cbIn := rest }) hcode).trans (loadPair_conflict hins))
  case capacity =>
    rintro rfl hcode hins
    exact congrArg _ ((codeStep_pair (s := { s with cbIn := rest }) hcode).trans (loadPair_capacity hins))
  case inserted =>
    rintro rfl hcode T n hins
    refine ⟨s.ld.seen.insert s.ld.acc, fun v => by simp [or_comm], ?_⟩
    exact congrArg _ ((codeStep_pair (s := { s with cbIn := rest }) hcode).trans (loadPair_inserted hins))
  case other =>
    rintro c rfl h0 h1 hlf
    exact congrArg _ (codeStep_other h0 h1 hlf)

/-- Settles O41: DECODE's start step with and without a tree. -/
theorem decodeStartClearsTheCounters : Obligations.DecodeStartClearsTheCounters := by
  intro s hst
  rw [exec_decode_start hst]
  exact ⟨fun htree => congrArg _ (decodeStart_noTree htree), fun htree => congrArg _ (decodeStart_tree htree)⟩

/-- Settles O42: DECODE holds, or its transfer is END or a bit to a leaf, to a node or to an absent child. -/
theorem decodeTransferStep : Obligations.DecodeTransferStep := by
  intro s rest hst
  refine ⟨exec_decode_hold hst, fun hin hroom => ?_, fun b hin hroom => ?_⟩
  · rw [exec_decode_transfer hst hin hroom]
    have htrail : (s.cur != []) = decide (0 < s.cur.length) := by cases s.cur <;> rfl
    rw [← htrail]
    rfl
  · rw [exec_decode_transfer hst hin hroom]
    exact ⟨fun v h => congrArg _ (decodeTransfer_leaf (s := { s with bitIn := rest }) h),
      fun l r h => congrArg _ (decodeTransfer_node (s := { s with bitIn := rest }) h),
      fun h => congrArg _ (decodeTransfer_absent (s := { s with bitIn := rest }) h)⟩

/-- Settles O43: below a leaf as the tree every child is absent, and END finds the cursor at the root. -/
theorem decodeOfALeafRoot : Obligations.DecodeOfALeafRoot := by
  intro s v rest htree hst
  have hstart := exec_decode_start hst
  rw [decodeStart_tree (by simp [htree])] at hstart
  refine ⟨_, hstart, rfl, htree, rfl, rfl, fun hroom => ⟨fun b hin => ?_, fun hin => ?_⟩⟩
  · refine ⟨_, exec_decode_transfer rfl hin hroom, ?_⟩
    rw [decodeTransfer_absent (by simp [htree])]
    simp [htree]
  · refine ⟨_, exec_decode_transfer rfl hin hroom, ?_⟩
    simp [decodeTransfer, decodeEnd]

/-- Settles O56: the path of an internal node is shorter than the depth, at most 255; so its length fits DEC_DEPTH. -/
theorem decoderCursorFitsItsRegister : Obligations.DecoderCursorFitsItsRegister := by
  intro s hinv hop hst
  have hcur : s.cur.length ≤ 254 := by
    rcases (hinv.decode_cur hop hst).2 with hroot | ⟨l, r, hnode⟩
    · simp [hroot]
    · have hlt := TreeSlot.length_lt_depth hnode hinv.tree_proper
      have hdepth : s.tree.depth ≤ 255 := hinv.tree_depth
      omega
  refine ⟨hcur, fun t r hsched hstep hidle => ?_⟩
  rw [step_core_run hop hsched] at hstep
  rw [exec_decode_decDepth (s := { s with sched := r }) hop hst hstep hidle]
  exact Nat.mod_eq_of_lt (by dsimp only; omega)

end Sys2Proof.Machine
end

section
/-! SUPPORT. When an insertion of LOAD fails (spec 42_decoder.md R194-R196; 60_exceptions.md R246). -/

namespace Sys2Proof.Machine

/-- Some code of the tree begins `code` or begins with it (42_decoder.md R195). -/
def TreeSlot.Conflicts (T : TreeSlot) (code : List Bit) : Prop := ∃ c ∈ T.codes, c.2 <+: code ∨ code <+: c.2

/-- The paths along `code` at which the tree has no node: those an insertion has to make (42_decoder.md R194). -/
def TreeSlot.missing (T : TreeSlot) (code : List Bit) : List (List Bit) :=
  code.inits.filter (fun p => T.subtree p == .absent)

namespace TreeSlot

@[simp] theorem not_conflicts_absent (code : List Bit) : ¬ absent.Conflicts code := by simp [Conflicts, codes]

@[simp] theorem conflicts_leaf (v : Sym) (code : List Bit) : (leaf v).Conflicts code := by simp [Conflicts, codes]

theorem exists_mem_codes {T : TreeSlot} (hT : T.proper) (h : T ≠ .absent) : ∃ c, c ∈ T.codes :=
  List.exists_mem_of_length_pos (T.length_codes ▸ leafCount_pos hT h)

theorem conflicts_nil {T : TreeSlot} (hT : T.proper) (h : T ≠ .absent) : T.Conflicts [] := by
  obtain ⟨c, hc⟩ := exists_mem_codes hT h
  exact ⟨c, hc, .inr List.nil_prefix⟩

theorem conflicts_node (l r : TreeSlot) (b : Bit) (bs : List Bit) :
    (node l r).Conflicts (b :: bs) ↔ (bif b then r else l).Conflicts bs := by
  cases b <;> simp [Conflicts, codes, or_and_right, exists_or, List.cons_prefix_cons]

@[simp] theorem missing_absent (code : List Bit) : absent.missing code = code.inits := by simp [missing]

theorem missing_node (l r : TreeSlot) (b : Bit) (bs : List Bit) :
    (node l r).missing (b :: bs) = ((bif b then r else l).missing bs).map (b :: ·) := by
  cases b <;> simp [missing, List.filter_map, Function.comp_def]

end TreeSlot

theorem alloc_full {n : Nat} (h : Config.nodeCap < n + 1) : alloc n = .error .capacity := if_pos h

/-- In an absent slot nothing conflicts, and the walk needs a node for each path along the code. -/
theorem insertCode_absent_eq_error {v : Sym} {code : List Bit} {n : Nat} {e : InsertError} :
    insertCode v code .absent n = .error e ↔ e = .capacity ∧ Config.nodeCap < n + (code.length + 1) := by
  induction code generalizing n with
  | nil =>
    rcases Nat.lt_or_ge Config.nodeCap (n + 1) with hfull | hroom
    · simp [insertCode, alloc_full hfull, hfull, eq_comm]
    · simpa [insertCode, alloc_of_room hroom] using fun _ => hroom
  | cons b bs ih =>
    rcases Nat.lt_or_ge Config.nodeCap (n + 1) with hfull | hroom
    · have hmore : Config.nodeCap < n + (bs.length + 1 + 1) := by omega
      simp [insertCode, alloc_full hfull, hmore, eq_comm]
    · have hbelow := ih (n := n + 1)
      rw [Nat.add_right_comm, Nat.add_assoc] at hbelow
      rw [List.length_cons, ← hbelow]
      simp only [insertCode, alloc_of_room hroom]
      split <;> simp_all

/-- At a node the walk goes on in a child, with the errors found there. -/
theorem insertCode_node_eq_error {v : Sym} {b : Bit} {bs : List Bit} {l r : TreeSlot} {n : Nat} {e : InsertError} :
    insertCode v (b :: bs) (.node l r) n = .error e ↔ insertCode v bs (bif b then r else l) n = .error e := by
  cases b with
  | false => rw [insertCode]; split <;> simp_all
  | true => rw [insertCode]; split <;> simp_all

/-- An insertion fails for a conflict exactly when there is one, and else for capacity exactly when the nodes run
out. -/
theorem insertCode_eq_error {v : Sym} {code : List Bit} {T : TreeSlot} {n : Nat} {e : InsertError} (hT : T.proper) :
    insertCode v code T n = .error e ↔
      e = .prefixConflict ∧ T.Conflicts code ∨
      e = .capacity ∧ ¬ T.Conflicts code ∧ Config.nodeCap < n + (T.missing code).length := by
  induction code generalizing T with
  | nil =>
    cases T with
    | absent => simp [insertCode_absent_eq_error]
    | leaf w => simp [insertCode, eq_comm]
    | node l r => simp [insertCode, eq_comm, TreeSlot.conflicts_nil hT]
  | cons b bs ih =>
    cases T with
    | absent => simp [insertCode_absent_eq_error]
    | leaf w => simp [insertCode, eq_comm]
    | node l r =>
      obtain ⟨-, hl, hr⟩ := hT
      have hchild : (bif b then r else l).proper := by cases b <;> assumption
      rw [insertCode_node_eq_error, ih hchild, TreeSlot.conflicts_node, TreeSlot.missing_node, List.length_map]

/-- Settles O37: each failure is one half of `insertCode_eq_error`. -/
theorem insertionRejectsPrefixConflicts : Obligations.InsertionRejectsPrefixConflicts := by
  intro v code T n hT
  refine ⟨(insertCode_eq_error hT).trans ?_, (insertCode_eq_error hT).trans ?_⟩
  · simp [TreeSlot.Conflicts]
  · simp [TreeSlot.Conflicts, TreeSlot.missing, Config.nodeCap]

/-- Settles O36: a success is a walk `Inserts`, whose laws are the parts of the statement. -/
theorem insertionKeepsTheOtherCodes : Obligations.InsertionKeepsTheOtherCodes := by
  intro v code T T' n n' h
  have hins := Inserts.of_insertCode h
  refine ⟨TreeSlot.mem_codes.1 ?_, hins.codes_perm, hins.leafCount_eq, hins.size_eq, hins.nodes_le⟩
  exact hins.codes_perm.mem_iff.2 (List.mem_cons_self ..)

end Sys2Proof.Machine
end

section
/-! SUPPORT. LOAD of the text of a codebook (spec 42_decoder.md R190-R200): the nodes of a tree are the paths that begin
its codes, so pairs whose codes do not conflict and begin with few enough paths all go in. -/

namespace Sys2Proof.Machine

/-! ### The nodes of a tree as paths -/

theorem nodup_inits (code : List Bit) : code.inits.Nodup := by
  induction code with
  | nil => simp
  | cons b bs ih =>
    rw [List.inits_cons, List.nodup_cons]
    exact ⟨by simp, ih.map (List.cons_injective)⟩

namespace TreeSlot

/-- The paths to the nodes of a tree. -/
def paths : TreeSlot → List (List Bit)
  | .absent => []
  | .leaf _ => [[]]
  | .node l r => [] :: (l.paths.map (false :: ·) ++ r.paths.map (true :: ·))

theorem mem_paths {T : TreeSlot} {p : List Bit} : p ∈ T.paths ↔ T.subtree p ≠ .absent := by
  induction T generalizing p with
  | absent => simp [paths]
  | leaf _ => cases p <;> simp [paths]
  | node l r ihl ihr =>
    cases p with
    | nil => simp [paths]
    | cons b p => cases b <;> simp [paths, ihl, ihr]

theorem length_paths (T : TreeSlot) : T.paths.length = T.size := by
  induction T with
  | absent => rfl
  | leaf _ => rfl
  | node l r ihl ihr =>
    simp only [paths, size, List.length_cons, List.length_append, List.length_map, ihl, ihr]
    omega

theorem paths_nodup (T : TreeSlot) : T.paths.Nodup := by
  induction T with
  | absent => exact .nil
  | leaf _ => exact List.nodup_singleton _
  | node l r ihl ihr =>
    refine List.nodup_cons.2 ⟨by simp, (ihl.map List.cons_injective).append (ihr.map List.cons_injective) ?_⟩
    intro p hl hr
    simp only [List.mem_map] at hl hr
    obtain ⟨q, -, rfl⟩ := hl
    obtain ⟨_, -, hq⟩ := hr
    simp at hq

/-- In a proper tree each node is on the way to a leaf. -/
theorem exists_code_of_subtree {T : TreeSlot} {p : List Bit} (hT : T.proper) (h : T.subtree p ≠ .absent) :
    ∃ c ∈ T.codes, p <+: c.2 := by
  induction p generalizing T with
  | nil =>
    obtain ⟨c, hc⟩ := exists_mem_codes hT (by simpa using h)
    exact ⟨c, hc, List.nil_prefix⟩
  | cons b p ih =>
    cases T with
    | absent => simp at h
    | leaf v => simp at h
    | node l r =>
      obtain ⟨-, hl, hr⟩ := hT
      cases b
      · obtain ⟨c, hc, hp⟩ := ih hl (by simpa using h)
        exact ⟨(c.1, false :: c.2), by simp [codes, hc], List.cons_prefix_cons.2 ⟨rfl, hp⟩⟩
      · obtain ⟨c, hc, hp⟩ := ih hr (by simpa using h)
        exact ⟨(c.1, true :: c.2), by simp [codes, hc], List.cons_prefix_cons.2 ⟨rfl, hp⟩⟩

/-- The nodes of a tree and those an insertion has to make are different paths, and each begins a code. -/
theorem size_add_missing_le {T : TreeSlot} {v : Sym} {code : List Bit} {ps : List (Sym × List Bit)} (hT : T.proper)
    (hcodes : T.codes ⊆ ps) (hcode : (v, code) ∈ ps) :
    T.size + (T.missing code).length ≤ (ps.flatMap (fun p => p.2.inits)).dedup.length := by
  have hnd : (T.paths ++ T.missing code).Nodup := by
    refine T.paths_nodup.append ((nodup_inits code).filter _) fun p hp hm => mem_paths.1 hp ?_
    simpa using (List.mem_filter.1 hm).2
  have hsub : T.paths ++ T.missing code ⊆ (ps.flatMap (fun p => p.2.inits)).dedup := by
    intro p hp
    simp only [List.mem_dedup, List.mem_flatMap, List.mem_inits]
    rcases List.mem_append.1 hp with hp | hp
    · obtain ⟨c, hc, hpc⟩ := exists_code_of_subtree hT (mem_paths.1 hp)
      exact ⟨c, hcodes hc, hpc⟩
    · exact ⟨_, hcode, (List.mem_inits _ _).1 (List.mem_filter.1 hp).1⟩
  rw [← T.length_paths, ← List.length_append]
  exact (hnd.subperm hsub).length_le

end TreeSlot

/-- An insertion without a conflict and with room for the nodes it needs succeeds (42_decoder.md R194). -/
theorem exists_inserts_of_room {v : Sym} {code : List Bit} {T : TreeSlot} {n : Nat} (hT : T.proper)
    (hfree : ¬ T.Conflicts code) (hroom : n + (T.missing code).length ≤ Config.nodeCap) :
    ∃ T' n', Inserts v code T n T' n' := by
  cases h : insertCode v code T n with
  | ok r => exact ⟨r.1, r.2, .of_insertCode h⟩
  | error e =>
    rcases (insertCode_eq_error hT).1 h with ⟨-, hc⟩ | ⟨-, -, hfull⟩
    · exact absurd hc hfree
    · exact absurd hroom (Nat.not_le.2 hfull)

/-! ### Reading pairs -/

namespace LoadState

/-- The parser stands between two pairs; its tree's codebook is the pairs `ps` read so far, and `w` says whether a
symbol came twice in them (42_decoder.md R194, R197). -/
structure HasLoaded (ps : List (Sym × List Bit)) (w : Bool) (ld : LoadState) : Prop extends ld.AtPair where
  codes  : ld.T.codes.Perm ps
  proper : ld.T.proper
  root   : ∀ v, ld.T ≠ .leaf v
  nodes  : ld.nodes = ld.T.size
  cap    : ld.nodes ≤ Config.nodeCap
  pairs  : ld.pairs = ps.length
  seen   : ∀ v, v ∈ ld.seen ↔ v ∈ ps.map Prod.fst
  warned : w = true ↔ ¬ (ps.map Prod.fst).Nodup

theorem init_hasLoaded : init.HasLoaded [] false where
  phase := rfl
  acc := rfl
  hasDigit := rfl
  codes := .refl _
  proper := trivial
  root := nofun
  nodes := rfl
  cap := Nat.zero_le _
  pairs := rfl
  seen := by simp [init]
  warned := by simp

/-- One pair more goes in, with a warning if its symbol has been seen. -/
theorem HasLoaded.reads_pair {ps : List (Sym × List Bit)} {c : Sym × List Bit} {w : Bool} {ld : LoadState}
    (h : ld.HasLoaded ps w) (hne : c.2 ≠ []) (hlen : c.2.length ≤ 255) (hfree : ¬ ld.T.Conflicts c.2)
    (hroom : ld.T.size + (ld.T.missing c.2).length ≤ Config.nodeCap) :
    ∃ w' ld', ReadsText w ld (pairsOf [c]) w' ld' ∧ ld'.HasLoaded (ps ++ [c]) w' := by
  obtain ⟨v, code⟩ := c
  obtain ⟨T, n, hins⟩ := exists_inserts_of_room (v := v) h.proper hfree (h.nodes ▸ hroom)
  refine ⟨_, _, h.toAtPair.reads_pair (w := w) hne hlen hins, {
    phase := rfl, acc := rfl, hasDigit := rfl, codes := ?codes, proper := hins.proper (.inl h.proper)
    root := hins.ne_leaf hne, nodes := ?nodes, cap := hins.nodes_le, pairs := by simp [h.pairs], seen := ?seen
    warned := ?warned }⟩
  case codes => exact hins.codes_perm.trans ((h.codes.cons _).trans (List.perm_append_singleton _ _).symm)
  case nodes =>
    have := hins.size_eq
    have := h.nodes
    dsimp only
    omega
  case seen =>
    intro x
    simp [h.seen x, or_comm]
  case warned =>
    have hseen : ld.seen.contains v = true ↔ v ∈ ps.map Prod.fst := by rw [List.contains_iff_mem, h.seen]
    rw [Bool.or_eq_true, h.warned, hseen, List.map_append, List.map_singleton, List.nodup_append_comm]
    simp [or_comm, imp_iff_not_or]

/-- Pairs whose codes do not conflict and begin with at most NODE_CAP paths all go in. -/
theorem HasLoaded.reads_pairs {all : List (Sym × List Bit)} (hcode : ∀ p ∈ all, p.2 ≠ [] ∧ p.2.length ≤ 255)
    (hfree : all.Pairwise (fun p q => ¬ p.2 <+: q.2 ∧ ¬ q.2 <+: p.2))
    (hroom : (all.flatMap (fun p => p.2.inits)).dedup.length ≤ Config.nodeCap) (todo : List (Sym × List Bit))
    {ps : List (Sym × List Bit)} {w : Bool} {ld : LoadState} (h : ld.HasLoaded ps w) (hall : all = ps ++ todo) :
    ∃ w' ld', ReadsText w ld (pairsOf todo) w' ld' ∧ ld'.HasLoaded all w' := by
  induction todo generalizing ps w ld with
  | nil =>
    rw [List.append_nil] at hall
    exact ⟨w, ld, .nil, hall ▸ h⟩
  | cons c todo ih =>
    have hc : c ∈ all := by simp [hall]
    have hcodes : ld.T.codes ⊆ all := fun d hd => by simp [hall, h.codes.mem_iff.1 hd]
    have hnew : ¬ ld.T.Conflicts c.2 := by
      rintro ⟨d, hd, hconf⟩
      rw [hall, List.pairwise_append] at hfree
      obtain ⟨hdc, hcd⟩ := hfree.2.2 d (h.codes.mem_iff.1 hd) c (List.mem_cons_self ..)
      exact hconf.elim hdc hcd
    obtain ⟨w₁, ld₁, hread, h₁⟩ := h.reads_pair (hcode c hc).1 (hcode c hc).2 hnew
      ((TreeSlot.size_add_missing_le h.proper hcodes hc).trans hroom)
    obtain ⟨w', ld', hrest, h'⟩ := ih h₁ (by rw [hall, List.append_cons])
    refine ⟨w', ld', ?_, h'⟩
    rw [← List.singleton_append, pairsOf_append]
    exact hread.append hrest

end LoadState

/-- Settles O38: all pairs are read (`HasLoaded.reads_pairs`), and END after them succeeds. -/
theorem loadRebuildsTheCodebook : Obligations.LoadRebuildsTheCodebook := by
  intro s ps tail hop hst herr hdetail hdup hne hcode hfree hroom hgo
  obtain ⟨w, ld, hread, hld⟩ := LoadState.init_hasLoaded.reads_pairs hcode hfree hroom ps rfl
  rw [← hdup] at hread
  obtain ⟨sched, q, src, hq, hrun⟩ := runUnder_load_readsText hread hop hst hgo (rounds [.cbSource, .core] 1)
  obtain ⟨q', src', -, hround⟩ := runUnder_round_load (s := State.withCbInput
    { s with tree := .absent, started := true, wDupsym := w, ld := ld } sched q src) hop rfl hq []
  have hpairs : ld.pairs ≠ 0 := by rw [hld.pairs]; exact List.length_eq_zero_iff.not.2 hne
  rw [loadTransfer_end hld.phase hld.hasDigit hpairs] at hround
  have hleaves : ld.T.leafCount = ps.length := by rw [← TreeSlot.length_codes, hld.codes.length_eq]
  have hle : ps.length ≤ ld.nodes := by rw [← hleaves, hld.nodes]; exact ld.T.leafCount_le_size
  have hcap : ld.nodes ≤ 511 := hld.cap
  have hlt : ps.length < 2 ^ 10 := by omega
  rw [Nat.add_comm 2, ← Nat.add_assoc _ 1 1, rounds_add, hrun]
  refine ⟨_, hround, rfl, rfl, herr, hdetail, hld.codes, hld.proper, hld.root, ?_, ?_, ?_, rfl, rfl, hld.warned⟩
  · exact (congrArg (fun n => (BitVec.ofNat 10 n).toNat) hld.pairs).trans (Nat.mod_eq_of_lt hlt)
  · exact (Nat.mod_eq_of_lt (by omega : ld.nodes < 2 ^ 10)).trans hld.nodes
  · exact (congrArg (fun n => (BitVec.ofNat 16 n).toNat) hld.pairs).trans (Nat.mod_eq_of_lt (by omega))

end Sys2Proof.Machine
end

section
/-! SUPPORT. DECODE of a stream (spec 42_decoder.md R212-R217): what it has emitted under every interleaving, and that
it ends while the BitSource pushes and the SymSink pops. -/

namespace Sys2Proof.Machine

/-! ### The cursor on its way along a code -/

namespace TreeSlot

variable {T l r : TreeSlot} {v : Sym} {cur code : List Bit}

/-- No code begins the path of an internal node. -/
theorem not_prefix_of_node (hcur : T.subtree cur = .node l r) (hcode : T.subtree code = .leaf v) : ¬ code <+: cur := by
  rintro ⟨e, rfl⟩
  rw [subtree_append, hcode] at hcur
  cases e <;> simp at hcur

/-- If the bits after the cursor are those of the next code and more, the next bit is one of the code. -/
theorem code_eq_of_append {b : Bit} {bs more : List Bit} (hcur : T.subtree cur = .node l r)
    (hcode : T.subtree code = .leaf v) (h : cur ++ b :: bs = code ++ more) :
    ∃ e, code = cur ++ [b] ++ e ∧ bs = e ++ more := by
  rcases List.append_eq_append_iff.1 h with ⟨e, hcd, hbs⟩ | ⟨e, hc, -⟩
  · cases e with
    | nil => exact absurd (by simp [hcd]) (not_prefix_of_node hcur hcode)
    | cons b' e =>
      obtain ⟨rfl, rfl⟩ := List.cons.inj hbs
      exact ⟨e, by simp [hcd], rfl⟩
  · exact absurd ⟨e, hc.symm⟩ (not_prefix_of_node hcur hcode)

/-- A path that a code goes beyond leads to an internal node. -/
theorem exists_node_of_prefix {b : Bit} {e : List Bit} (h : T.subtree (cur ++ b :: e) = .leaf v) :
    ∃ l r, T.subtree cur = .node l r := by
  rw [subtree_append] at h
  cases hcur : T.subtree cur with
  | absent => simp [hcur] at h
  | leaf w => simp [hcur] at h
  | node l r => exact ⟨l, r, rfl⟩

/-- The next bit of a stream of codes ends the code the cursor is on, or leads to an internal node. -/
theorem next_bit_cases {b : Bit} {left : List Bit} {todo : List (Sym × List Bit)} (hcur : T.subtree cur = .node l r)
    (hcodes : ∀ p ∈ todo, T.subtree p.2 = .leaf p.1) (h : cur ++ b :: left = todo.flatMap Prod.snd) :
    (∃ v rest, todo = (v, cur ++ [b]) :: rest ∧ left = rest.flatMap Prod.snd) ∨
    (∃ l r, T.subtree (cur ++ [b]) = .node l r) := by
  cases todo with
  | nil => simp at h
  | cons p rest =>
    obtain ⟨v, code⟩ := p
    have hcode : T.subtree code = .leaf v := hcodes _ (List.mem_cons_self ..)
    obtain ⟨e, rfl, hleft⟩ := code_eq_of_append hcur hcode h
    cases e with
    | nil => exact .inl ⟨v, rest, by simp, hleft⟩
    | cons b' e => exact .inr (exists_node_of_prefix hcode)

/-- Where a stream of codes ends, the cursor is on no code. -/
theorem end_of_codes {todo : List (Sym × List Bit)} (hcur : T.subtree cur = .node l r)
    (hcodes : ∀ p ∈ todo, T.subtree p.2 = .leaf p.1) (h : cur = todo.flatMap Prod.snd) : cur = [] ∧ todo = [] := by
  cases todo with
  | nil => exact ⟨h, rfl⟩
  | cons p rest => exact absurd ⟨_, h.symm⟩ (not_prefix_of_node hcur (hcodes p (List.mem_cons_self ..)))

end TreeSlot

/-! ### What DECODE has emitted (R213, R217) -/

/-- A source's or a sink's turn only passes transfers on. -/
theorem streamStep_streams {a : Agent} {s t : State} (ha : a ≠ .core) (ha' : a ≠ .host) (h : agentStep a s = .next t) :
    t.streams = s.streams := by
  cases a with
  | core => exact absurd rfl ha
  | host => exact absurd rfl ha'
  | bitSource => cases h; exact bitSourceStep_streams s
  | cbSource => cases h; exact cbSourceStep_streams s
  | symSink => cases h; exact symSinkStep_streams s
  | cbSink => cases h; exact cbSinkStep_streams s

/-- How far a DECODE of the codes of `ps` with the tree `T` has come, `base` being the symbols sent before it. -/
inductive DecodePhase (T : TreeSlot) (base : List Sym) (ps : List (Sym × List Bit)) (tail : List BitXfer) (s : State) :
    Prop where
  | accepted (op : s.op = .run .decode) (started : s.started = false) (sent : s.streams.symSent = base)
      (togo : s.streams.bitsToGo = (ps.flatMap Prod.snd).map BitXfer.bit ++ .endOfStream :: tail)
  | running (op : s.op = .run .decode) (started : s.started = true) (done todo : List (Sym × List Bit))
      (left : List Bit) (pairs : ps = done ++ todo) (bits : s.cur ++ left = todo.flatMap Prod.snd)
      (cursor : ∃ l r, T.subtree s.cur = .node l r) (sent : s.streams.symSent = base ++ done.map Prod.fst)
      (togo : s.streams.bitsToGo = left.map BitXfer.bit ++ .endOfStream :: tail)
      (decSyms : s.decSyms = BitVec.ofNat 32 done.length)
      (decBits : s.decBits = BitVec.ofNat 32 ((done.flatMap Prod.snd).length + s.cur.length))
  | ended (op : s.op = .idle) (done : s.done = true) (sent : s.streams.symSent = base ++ ps.map Prod.fst)
      (decDepth : s.decDepth = 0#8) (decSyms : s.decSyms = BitVec.ofNat 32 ps.length)
      (decBits : s.decBits = BitVec.ofNat 32 (ps.flatMap Prod.snd).length)

/-- A DECODE that no host disturbs, of codes of the tree `T`, a node. -/
structure Decoding (T : TreeSlot) (base : List Sym) (ps : List (Sym × List Bit)) (tail : List BitXfer) (s : State) :
    Prop where
  tree     : s.tree = T
  root     : ∃ l r, T = .node l r
  codes    : ∀ p ∈ ps, T.subtree p.2 = .leaf p.1
  err      : s.err = .none
  wTrail   : s.wTrail = false
  hostProg : s.hostProg = []
  phase    : DecodePhase T base ps tail s

section

variable {T : TreeSlot} {base : List Sym} {ps : List (Sym × List Bit)} {tail : List BitXfer} {s : State}

/-- A turn that leaves the Core and the transfers outside it alone keeps all of it. -/
theorem Decoding.of_stream {bi bs ci cs so sg co cg sc} (h : Decoding T base ps tail s)
    (hstreams : State.streams { s with
      bitIn := bi, bitSrc := bs, cbIn := ci, cbSrc := cs, symOut := so, symGot := sg, cbOut := co, cbGot := cg,
      sched := sc } = s.streams) :
    Decoding T base ps tail { s with
      bitIn := bi, bitSrc := bs, cbIn := ci, cbSrc := cs, symOut := so, symGot := sg, cbOut := co, cbGot := cg,
      sched := sc } := by
  refine { h with phase := ?_ }
  cases h.phase with
  | accepted op started sent togo => exact .accepted op started (hstreams ▸ sent) (hstreams ▸ togo)
  | running op started done todo left pairs bits cursor sent togo decSyms decBits =>
    exact .running op started done todo left pairs bits cursor (hstreams ▸ sent) (hstreams ▸ togo) decSyms decBits
  | ended op done sent decDepth decSyms decBits => exact .ended op done (hstreams ▸ sent) decDepth decSyms decBits

/-- The Core's turn takes the next transfer: END, which finds the cursor at the root, or a bit, which ends a code and emits
its symbol or moves the cursor along the code. -/
theorem Decoding.transfer {x : BitXfer} {rest : List BitXfer} (h : Decoding T base ps tail s)
    (hop : s.op = .run .decode) (hst : s.started = true) (hin : s.bitIn = x :: rest) :
    Decoding T base ps tail (decodeTransfer x { s with bitIn := rest }) := by
  obtain ⟨htree, hroot, hcodes, herr, htrail, hprog, hphase⟩ := h
  cases hphase with
  | accepted _ started _ _ => exact absurd (hst.symm.trans started) nofun
  | ended op _ _ _ _ _ => exact absurd (hop.symm.trans op) nofun
  | running _ _ done todo left pairs bits cursor sent togo decSyms decBits =>
    obtain ⟨l, r, hcur⟩ := cursor
    have htodo : ∀ p ∈ todo, T.subtree p.2 = .leaf p.1 := fun p hp => hcodes p (by simp [pairs, hp])
    have hnext : x :: (State.streams { s with bitIn := rest }).bitsToGo =
        left.map BitXfer.bit ++ .endOfStream :: tail := by
      rw [← togo]
      simp [State.streams, hin]
    cases left with
    | nil =>
      obtain ⟨rfl, -⟩ := List.cons.inj hnext
      rw [List.append_nil] at bits
      obtain ⟨hroot', rfl⟩ := TreeSlot.end_of_codes hcur htodo bits
      rw [List.append_nil] at pairs
      subst pairs
      refine ⟨htree, hroot, hcodes, herr, ?_, hprog, .ended rfl rfl sent ?_ decSyms ?_⟩
      · simp [decodeTransfer, decodeEnd, htrail, hroot']
      · simp [decodeTransfer, decodeEnd, hroot']
      · rw [hroot'] at decBits
        exact decBits
    | cons b left =>
      obtain ⟨rfl, htogo⟩ := List.cons.inj hnext
      rcases TreeSlot.next_bit_cases hcur htodo bits with ⟨v, rest', rfl, hleft⟩ | ⟨l', r', hnode⟩
      · have hleaf := htodo _ (List.mem_cons_self ..)
        rw [decodeTransfer_leaf (by rw [htree]; exact hleaf)]
        refine ⟨htree, hroot, hcodes, herr, htrail, hprog,
          .running hop hst (done ++ [(v, s.cur ++ [b])]) rest' left ?_ hleft ?_ ?_ htogo ?_ ?_⟩
        · rw [pairs, List.append_cons]
        · simpa [emitSym] using hroot
        · rw [emitSym_streams]
          change s.streams.symSent ++ [v] = _
          rw [sent]
          simp
        · simp [emitSym, decSyms, BitVec.ofNat_add]
        · simp [emitSym, decBits, BitVec.ofNat_add, ← BitVec.add_assoc]
      · rw [decodeTransfer_node (by rw [htree]; exact hnode)]
        refine ⟨htree, hroot, hcodes, herr, htrail, hprog,
          .running hop hst done todo left pairs ?_ ⟨l', r', hnode⟩ sent htogo decSyms ?_⟩
        · rw [← bits]; simp
        · simp [decBits, BitVec.ofNat_add, ← BitVec.add_assoc]

/-- The Core's turn: DECODE's start, the next transfer, a hold, or nothing when DECODE has ended. -/
theorem Decoding.coreStep (h : Decoding T base ps tail s) :
    ∃ t, coreStep s = .next t ∧ Decoding T base ps tail t := by
  cases h.phase with
  | accepted op started sent togo =>
    obtain ⟨l, r, hroot⟩ := h.root
    refine ⟨_, coreStep_decode_start op started, ?_⟩
    rw [decodeStart_tree (by simp [h.tree, hroot])]
    exact { h with
      phase := .running op rfl [] ps _ rfl rfl (by simpa using h.root) (sent.trans (List.append_nil _).symm) togo rfl
        rfl }
  | running op started done todo left pairs bits cursor sent togo decSyms decBits =>
    by_cases hhold : s.bitIn = [] ∨ ¬ s.symOut.length < Config.outDepth
    · exact ⟨s, (coreStep_run op).trans (exec_decode_hold started hhold), h⟩
    · obtain ⟨hne, hroom⟩ := not_or.1 hhold
      obtain ⟨x, rest, hin⟩ := List.exists_cons_of_ne_nil hne
      exact ⟨_, coreStep_decode_transfer op started hin (not_not.1 hroom), h.transfer op started hin⟩
  | ended op done sent decDepth decSyms decBits => exact ⟨s, coreStep_idle op, h⟩

/-- A source's or a sink's turn. -/
theorem Decoding.streamStep {t : State} {a : Agent} (h : Decoding T base ps tail s) (ha : a ≠ .core) (ha' : a ≠ .host)
    (ht : agentStep a s = .next t) : Decoding T base ps tail t := by
  have hstreams := streamStep_streams ha ha' ht
  obtain ⟨bi, bs, ci, cs, so, sg, co, cg, rfl, -⟩ := streamStep_cases ha ha' ht
  exact h.of_stream hstreams

theorem Decoding.agentStep (h : Decoding T base ps tail s) (a : Agent) :
    ∃ t, agentStep a s = .next t ∧ Decoding T base ps tail t := by
  cases a with
  | core => exact h.coreStep
  | host => exact ⟨s, by simp only [Machine.agentStep, hostStep, h.hostProg], h⟩
  | bitSource => exact ⟨_, rfl, h.streamStep (a := .bitSource) nofun nofun rfl⟩
  | cbSource => exact ⟨_, rfl, h.streamStep (a := .cbSource) nofun nofun rfl⟩
  | symSink => exact ⟨_, rfl, h.streamStep (a := .symSink) nofun nofun rfl⟩
  | cbSink => exact ⟨_, rfl, h.streamStep (a := .cbSink) nofun nofun rfl⟩

end

theorem TreeSlot.exists_node_of_leafCount {T : TreeSlot} (h : 2 ≤ T.leafCount) : ∃ l r, T = .node l r := by
  cases T with
  | absent => simp [leafCount] at h
  | leaf v => simp [leafCount] at h
  | node l r => exact ⟨l, r, rfl⟩

/-- Settles O44: every turn keeps `Decoding`, which pins what is emitted in each phase. -/
theorem decodeEmitsTheEncodedSymbols : Obligations.DecodeEmitsTheEncodedSymbols := by
  intro s ps tail sl hop hst herr htrail hprog hleaves hcodes hgo hsl
  have hstart : Decoding s.tree s.streams.symSent ps tail s :=
    ⟨rfl, TreeSlot.exists_node_of_leafCount hleaves, hcodes, herr, htrail, hprog, .accepted hop hst rfl hgo⟩
  obtain ⟨t, hrun, hdec⟩ :=
    runUnder_of_agentStep (fun _ h => h.of_stream rfl) (fun a _ h => h.agentStep a) hsl hstart
  refine ⟨t, hrun, hdec.tree, ?_⟩
  change (∃ k, t.streams.symSent = s.streams.symSent ++ _) ∧
    (t.op = .idle → t.streams.symSent = s.streams.symSent ++ _ ∧ _)
  cases hdec.phase with
  | accepted op started sent togo => exact ⟨⟨0, by simpa using sent⟩, by simp [op]⟩
  | running op started done todo left pairs bits cursor sent togo decSyms decBits =>
    exact ⟨⟨done.length, by simpa [pairs] using sent⟩, by simp [op]⟩
  | ended op done sent decDepth decSyms decBits =>
    exact ⟨⟨ps.length, by rw [List.take_length]; exact sent⟩,
      fun _ => ⟨sent, hdec.err, hdec.wTrail, done, decDepth, decSyms, decBits⟩⟩

/-! ### DECODE ends while the BitSource pushes and the SymSink pops (R212, 70_reset_and_hazards.md R281) -/

/-- The BitSource's turn keeps the bits still to come, and leaves bit_in empty only when none of them is left. -/
theorem bitSourceStep_eq (s : State) :
    ∃ q src, bitSourceStep s = { s with bitIn := q, bitSrc := src } ∧
      q ++ src.map decodeBitXfer = s.streams.bitsToGo ∧ (q = [] → src = []) := by
  cases hs : s.bitSrc with
  | nil => exact ⟨s.bitIn, s.bitSrc, bitSourceStep_done hs, rfl, fun _ => hs⟩
  | cons w src =>
    rcases Nat.lt_or_ge s.bitIn.length Config.inDepth with hroom | hfull
    · exact ⟨_, src, bitSourceStep_push hs hroom, by simp [State.streams, hs], by simp⟩
    · refine ⟨s.bitIn, s.bitSrc, bitSourceStep_full hfull, rfl, fun h => ?_⟩
      rw [h] at hfull
      exact absurd Config_inDepth_pos (Nat.not_lt.2 hfull)

theorem bitSourceStep_feeds (s : State) : (bitSourceStep s).bitIn = [] → (bitSourceStep s).bitSrc = [] := by
  obtain ⟨q, src, he, -, hempty⟩ := bitSourceStep_eq s
  rw [he]
  exact hempty

/-- A SymSink's turn makes room for one more symbol. -/
theorem symSinkStep_eq {s : State} (h : s.symOut.length ≤ Config.outDepth) :
    ∃ so sg, symSinkStep s = { s with symOut := so, symGot := sg } ∧ so.length + 1 ≤ Config.outDepth := by
  cases hs : s.symOut with
  | nil => exact ⟨s.symOut, s.symGot, symSinkStep_empty hs, by rw [hs]; exact Config_outDepth_pos⟩
  | cons v rest => exact ⟨rest, _, symSinkStep_pop hs, by simpa [hs] using h⟩

/-- DECODE has ended, or it runs on fewer than `n` bits before an END, with room for `k` symbols in sym_out. -/
inductive DecodeWithin (k n : Nat) (s : State) : Prop where
  | ended (op : s.op = .idle) (done : s.done = true)
  | running (op : s.op = .run .decode) (started : s.started = true) (room : s.symOut.length + k ≤ Config.outDepth)
      (bits : List Bit) (tail : List BitXfer)
      (togo : s.streams.bitsToGo = bits.map BitXfer.bit ++ .endOfStream :: tail) (few : bits.length < n)

section

variable {k n : Nat} {s : State}

theorem DecodeWithin.bitSource (h : DecodeWithin k n s) : DecodeWithin k n (bitSourceStep s) := by
  have hstreams := bitSourceStep_streams s
  obtain ⟨q, src, he, -⟩ := bitSourceStep_eq s
  rw [he] at hstreams ⊢
  cases h with
  | ended op done => exact .ended op done
  | running op started room bits tail togo few =>
    exact .running op started room bits tail (hstreams ▸ togo) few

theorem DecodeWithin.symSink (h : DecodeWithin 0 n s) : DecodeWithin 1 n (symSinkStep s) := by
  cases h with
  | ended op done =>
    unfold symSinkStep
    split <;> exact .ended op done
  | running op started room bits tail togo few =>
    have hstreams := symSinkStep_streams s
    obtain ⟨so, sg, he, hroom⟩ := symSinkStep_eq room
    rw [he] at hstreams ⊢
    exact .running op started hroom bits tail (hstreams ▸ togo) few

/-- Without a tree the start step ends DECODE. -/
theorem decodeWithin_start {bits : List Bit} {tail : List BitXfer} (hop : s.op = .run .decode)
    (hdepth : s.symOut.length ≤ Config.outDepth)
    (hgo : s.streams.bitsToGo = bits.map BitXfer.bit ++ .endOfStream :: tail) :
    DecodeWithin 0 (bits.length + 1) (decodeStart s) := by
  by_cases htree : s.tree = .absent
  · rw [decodeStart_noTree htree]
    exact .ended rfl rfl
  · rw [decodeStart_tree htree]
    exact .running hop rfl hdepth bits tail hgo (Nat.lt_succ_self _)

/-- A bit emits a symbol, moves the cursor, or ends DECODE. -/
theorem decodeWithin_bit {b : Bit} {bits : List Bit} {tail : List BitXfer} (hop : s.op = .run .decode)
    (hst : s.started = true) (hroom : s.symOut.length < Config.outDepth)
    (hgo : s.streams.bitsToGo = bits.map BitXfer.bit ++ .endOfStream :: tail) (hfew : bits.length < n) :
    DecodeWithin 0 n (decodeTransfer (.bit b) s) := by
  cases hsub : s.tree.subtree (s.cur ++ [b]) with
  | absent => rw [decodeTransfer_absent hsub]; exact .ended rfl rfl
  | leaf v =>
    rw [decodeTransfer_leaf hsub]
    exact .running hop hst (by simpa [emitSym] using hroom) bits tail hgo hfew
  | node l r =>
    rw [decodeTransfer_node hsub]
    exact .running hop hst hroom.le bits tail hgo hfew

/-- A Core's turn takes the first of the bits still to come, or DECODE ends. -/
theorem DecodeWithin.core (h : DecodeWithin 1 (n + 1) s) (hfed : s.bitIn = [] → s.bitSrc = []) :
    ∃ t, coreStep s = .next t ∧ DecodeWithin 0 n t := by
  cases h with
  | ended op done => exact ⟨s, coreStep_idle op, .ended op done⟩
  | running op started room bits tail togo few =>
    have hne : s.bitIn ≠ [] := fun hin => by simp [State.streams, hin, hfed hin] at togo
    obtain ⟨x, rest, hin⟩ := List.exists_cons_of_ne_nil hne
    refine ⟨_, coreStep_decode_transfer op started hin room, ?_⟩
    cases x with
    | endOfStream => exact .ended rfl rfl
    | bit b =>
      cases bits with
      | nil => simp [State.streams, hin] at togo
      | cons b' bits =>
        simp only [State.streams, hin] at togo
        exact decodeWithin_bit (s := { s with bitIn := rest }) op started room (List.cons.inj togo).2
          (Nat.lt_of_succ_lt_succ few)

/-- A round in which the Core goes to `t` goes on from `t` after the SymSink's turn. -/
theorem runUnder_round_symSink {t : State} (hcore : coreStep (bitSourceStep { s with sched := [] }) = .next t)
    (xs : List Slot) :
    runUnder ([Agent.bitSource, .core, .symSink].map Slot.agent ++ xs) s =
      runUnder xs (symSinkStep { t with sched := [] }) := by
  obtain ⟨q, src, he, -⟩ := bitSourceStep_eq { s with sched := [] }
  rw [he] at hcore
  rw [List.map_cons, List.cons_append, runUnder_agent]
  change runUnder (.agent .core :: .agent .symSink :: xs) (bitSourceStep { s with sched := [] }) = _
  rw [he, runUnder_agent]
  simp only [agentStep, hcore]
  exact runUnder_agent .symSink xs t

theorem DecodeWithin.unscheduled (h : DecodeWithin k n s) : DecodeWithin k n { s with sched := [] } := by
  cases h with
  | ended op done => exact .ended op done
  | running op started room bits tail togo few => exact .running op started room bits tail togo few

/-- As many rounds as there are bits, and one for END, end DECODE. -/
theorem DecodeWithin.ends_of_rounds (h : DecodeWithin 1 n s) :
    ∃ t, runUnder (rounds [.bitSource, .core, .symSink] n) s = .next t ∧ t.op = .idle ∧ t.done = true := by
  induction n generalizing s with
  | zero =>
    cases h with
    | ended op done => exact ⟨s, rfl, op, done⟩
    | running op started room bits tail togo few => exact absurd few (Nat.not_lt_zero _)
  | succ n ih =>
    obtain ⟨t, hcore, ht⟩ := h.unscheduled.bitSource.core (bitSourceStep_feeds _)
    rw [rounds, runUnder_round_symSink hcore]
    exact ih ht.unscheduled.symSink

end

/-- Settles O45: the start round ends DECODE or makes room, and each further round takes a transfer
(`DecodeWithin.ends_of_rounds`). -/
theorem decodeEndsOnAnEndedStream : Obligations.DecodeEndsOnAnEndedStream := by
  intro s bits tail hop hst hdepth hgo
  obtain ⟨q, src, he, hq, -⟩ := bitSourceStep_eq { s with sched := [] }
  have hstart := decodeWithin_start (s := { s with sched := [], bitIn := q, bitSrc := src }) hop hdepth (hq.trans hgo)
  have hround := runUnder_round_symSink (s := s) (by rw [he]; exact coreStep_decode_start hop hst)
  rw [Nat.add_comm 2, ← Nat.add_assoc _ 1 1, rounds, hround]
  exact hstart.unscheduled.symSink.ends_of_rounds

end Sys2Proof.Machine
end

section
/-! SUPPORT. The errors that the commands record (spec 60_exceptions.md R240, R243, R245): each comes from `raiseErr`, which
ends the command, and it finds TREE dropped by BUILD and LOAD and left alone by SAVE and DECODE. -/

namespace Sys2Proof.Machine

/-- The step from `s` to `t` records no error, or it ends its command with one of `errs`, FREQ as it was and TREE = `tree`. -/
def ErrorEnds (errs : List ErrCode) (tree : TreeSlot) (s t : State) : Prop :=
  t.err = s.err ∨ t.err ∈ errs ∧ t.tree = tree ∧ t.op = .idle ∧ t.done = true ∧ t.freq = s.freq

theorem raiseErr_errorEnds {errs : List ErrCode} {e : ErrCode} (d : ErrDetail) {s s' : State} (he : e ∈ errs)
    (hfreq : s'.freq = s.freq) : ErrorEnds errs s'.tree s (raiseErr e d s') :=
  .inr ⟨he, rfl, rfl, rfl, hfreq⟩

section

variable {s t : State}

/-! ### BUILD and SAVE (41_tree_builder.md R153, R160) -/

theorem exec_build_errorEnds (h : exec .build s = .next t) : ErrorEnds [.noSymbols] .absent s t := by
  cases hroot : buildRoot s.freq with
  | none =>
    rw [exec_build_none hroot] at h
    cases h; exact raiseErr_errorEnds .none (s' := dropTree s) (by decide) rfl
  | some r =>
    rw [exec_build_some hroot] at h
    cases h; exact .inl rfl

theorem saveStart_errorEnds (s : State) : ErrorEnds [.noTree] s.tree s (saveStart s) := by
  by_cases htree : s.tree = .absent
  · rw [saveStart_noTree htree]; exact raiseErr_errorEnds .none (by decide) rfl
  · rw [saveStart_tree htree]; exact .inl rfl

theorem saveTransfer_err (x : CbXfer) (rest : List CbXfer) (s : State) : (saveTransfer x rest s).err = s.err := by
  cases x <;> rfl

theorem execSave_errorEnds (h : execSave s = .next t) : ErrorEnds [.noTree] s.tree s t := by
  unfold execSave at h
  split at h
  · split at h
    · split at h
      · cases h
      · next x rest _ => cases h; exact .inl (saveTransfer_err x rest s)
    · cases h; exact .inl rfl
  · cases h; exact saveStart_errorEnds s

/-! ### LOAD (42_decoder.md R190-R192, R199) -/

/-- A step of LOAD goes on, succeeds, or fails with one of its two errors and without a tree. -/
def LoadErrorEnds (s t : State) : Prop := ErrorEnds [.malformedCodebook, .capacity] .absent s t

theorem loadFail_errorEnds {e : ErrCode} (he : e ∈ [.malformedCodebook, .capacity]) (d : ErrDetail) (s : State) :
    LoadErrorEnds s (loadFail e d s) :=
  raiseErr_errorEnds d (s' := { dropTree s with cbPairs := BitVec.ofNat 16 s.ld.pairs, cbLine := s.ld.line }) he rfl

theorem loadMalformed_errorEnds (d : ErrDetail) (s : State) : LoadErrorEnds s (loadMalformed d s) :=
  loadFail_errorEnds (by decide) d s

theorem symStep_errorEnds (x : CbXfer) (s : State) : LoadErrorEnds s (symStep x s) := by
  unfold symStep
  split
  · split
    · exact loadMalformed_errorEnds ..
    · split
      · exact loadMalformed_errorEnds ..
      · exact .inl rfl
  · split
    · dsimp only
      split
      · exact .inl rfl
      · exact loadMalformed_errorEnds ..
    · split
      · split
        · exact .inl rfl
        · exact loadMalformed_errorEnds ..
      · exact loadMalformed_errorEnds ..

theorem loadPair_errorEnds (s : State) : LoadErrorEnds s (loadPair s) := by
  unfold loadPair
  split
  · exact loadMalformed_errorEnds ..
  · exact loadFail_errorEnds (by decide) ..
  · exact .inl rfl

theorem codeStep_errorEnds (x : CbXfer) (s : State) : LoadErrorEnds s (codeStep x s) := by
  unfold codeStep
  split
  · exact loadMalformed_errorEnds ..
  · split
    · split
      · exact loadMalformed_errorEnds ..
      · exact .inl rfl
    · split
      · split
        · exact loadMalformed_errorEnds ..
        · exact loadPair_errorEnds s
      · exact loadMalformed_errorEnds ..

theorem loadTransfer_errorEnds (x : CbXfer) (s : State) : LoadErrorEnds s (loadTransfer x s) := by
  unfold loadTransfer
  split
  · exact symStep_errorEnds x s
  · exact codeStep_errorEnds x s

theorem execLoad_errorEnds (h : execLoad s = .next t) : LoadErrorEnds s t := by
  unfold execLoad at h
  split at h
  · split at h
    · cases h; exact .inl rfl
    · next x rest _ => cases h; exact loadTransfer_errorEnds x { s with cbIn := rest }
  · cases h; exact .inl rfl

/-! ### DECODE (42_decoder.md R211-R215) -/

theorem decodeStart_errorEnds (s : State) : ErrorEnds [.noTree, .corruptTree] s.tree s (decodeStart s) := by
  by_cases htree : s.tree = .absent
  · rw [decodeStart_noTree htree]; exact raiseErr_errorEnds .none (by decide) rfl
  · rw [decodeStart_tree htree]; exact .inl rfl

theorem decodeTransfer_errorEnds (x : BitXfer) (s : State) :
    ErrorEnds [.noTree, .corruptTree] s.tree s (decodeTransfer x s) := by
  cases x with
  | endOfStream => exact .inl rfl
  | bit b =>
    cases hsub : s.tree.subtree (s.cur ++ [b]) with
    | absent => rw [decodeTransfer_absent hsub]; exact raiseErr_errorEnds .none (by decide) rfl
    | leaf v => rw [decodeTransfer_leaf hsub]; exact .inl rfl
    | node l r => rw [decodeTransfer_node hsub]; exact .inl rfl

theorem execDecode_errorEnds (h : execDecode s = .next t) : ErrorEnds [.noTree, .corruptTree] s.tree s t := by
  unfold execDecode at h
  split at h
  · split at h
    · cases h; exact .inl rfl
    · next x rest _ =>
      split at h
      · cases h; exact decodeTransfer_errorEnds x { s with bitIn := rest }
      · cases h; exact .inl rfl
  · cases h; exact decodeStart_errorEnds s

end

/-- Settles O52: NOP, CLEAR_TREE, CLEAR_FREQ and FLUSH keep the error code, and for each other command a step that changes
it ends that command with one of its errors (`ErrorEnds`). -/
theorem errorsLeaveNoPartialTree : Obligations.ErrorsLeaveNoPartialTree := by
  intro s t i hnone h herr
  have hnew : t.err ≠ s.err := hnone ▸ herr
  cases i with
  | nop | clearTree | clearFreq | flush => cases h; exact absurd rfl hnew
  | build =>
    obtain ⟨he, htree, hop, hdone, hfreq⟩ := (exec_build_errorEnds h).resolve_left hnew
    exact ⟨hop, hdone, hfreq, .inl ⟨rfl, List.mem_singleton.1 he, htree⟩⟩
  | load =>
    obtain ⟨he, htree, hop, hdone, hfreq⟩ := (execLoad_errorEnds h).resolve_left hnew
    exact ⟨hop, hdone, hfreq, .inr (.inl ⟨rfl, List.mem_pair.1 he, htree⟩)⟩
  | save =>
    obtain ⟨he, htree, hop, hdone, hfreq⟩ := (execSave_errorEnds h).resolve_left hnew
    exact ⟨hop, hdone, hfreq, .inr (.inr (.inl ⟨rfl, List.mem_singleton.1 he, htree⟩))⟩
  | decode =>
    obtain ⟨he, htree, hop, hdone, hfreq⟩ := (execDecode_errorEnds h).resolve_left hnew
    exact ⟨hop, hdone, hfreq, .inr (.inr (.inr ⟨rfl, List.mem_pair.1 he, htree⟩))⟩

end Sys2Proof.Machine
end

section
/-! SUPPORT. Hardware reset (spec 70_reset_and_hazards.md R270): what the state after reset is, the step that leads to it,
and that it meets the invariant. -/

namespace Sys2Proof.Machine

/-- No flag, no error and no command stands in STATUS after reset. -/
theorem statusWord_reset : State.reset.statusWord = 0#32 := by decide

/-- After reset every register but PARAMS reads 0. -/
theorem regValue_reset {r : RegName} (h : r ≠ .PARAMS) : State.reset.regValue r = 0#32 := by
  cases r with
  | PARAMS => exact absurd rfl h
  | STATUS => exact statusWord_reset
  | CTRL | WEIGHT_LO | WEIGHT_HI => decide
  | CMD | LEAVES | NODES | DEC_BITS | DEC_SYMS | DEC_DEPTH | CB_PAIRS | CB_LINE => rfl

/-- A reset of the block in its reset state changes nothing. -/
theorem resetBlock_reset : resetBlock State.reset = State.reset := rfl

/-- Settles O4: the registers by `regValue_reset`, the counts by `Memory.read_nil`, the other fields by definition. -/
theorem resetLeavesTheStatedState : Obligations.ResetLeavesTheStatedState :=
  ⟨by decide, fun _ => regValue_reset, rfl, rfl, rfl, rfl, rfl, rfl, rfl, rfl, rfl, rfl, rfl, Memory.read_nil,
    rfl, rfl, rfl, rfl, rfl, rfl, rfl⟩

/-- Settles O6: the step is `resetBlock`, whatever runs (`step_hardReset`). -/
theorem hardwareResetResetsTheBlock : Obligations.HardwareResetResetsTheBlock := step_hardReset

/-- Settles O53: every reset meets the invariant (`resetBlock_inv`), and so does that of the reset state itself. -/
theorem resetMeetsTheInvariant : Obligations.ResetMeetsTheInvariant := by
  have h : (resetBlock State.reset).Inv := resetBlock_inv State.reset
  rwa [resetBlock_reset] at h

end Sys2Proof.Machine
end
